-- ==== Sys2Proof/Word.lean ====
section
/-! DEFINITION. The words and names of TomasuloRS: the record word, the numeric value, the names of
registers, opcodes and pools, and the tag of a reservation-station slot. -/

namespace Sys2Proof

/-- An instruction record word, 32 bits, bit 0 the least significant (R82, 30_encoding). It is a number
with no byte order (R64, 20_memory). -/
abbrev Word := BitVec 32

/-- `Val`, what a register, an operand register or a memory cell holds (R11, 00_scope). Under the default
domain `NUM_Q` it is the rationals; under another domain a rational is the code of a value of that
domain (assumption log 6). -/
abbrev Val := Rat

/-- The two register files, floating-point `F` and integer `R` (R22, R23, 10_state). -/
inductive RegFile where
  | f
  | r
  deriving DecidableEq, Repr

/-- A register name `(file, idx)`, written `F6`, `R2` (R10, 00_scope). -/
structure RegName where
  file : RegFile
  idx  : Nat
  deriving DecidableEq, Repr

/-- The six opcodes, in the order of their codes 0 to 5 (R2, 00_scope; R84, 30_encoding). -/
inductive Opcode where
  | ld
  | st
  | addd
  | subd
  | multd
  | divd
  deriving DecidableEq, Repr

/-- The four pools of reservation-station slots, in the order of their codes 0 to 3 (R20, R30, 10_state).
The class of an opcode is the pool it is assigned to (R8, 00_scope; R12). -/
inductive Pool where
  | add
  | mul
  | load
  | store
  deriving DecidableEq, Repr

/-- A tag `(pool, rank)`, the identity of one slot (R20, 10_state). Two tags are equal when both
components are. -/
structure Tag where
  pool : Pool
  rank : Nat
  deriving DecidableEq, Repr

end Sys2Proof
end

