-- ==== Sys2Proof/Config.lean ====
section
/-! DEFINITION. The parameters of the hardware (R7, 00_scope), their defaults, the reasons of the
load-time check (R236, 60_exceptions), and the uninterpreted numeric domains. -/

namespace Sys2Proof

/-- The numeric domain `NUM` (R11, 00_scope): the default `NUM_Q`, exact rationals, or some other domain,
of which nothing is known but what R11 fixes (assumption log 6). -/
inductive Num where
  | q
  | other (id : Nat)
  deriving DecidableEq, Repr

/-- `add` of another numeric domain: uninterpreted (R11, 00_scope; assumption log 6). -/
opaque Config.otherAdd : Nat → Val → Val → Val

/-- `sub` of another numeric domain: uninterpreted but where R11 fixes it (assumption log 6). -/
opaque Config.otherSub : Nat → Val → Val → Val

/-- `mul` of another numeric domain: uninterpreted but where R11 fixes it (assumption log 6). -/
opaque Config.otherMul : Nat → Val → Val → Val

/-- `div` of another numeric domain: uninterpreted but where R11 fixes it (assumption log 6). -/
opaque Config.otherDiv : Nat → Val → Val → Val

/-- `isZero` of another numeric domain, beyond its zero itself: uninterpreted (assumption log 6). -/
opaque Config.otherIsZero : Nat → Val → Bool

/-- `LAT[op]`, the latency of each opcode in cycles (R7, 00_scope). -/
structure Latencies where
  ld    : Nat
  st    : Nat
  addd  : Nat
  subd  : Nat
  multd : Nat
  divd  : Nat
  deriving DecidableEq, Repr

/-- The parameters of R7 (00_scope), fixed from load time to the next load (R41, 10_state). `regInitF`,
`regInitR` and `memInit` are the finite tables of `REG_INIT` and `MEM_INIT`: a register beyond its table
starts at 0, as does a cell that no pair of `memInit` names. `vlen` is `VLEN`, which has no default: `none`
where no width is given. `CYCW` belongs to a fixed-width implementation alone (R27, 10_state; assumption
log 14). -/
structure Config where
  nadd      : Nat
  nmul      : Nat
  nload     : Nat
  nstore    : Nat
  lat       : Latencies
  timw      : Nat
  nf        : Nat
  ni        : Nat
  memSize   : Nat
  pcw       : Nat
  vlen      : Option Nat
  num       : Num
  regInitF  : List Val
  regInitR  : List Val
  memInit   : List (Nat × Val)
  maxCycles : Option Nat
  deriving DecidableEq, Repr

/-- The defaults of R7 (00_scope). The OPEN parameters `REG_INIT`, `MEM_INIT` and `MAXCYCLES` have none
there: all zero, all zero and `none` here (DESIGN CHOICE, unsafe; assumption log 2, 3, 5). -/
def Config.default : Config where
  nadd := 3
  nmul := 2
  nload := 3
  nstore := 3
  lat := { ld := 2, st := 2, addd := 2, subd := 2, multd := 10, divd := 40 }
  timw := 8
  nf := 32
  ni := 32
  memSize := 4096
  pcw := 16
  vlen := none
  num := .q
  regInitF := []
  regInitR := []
  memInit := []
  maxCycles := none

/-- Why a word is no instruction record: `Invalid(UnknownOpcode)` or `Invalid(MalformedOperand)`
(R87, R94, R95, 30_encoding). -/
inductive DecodeError where
  | unknownOpcode
  | malformedOperand
  deriving DecidableEq, Repr

/-- A load-time refusal with the information it records (R236, R237, 60_exceptions). -/
inductive ConfigError where
  | unknownOpcode (k : Nat)
  | malformedOperand (k : Nat)
  | badLatency (op : Opcode)
  | programTooLong
  | badSize
  deriving DecidableEq, Repr

end Sys2Proof
end

