-- ==== Sys2Proof/Syntax.lean ====
section
/-! DEFINITION. The abstract instruction record (R81, 30_encoding): one constructor per row of
spec/opcode_table.json, operands in assembler order. -/

namespace Sys2Proof

/-- An instruction record (R2, 00_scope; R81, 30_encoding). -/
inductive Instr where
  /-- `LD rd,addr` (R220, 45_loadstore_instructions). -/
  | ld (rd : RegName) (addr : Nat)
  /-- `ST rs,addr` (R221, 45_loadstore_instructions). -/
  | st (rs : RegName) (addr : Nat)
  /-- `ADDD rd,rs1,rs2` (R200, 44_arith_instructions). -/
  | addd (rd rs1 rs2 : RegName)
  /-- `SUBD rd,rs1,rs2` (R201, 44_arith_instructions). -/
  | subd (rd rs1 rs2 : RegName)
  /-- `MULTD rd,rs1,rs2` (R202, 44_arith_instructions). -/
  | multd (rd rs1 rs2 : RegName)
  /-- `DIVD rd,rs1,rs2` (R203, 44_arith_instructions). -/
  | divd (rd rs1 rs2 : RegName)
  deriving DecidableEq, Repr

end Sys2Proof
end

