-- ==== Sys2Proof/WellFormed.lean ====
section
/-! DEFINITION. Which instruction records and which configurations are legal (R83, R85, R95, R96,
30_encoding). -/

namespace Sys2Proof

/-- The number of registers of a file: `NF` or `NI` (R22, R23, 10_state). -/
abbrev Config.fileSize (cfg : Config) (file : RegFile) : Nat :=
  match file with
  | .f => cfg.nf
  | .r => cfg.ni

/-- A register name of one of the two files (R83, 30_encoding). -/
abbrev RegName.WellFormed (cfg : Config) (q : RegName) : Prop := q.idx < cfg.fileSize q.file

/-- A literal address inside the memory array (R85, 30_encoding; R67, 20_memory). -/
abbrev AddrWellFormed (cfg : Config) (a : Nat) : Prop := a < cfg.memSize

/-- No operand of the record is malformed (R95, 30_encoding). -/
abbrev Instr.WellFormed (cfg : Config) : Instr → Prop
  | .ld rd addr => rd.WellFormed cfg ∧ AddrWellFormed cfg addr
  | .st rs addr => rs.WellFormed cfg ∧ AddrWellFormed cfg addr
  | .addd rd rs1 rs2 => rd.WellFormed cfg ∧ rs1.WellFormed cfg ∧ rs2.WellFormed cfg
  | .subd rd rs1 rs2 => rd.WellFormed cfg ∧ rs1.WellFormed cfg ∧ rs2.WellFormed cfg
  | .multd rd rs1 rs2 => rd.WellFormed cfg ∧ rs1.WellFormed cfg ∧ rs2.WellFormed cfg
  | .divd rd rs1 rs2 => rd.WellFormed cfg ∧ rs1.WellFormed cfg ∧ rs2.WellFormed cfg

/-- A latency a timer of `timw` bits can hold (R96, 30_encoding). -/
abbrev LatencyWellFormed (timw l : Nat) : Prop := 1 ≤ l ∧ l ≤ 2 ^ timw - 1

/-- Every latency is in its legal range (R7, 00_scope; R96, 30_encoding). -/
abbrev Config.LatenciesWellFormed (cfg : Config) : Prop :=
  LatencyWellFormed cfg.timw cfg.lat.ld ∧ LatencyWellFormed cfg.timw cfg.lat.st ∧
  LatencyWellFormed cfg.timw cfg.lat.addd ∧ LatencyWellFormed cfg.timw cfg.lat.subd ∧
  LatencyWellFormed cfg.timw cfg.lat.multd ∧ LatencyWellFormed cfg.timw cfg.lat.divd

/-- The sizes are in their legal ranges (R7, 00_scope; R96, 30_encoding). -/
abbrev Config.SizesWellFormed (cfg : Config) : Prop :=
  1 ≤ cfg.nf ∧ cfg.nf ≤ 32 ∧ cfg.ni ≤ 32 ∧ 1 ≤ cfg.memSize ∧ cfg.memSize ≤ 2 ^ 23

/-- The cycle budget is absent or positive (R96, 30_encoding). -/
abbrev Config.BudgetWellFormed (cfg : Config) : Prop := cfg.maxCycles ≠ some 0

/-- The widths `PCW` and `VLEN`, where it is given, are in their legal ranges (R7, 00_scope; assumption
log 19). `TIMW` is 1 or more wherever a latency is legal. -/
abbrev Config.WidthsWellFormed (cfg : Config) : Prop := 1 ≤ cfg.pcw ∧ cfg.vlen ≠ some 0

/-- The configuration is one that `load` does not refuse (R7, 00_scope; R96, 30_encoding). Pools of size 0
are legal. -/
abbrev Config.WellFormed (cfg : Config) : Prop :=
  cfg.LatenciesWellFormed ∧ cfg.SizesWellFormed ∧ cfg.BudgetWellFormed ∧ cfg.WidthsWellFormed

end Sys2Proof
end

