-- ==== Sys2Proof/Decode.lean ====
section
/-! DEFINITION. The 32-bit record word (R82 to R87, 30_encoding): its fields, the total decoder, and the
encoder written from the same tables; the assembler's spelling of a record (R100). -/

namespace Sys2Proof

/-- The opcode field's code of each opcode (R84, 30_encoding). -/
def opcodeCode : Opcode → BitVec 3
  | .ld => 0#3
  | .st => 1#3
  | .addd => 2#3
  | .subd => 3#3
  | .multd => 4#3
  | .divd => 5#3

/-- The opcode a field value names; 6 and 7 name none (R84, R94, 30_encoding). -/
def opcodeOfCode (b : BitVec 3) : Option Opcode :=
  if b = 0#3 then some .ld
  else if b = 1#3 then some .st
  else if b = 2#3 then some .addd
  else if b = 3#3 then some .subd
  else if b = 4#3 then some .multd
  else if b = 5#3 then some .divd
  else none

/-- `w[31:29]` (R82, 30_encoding). -/
def fieldOp (w : Word) : BitVec 3 := w.extractLsb' 29 3

/-- `w[28:23]`: `rd` of format A, `r` of format M (R82, 30_encoding). -/
def fieldRd (w : Word) : BitVec 6 := w.extractLsb' 23 6

/-- `w[22:17]`: `rs1` of format A (R82, 30_encoding). -/
def fieldRs1 (w : Word) : BitVec 6 := w.extractLsb' 17 6

/-- `w[16:11]`: `rs2` of format A (R82, 30_encoding). -/
def fieldRs2 (w : Word) : BitVec 6 := w.extractLsb' 11 6

/-- `w[10:0]`: the zero field of format A (R82, 30_encoding). -/
def fieldZero (w : Word) : BitVec 11 := w.extractLsb' 0 11

/-- `w[22:0]`: the literal address of format M, zero-extended, not scaled (R82, R85, 30_encoding). -/
def fieldAddr (w : Word) : Nat := (w.extractLsb' 0 23).toNat

/-- The register a 6-bit specifier names: bit 5 the file, bits 4:0 the index (R83, 30_encoding). -/
def regOfSpec (f : BitVec 6) : RegName :=
  { file := if f.extractLsb' 5 1 = 0#1 then .f else .r, idx := (f.extractLsb' 0 5).toNat }

/-- The specifier of a register (R83, 30_encoding). An index above 31 keeps its low five bits (DESIGN CHOICE,
safe; assumption log 18). -/
def specOfReg (q : RegName) : BitVec 6 :=
  (match q.file with
   | .f => 0#1
   | .r => 1#1) ++ BitVec.ofNat 5 q.idx

/-- The specifier is legal: `idx < NF` in file F, `idx < NI` in file R (R83, 30_encoding). -/
def regLegal (cfg : Config) (q : RegName) : Bool :=
  match q.file with
  | .f => decide (q.idx < cfg.nf)
  | .r => decide (q.idx < cfg.ni)

/-- The address is legal: `addr < MEMSIZE` (R85, 30_encoding). -/
def addrLegal (cfg : Config) (a : Nat) : Bool := decide (a < cfg.memSize)

/-- Format M of the decoder (R87, 30_encoding). -/
def decodeM (cfg : Config) (mk : RegName → Nat → Instr) (w : Word) : Except DecodeError Instr :=
  if regLegal cfg (regOfSpec (fieldRd w)) = false then .error .malformedOperand
  else if addrLegal cfg (fieldAddr w) = false then .error .malformedOperand
  else .ok (mk (regOfSpec (fieldRd w)) (fieldAddr w))

/-- Format A of the decoder (R87, 30_encoding). -/
def decodeA (cfg : Config) (mk : RegName → RegName → RegName → Instr) (w : Word) :
    Except DecodeError Instr :=
  if fieldZero w ≠ 0#11 then .error .malformedOperand
  else if (regLegal cfg (regOfSpec (fieldRd w)) && regLegal cfg (regOfSpec (fieldRs1 w)) &&
      regLegal cfg (regOfSpec (fieldRs2 w))) = false then .error .malformedOperand
  else .ok (mk (regOfSpec (fieldRd w)) (regOfSpec (fieldRs1 w)) (regOfSpec (fieldRs2 w)))

/-- The decoder, total on every word (R87, 30_encoding). -/
def decode (cfg : Config) (w : Word) : Except DecodeError Instr :=
  match opcodeOfCode (fieldOp w) with
  | none => .error .unknownOpcode
  | some .ld => decodeM cfg .ld w
  | some .st => decodeM cfg .st w
  | some .addd => decodeA cfg .addd w
  | some .subd => decodeA cfg .subd w
  | some .multd => decodeA cfg .multd w
  | some .divd => decodeA cfg .divd w

/-- A word of format M (R82, 30_encoding). -/
def encodeM (op : Opcode) (q : RegName) (addr : Nat) : Word :=
  opcodeCode op ++ specOfReg q ++ BitVec.ofNat 23 addr

/-- A word of format A (R82, 30_encoding). -/
def encodeA (op : Opcode) (rd rs1 rs2 : RegName) : Word :=
  opcodeCode op ++ specOfReg rd ++ specOfReg rs1 ++ specOfReg rs2 ++ 0#11

/-- The encoder, the inverse of the decoder on legal records (R87, 30_encoding). On a record that is not
legal, of which the spec says nothing, each field keeps the low bits that fit it (DESIGN CHOICE, safe;
assumption log 18). -/
def encode : Instr → Word
  | .ld rd addr => encodeM .ld rd addr
  | .st rs addr => encodeM .st rs addr
  | .addd rd rs1 rs2 => encodeA .addd rd rs1 rs2
  | .subd rd rs1 rs2 => encodeA .subd rd rs1 rs2
  | .multd rd rs1 rs2 => encodeA .multd rd rs1 rs2
  | .divd rd rs1 rs2 => encodeA .divd rd rs1 rs2

/-- The opcode of a record (R81, 30_encoding). -/
def instrOpcode : Instr → Opcode
  | .ld _ _ => .ld
  | .st _ _ => .st
  | .addd _ _ _ => .addd
  | .subd _ _ _ => .subd
  | .multd _ _ _ => .multd
  | .divd _ _ _ => .divd

/-- The register a record renames at issue: `rd`, and none for ST (R117, R118, R120, 40_issue). -/
def instrDest : Instr → Option RegName
  | .ld rd _ => some rd
  | .st _ _ => none
  | .addd rd _ _ => some rd
  | .subd rd _ _ => some rd
  | .multd rd _ _ => some rd
  | .divd rd _ _ => some rd

/-- `mask(X)` of the decoder's table (R86, 30_encoding). -/
def instrMask : Opcode → Word
  | .ld => 0xE0000000#32
  | .st => 0xE0000000#32
  | .addd => 0xE00007FF#32
  | .subd => 0xE00007FF#32
  | .multd => 0xE00007FF#32
  | .divd => 0xE00007FF#32

/-- `match(X)` of the decoder's table (R86, 30_encoding). -/
def instrMatch : Opcode → Word
  | .ld => 0x00000000#32
  | .st => 0x20000000#32
  | .addd => 0x40000000#32
  | .subd => 0x60000000#32
  | .multd => 0x80000000#32
  | .divd => 0xA0000000#32

/-- A register as the assembler writes it (R100, 30_encoding). -/
def asmReg (q : RegName) : String :=
  (match q.file with
   | .f => "F"
   | .r => "R") ++ Nat.repr q.idx

/-- A record as the assembler writes it: upper-case mnemonic, one space, operands separated by commas,
addresses in decimal (R100, R101, 30_encoding). -/
def asm : Instr → String
  | .ld rd addr => "LD " ++ asmReg rd ++ "," ++ Nat.repr addr
  | .st rs addr => "ST " ++ asmReg rs ++ "," ++ Nat.repr addr
  | .addd rd rs1 rs2 => "ADDD " ++ asmReg rd ++ "," ++ asmReg rs1 ++ "," ++ asmReg rs2
  | .subd rd rs1 rs2 => "SUBD " ++ asmReg rd ++ "," ++ asmReg rs1 ++ "," ++ asmReg rs2
  | .multd rd rs1 rs2 => "MULTD " ++ asmReg rd ++ "," ++ asmReg rs1 ++ "," ++ asmReg rs2
  | .divd rd rs1 rs2 => "DIVD " ++ asmReg rd ++ "," ++ asmReg rs1 ++ "," ++ asmReg rs2

/-- The word whose low `nbits` bits are those of `w` and whose other bits are zero. A record has one word,
which is a number with no byte order (R64, 20_memory; R82, 30_encoding; assumption log 15). -/
def tableWord (nbits w : Nat) : Word := BitVec.ofNat 32 (w % 2 ^ nbits)

/-- The instruction the decoder reads under the default parameters from the bits `w` numbered as
spec/opcode_table.json numbers them; none where it refuses, or where `nbits` is more than a record has. -/
def decodeTableWord (nbits w : Nat) : Option Instr :=
  if nbits ≤ 32 then
    match decode Config.default (tableWord nbits w) with
    | .ok i => some i
    | .error _ => none
  else none

end Sys2Proof
end

