-- ==== Sys2Proof/Machine/State.lean ====
section
/-! DEFINITION. The architectural state of TomasuloRS as plain data (R45, 10_state), the reasons a step of
the model can stop, and the state after reset. -/

namespace Sys2Proof.Machine

/-- A register-status entry or a slot's operand register: a value, or the tag of the slot that will
produce it (R21, 10_state). -/
inductive Entry where
  | value (v : Val)
  | tag (t : Tag)
  deriving DecidableEq, Repr

/-- A slot of pool ADD or MUL (R31, 10_state). Its rank is its position in the pool's list (R30). -/
structure ArithSlot where
  busy  : Bool
  op    : Opcode
  j     : Entry
  k     : Entry
  timer : Nat
  owner : Nat
  deriving DecidableEq, Repr

/-- A slot of pool LOAD (R32, 10_state). -/
structure LoadSlot where
  busy  : Bool
  addr  : Nat
  timer : Nat
  owner : Nat
  deriving DecidableEq, Repr

/-- A slot of pool STORE (R33, 10_state). -/
structure StoreSlot where
  busy  : Bool
  j     : Entry
  addr  : Nat
  timer : Nat
  owner : Nat
  deriving DecidableEq, Repr

/-- The three timestamps of one instruction, 0 when unset (R28, 10_state). -/
structure Stamp where
  issue : Nat
  exec  : Nat
  wb    : Nat
  deriving DecidableEq, Repr

/-- What the fault latch holds (R40, 10_state): a run-time fault with its information (R236,
60_exceptions). A latched fault is part of a next state; it is no outcome of its own (R187, 43;
assumption log 8). -/
inductive FaultRecord where
  /-- A source operand of kind TAG at the write-back of slot `t`, owner `k` (R158, 42_writeback_broadcast). -/
  | operandKind (t : Tag) (k : Nat)
  /-- The cycle budget `c` is used up and the machine is not done (R189, 43_cycle_driver). -/
  | nonTermination (c : Nat)
  deriving DecidableEq, Repr

/-- The memory array as a sparse list of (cell index, value), indices strictly rising, no value equal to
what an unlisted cell reads as (R60, 20_memory; assumption log 3, 7). -/
abbrev Memory := List (Nat × Val)

/-- The whole state (R45, 10_state). `cfg` and `prog` are the parameters and the program, which the spec
does not count as state: no step writes them (R29, R41, 10_state; assumption log 1). -/
structure State where
  cfg   : Config
  prog  : List Word
  freg  : List Entry
  ireg  : List Entry
  add   : List ArithSlot
  mul   : List ArithSlot
  load  : List LoadSlot
  store : List StoreSlot
  pc    : Nat
  cycle : Nat
  ts    : List Stamp
  mem   : Memory
  fault : Option FaultRecord
  deriving DecidableEq, Repr

/-- The reasons the model stops where the spec gives no behaviour. Neither is reached from a machine that
passed the load-time check (R63, 20_memory; R31, 10_state). -/
inductive Fault where
  /-- Raised by the write-back of a load or store slot whose address is not below MEMSIZE: no such cell
  exists and none is invented (R63, R67, 20_memory). Safe (assumption log 10). -/
  | addressOutOfRange (a : Nat)
  /-- Raised by the write-back of an ADD or MUL slot whose `op` field holds the code of LD or ST, for
  which `alu` has no row (R31, 10_state; R160, 42_writeback_broadcast). Safe (assumption log 12). -/
  | slotOpcode (t : Tag)
  deriving DecidableEq, Repr

/-- The reasons the model has no meaning for an instruction. -/
inductive Refusal where
  /-- Raised by `exec` for a row of the opcode table not modelled yet; no arm does. Safe. -/
  | notModelled (mnemonic : String)
  /-- Raised by the issue of a record that is no legal instruction of this configuration: the machine that
  holds it is never constructed (R94, R95, R96, 30_encoding). Safe (assumption log 11). -/
  | configError (e : ConfigError)
  deriving DecidableEq, Repr

/-- The value of a free arithmetic slot at reset (R37, 10_state), with the initial value of F0. -/
abbrev ArithSlot.free (v : Val) : ArithSlot :=
  { busy := false, op := .ld, j := .value v, k := .value v, timer := 0, owner := 0 }

/-- The value of a free load slot at reset (R37, 10_state). -/
abbrev LoadSlot.free : LoadSlot := { busy := false, addr := 0, timer := 0, owner := 0 }

/-- The value of a free store slot at reset (R37, 10_state), with the initial value of F0. -/
abbrev StoreSlot.free (v : Val) : StoreSlot :=
  { busy := false, j := .value v, addr := 0, timer := 0, owner := 0 }

/-- The machine right after reset (R45, 10_state; R265, 70_reset_and_hazards) with the default parameters
of R7 (00_scope) and no program loaded. The OPEN `REG_INIT` and `MEM_INIT` are 0, `MAXCYCLES` is `none`,
`PROG` is empty (DESIGN CHOICE, unsafe; assumption log 2 to 5). -/
def State.reset : State where
  cfg := Config.default
  prog := []
  freg := List.replicate 32 (.value 0)
  ireg := List.replicate 32 (.value 0)
  add := List.replicate 3 (.free 0)
  mul := List.replicate 2 (.free 0)
  load := List.replicate 3 .free
  store := List.replicate 3 (.free 0)
  pc := 0
  cycle := 0
  ts := []
  mem := []
  fault := none

end Sys2Proof.Machine
end

