-- ==== Sys2Proof/Machine/Ops.lean ====
section
/-! DEFINITION. The named operations over the state: outcomes in sequence, the memory array, the
register-status table, slots, timestamps, fault entry, and the reset state of any configuration. -/

namespace Sys2Proof.Machine

/-- The second operation on the state the first one answers; a stop of the first is the whole's. -/
def andThen {α β : Type} (o : Host.Outcome α Fault Refusal)
    (f : α → Host.Outcome β Fault Refusal) : Host.Outcome β Fault Refusal :=
  match o with
  | .next a => f a
  | .fault e => .fault e
  | .refused e => .refused e

/-! ### The memory array (R60 to R68, 20_memory) -/

/-- What a cell that the list does not name holds: 0 (DESIGN CHOICE, unsafe: `MEM_INIT` is OPEN, R39,
10_state; assumption log 3). -/
def unlistedCell (_a : Nat) : Val := 0

/-- `MEM[a]` of an array. -/
def Memory.read : Memory → Nat → Val
  | [], a => unlistedCell a
  | (b, v) :: m, a => if b = a then v else Memory.read m a

/-- `MEM[a] <- v` of an array, keeping the canonical form. -/
def Memory.write : Memory → Nat → Val → Memory
  | [], a, v => if v = unlistedCell a then [] else [(a, v)]
  | (b, w) :: m, a, v =>
    if a < b then (if v = unlistedCell a then (b, w) :: m else (a, v) :: (b, w) :: m)
    else if a = b then (if v = unlistedCell a then m else (a, v) :: m)
    else (b, w) :: Memory.write m a v

/-- The canonical form: indices strictly rising, no cell equal to what an unlisted one reads as. -/
def Memory.wf : Memory → Bool
  | [] => true
  | (a, v) :: m => decide (v ≠ unlistedCell a) && m.all (fun c => decide (a < c.1)) && Memory.wf m

/-- Every listed cell is one of `MEM[0..n-1]`. -/
def Memory.inside (n : Nat) (m : Memory) : Bool := m.all (fun c => decide (c.1 < n))

/-- `MemRead(a, 1)`: the one cell `MEM[a]`, defined only where `a < MEMSIZE` (R63, 20_memory). -/
def memRead (s : State) (a : Nat) : Option Val :=
  if a < s.cfg.memSize then some (Memory.read s.mem a) else none

/-- `MemWrite(a, 1, v)`: sets `MEM[a]` and no other cell, defined only where `a < MEMSIZE` (R63,
20_memory). -/
def memWrite (s : State) (a : Nat) (v : Val) : Option State :=
  if a < s.cfg.memSize then some { s with mem := Memory.write s.mem a v } else none

/-! ### The register-status table (R22 to R25, 10_state) -/

/-- `x[q]`; none where the configuration has no such register (R83, 30_encoding). -/
def readReg (s : State) (q : RegName) : Option Entry :=
  match q.file with
  | .f => s.freg[q.idx]?
  | .r => s.ireg[q.idx]?

/-- `x[q] <- e` (R10, 00_scope). -/
def writeReg (s : State) (q : RegName) (e : Entry) : State :=
  match q.file with
  | .f => { s with freg := s.freg.set q.idx e }
  | .r => { s with ireg := s.ireg.set q.idx e }

/-! ### Slots, timestamps, program counter -/

/-- The slots of an arithmetic pool (R30, R31, 10_state); the other pools have other slots. -/
def arithSlots (s : State) (p : Pool) : List ArithSlot :=
  match p with
  | .add => s.add
  | .mul => s.mul
  | .load => []
  | .store => []

/-- Slot `r` of an arithmetic pool takes the fields of `x`. -/
def putArithSlot (s : State) (p : Pool) (r : Nat) (x : ArithSlot) : State :=
  match p with
  | .add => { s with add := s.add.set r x }
  | .mul => { s with mul := s.mul.set r x }
  | .load => s
  | .store => s

/-- Slot `r` of pool LOAD takes the fields of `x`. -/
def putLoadSlot (s : State) (r : Nat) (x : LoadSlot) : State := { s with load := s.load.set r x }

/-- Slot `r` of pool STORE takes the fields of `x`. -/
def putStoreSlot (s : State) (r : Nat) (x : StoreSlot) : State := { s with store := s.store.set r x }

/-- `s.busy <- 0` for the slot of a tag; its other fields keep their values (R37, 10_state; R159,
42_writeback_broadcast). -/
def freeSlot (s : State) (t : Tag) : State :=
  match t.pool with
  | .add => { s with add := s.add.modify t.rank (fun x => { x with busy := false }) }
  | .mul => { s with mul := s.mul.modify t.rank (fun x => { x with busy := false }) }
  | .load => { s with load := s.load.modify t.rank (fun x => { x with busy := false }) }
  | .store => { s with store := s.store.modify t.rank (fun x => { x with busy := false }) }

/-- `TS[k].issue <- cycle` (R116, 40_issue). -/
def stampIssue (s : State) (k : Nat) : State :=
  { s with ts := s.ts.modify k (fun x => { x with issue := s.cycle }) }

/-- `TS[k].exec <- cycle` (R144, 41_countdown). -/
def stampExec (s : State) (k : Nat) : State :=
  { s with ts := s.ts.modify k (fun x => { x with exec := s.cycle }) }

/-- `TS[k].wb <- cycle` (R159, 42_writeback_broadcast). -/
def stampWb (s : State) (k : Nat) : State :=
  { s with ts := s.ts.modify k (fun x => { x with wb := s.cycle }) }

/-- `pc <- pc + 1` (R121, 40_issue). -/
def advancePc (s : State) : State := { s with pc := s.pc + 1 }

/-- `cycle <- cycle + 1` (R186, 43_cycle_driver). -/
def advanceCycle (s : State) : State := { s with cycle := s.cycle + 1 }

/-- All slots in the order ADD, MUL, LOAD, STORE, increasing rank within a pool: `ORDER` (R157,
42_writeback_broadcast). -/
def scanOrder (s : State) : List Tag :=
  (List.range s.add.length).map (fun i => { pool := .add, rank := i }) ++
  (List.range s.mul.length).map (fun i => { pool := .mul, rank := i }) ++
  (List.range s.load.length).map (fun i => { pool := .load, rank := i }) ++
  (List.range s.store.length).map (fun i => { pool := .store, rank := i })

/-! ### Taking a fault, and leaving it (R240, R246, 60_exceptions) -/

/-- `raise`: the fault is latched and the step ends; nothing is saved, no mode changes, no control is
transferred, there is no vector and no handler (R240, 60_exceptions). -/
def raiseFault (s : State) (f : FaultRecord) : State := { s with fault := some f }

/-- The number of a latched fault (R236, 60_exceptions). -/
def faultCode : FaultRecord → Nat
  | .operandKind _ _ => 16
  | .nonTermination _ => 17

/-- The number of a load-time refusal (R236, 60_exceptions). -/
def configErrorCode : ConfigError → Nat
  | .unknownOpcode _ => 1
  | .malformedOperand _ => 2
  | .badLatency _ => 3
  | .programTooLong => 4
  | .badSize => 5

/-- The load-time refusal of record `k` for what the decoder says of its word (R96, 30_encoding). -/
def recordError (k : Nat) : DecodeError → ConfigError
  | .unknownOpcode => .unknownOpcode k
  | .malformedOperand => .malformedOperand k

/-- `REG_INIT(q)` (R25, 10_state). -/
def regInit (cfg : Config) (q : RegName) : Val :=
  match q.file with
  | .f => cfg.regInitF.getD q.idx 0
  | .r => cfg.regInitR.getD q.idx 0

/-- `MEM_INIT` as an array of `MEMSIZE` cells; of two pairs for one cell the later counts (R39, 10_state). -/
def memInitArray (cfg : Config) : Memory :=
  cfg.memInit.foldl (fun m c => if c.1 < cfg.memSize then Memory.write m c.1 c.2 else m) []

/-- The reset state of a configuration and a program: every field at the value of R45 (10_state; R265,
70_reset_and_hazards). -/
def initState (cfg : Config) (prog : List Word) : State where
  cfg := cfg
  prog := prog
  freg := (List.range cfg.nf).map (fun i => .value (regInit cfg { file := .f, idx := i }))
  ireg := (List.range cfg.ni).map (fun i => .value (regInit cfg { file := .r, idx := i }))
  add := List.replicate cfg.nadd (.free (regInit cfg { file := .f, idx := 0 }))
  mul := List.replicate cfg.nmul (.free (regInit cfg { file := .f, idx := 0 }))
  load := List.replicate cfg.nload .free
  store := List.replicate cfg.nstore (.free (regInit cfg { file := .f, idx := 0 }))
  pc := 0
  cycle := 0
  ts := List.replicate prog.length { issue := 0, exec := 0, wb := 0 }
  mem := memInitArray cfg
  fault := none

/-- Reset of a machine in any state, faulted or not: the reset state of its own parameters and program,
which reset does not change (R265, 70_reset_and_hazards). It is the only thing that clears the fault latch
(R246, 60_exceptions). -/
def resetMachine (s : State) : State := initState s.cfg s.prog

/-! ### Hardware encodings of tags and entries (R20, R21, 10_state) -/

/-- The 2-bit code of a pool (R20, 10_state). -/
def poolCode : Pool → BitVec 2
  | .add => 0#2
  | .mul => 1#2
  | .load => 2#2
  | .store => 3#2

/-- The least number of bits, at least 1, that holds `n`. -/
def bitsFor (n : Nat) : Nat := if n = 0 then 1 else Nat.log2 n + 1

/-- `RANKW` (R20, 10_state). -/
def rankWidth (cfg : Config) : Nat :=
  bitsFor (max (max cfg.nadd cfg.nmul) (max cfg.nload cfg.nstore) - 1)

/-- `TAGW = 2 + RANKW` (R20, 10_state). -/
abbrev tagWidth (cfg : Config) : Nat := 2 + rankWidth cfg

/-- A tag as the bus carries it: the pool's code above the rank (R20, 10_state). A rank that `RANKW` bits do
not hold, so of no slot, keeps its low bits (DESIGN CHOICE, safe; assumption log 22). -/
def tagBits (cfg : Config) (t : Tag) : BitVec (tagWidth cfg) :=
  poolCode t.pool ++ BitVec.ofNat (rankWidth cfg) t.rank

/-- An entry as a register holds it: a kind bit, 0 for a value and 1 for a tag, and a payload of
`max(VLEN, TAGW)` bits (R21, 10_state), where the configuration gives `VLEN`. R21 gives no order of the two:
the kind bit stands above the payload (DESIGN CHOICE, unsafe; assumption log 20). It extends a tag with zeros
and says nothing of a value where `VLEN < TAGW`: the value stands in the low bits under zeros (DESIGN CHOICE,
unsafe; assumption log 21). The bits of a value are the numeric domain's, and no other rule reads either (R7,
00_scope; assumption log 14). -/
def entryBits (cfg : Config) (vlen : Nat) (_ : cfg.vlen = some vlen) (valBits : Val → BitVec vlen) (e : Entry) :
    BitVec (1 + max vlen (tagWidth cfg)) :=
  match e with
  | .value v => 0#1 ++ (valBits v).zeroExtend (max vlen (tagWidth cfg))
  | .tag t => 1#1 ++ (tagBits cfg t).zeroExtend (max vlen (tagWidth cfg))

/-! ### Loading one record where the next step looks for it -/

/-- A program with `w` as record `k`, longer where needed. -/
def placeWord (prog : List Word) (k : Nat) (w : Word) : List Word :=
  if k < prog.length then prog.set k w
  else prog ++ List.replicate (k - prog.length) (0#32) ++ [w]

/-- A timestamp table for `n` records, longer where needed. -/
def padStamps (ts : List Stamp) (n : Nat) : List Stamp :=
  ts ++ List.replicate (n - ts.length) { issue := 0, exec := 0, wb := 0 }

/-- The machine with `w` loaded as the record at its `pc`, a timestamp for it, and no fault latched, so that
the next step issues it (assumption log 4). -/
def placeAtPc (s : State) (w : Word) : State :=
  { s with
    prog := placeWord s.prog s.pc w
    ts := padStamps s.ts (s.pc + 1)
    fault := none }

end Sys2Proof.Machine
end

