-- ==== Sys2Proof/Machine/Operands.lean ====
section
/-! DEFINITION. Operand registers: their kind, the ready predicate, the uniform view of a slot, and
match-and-forward with the register-status update of one bus transaction. -/

namespace Sys2Proof.Machine

/-- `isVal(e)` (R10, 00_scope). -/
def Entry.isVal : Entry → Bool
  | .value _ => true
  | .tag _ => false

/-- The tag an entry holds, if it holds one (R21, 10_state). -/
def Entry.tagOf : Entry → Option Tag
  | .value _ => none
  | .tag t => some t

/-- `ready(s)` of an arithmetic slot (R36, 10_state). -/
def ArithSlot.ready (x : ArithSlot) : Bool := x.j.isVal && x.k.isVal

/-- `ready(s)` of a store slot: it waits for its value (R36, 10_state; C2, 90_conflicts). -/
def StoreSlot.ready (x : StoreSlot) : Bool := x.j.isVal

/-- What the countdown phase reads of a slot of any pool (R140, 41_countdown). -/
structure SlotView where
  busy  : Bool
  ready : Bool
  timer : Nat
  owner : Nat
  deriving DecidableEq, Repr

/-- The view of an arithmetic slot. -/
def ArithSlot.view (x : ArithSlot) : SlotView :=
  { busy := x.busy, ready := x.ready, timer := x.timer, owner := x.owner }

/-- The view of a load slot, which is always ready (R36, 10_state). -/
def LoadSlot.view (x : LoadSlot) : SlotView :=
  { busy := x.busy, ready := true, timer := x.timer, owner := x.owner }

/-- The view of a store slot. -/
def StoreSlot.view (x : StoreSlot) : SlotView :=
  { busy := x.busy, ready := x.ready, timer := x.timer, owner := x.owner }

/-- The view of the slot a tag names, none where the pool has no such rank. -/
def slotView (s : State) (t : Tag) : Option SlotView :=
  match t.pool with
  | .add => s.add[t.rank]?.map ArithSlot.view
  | .mul => s.mul[t.rank]?.map ArithSlot.view
  | .load => s.load[t.rank]?.map LoadSlot.view
  | .store => s.store[t.rank]?.map StoreSlot.view

/-- The operand registers of the slot a tag names: `j` and `k`, `j`, or none (R34, 10_state). -/
def slotOperands (s : State) (t : Tag) : List Entry :=
  match t.pool with
  | .add => match s.add[t.rank]? with
    | some x => [x.j, x.k]
    | none => []
  | .mul => match s.mul[t.rank]? with
    | some x => [x.j, x.k]
    | none => []
  | .load => []
  | .store => match s.store[t.rank]? with
    | some x => [x.j]
    | none => []

/-- The busy bits of a pool, rank 0 first (R126, 40_issue). -/
def busyBits (s : State) (p : Pool) : List Bool :=
  match p with
  | .add => s.add.map (·.busy)
  | .mul => s.mul.map (·.busy)
  | .load => s.load.map (·.busy)
  | .store => s.store.map (·.busy)

/-- The comparator of one entry under one transaction `(t, v)`: the whole tag, pool and rank, must match
(R164, R165, R170, 42_writeback_broadcast). -/
def Entry.forward (t : Tag) (v : Val) : Entry → Entry
  | .value w => .value w
  | .tag u => if u = t then .value v else .tag u

/-- Match-and-forward in an arithmetic slot, gated by `busy` (R164, 42_writeback_broadcast). -/
def ArithSlot.forward (t : Tag) (v : Val) (x : ArithSlot) : ArithSlot :=
  if x.busy then { x with j := x.j.forward t v, k := x.k.forward t v } else x

/-- Match-and-forward in a store slot, gated by `busy` (R164, 42_writeback_broadcast). -/
def StoreSlot.forward (t : Tag) (v : Val) (x : StoreSlot) : StoreSlot :=
  if x.busy then { x with j := x.j.forward t v } else x

/-- `broadcast(t, v)` on every slot and every register-status entry (R156, R164, R165,
42_writeback_broadcast). Load slots have no operand register. -/
def broadcast (t : Tag) (v : Val) (s : State) : State :=
  { s with
    add := s.add.map (ArithSlot.forward t v)
    mul := s.mul.map (ArithSlot.forward t v)
    store := s.store.map (StoreSlot.forward t v)
    freg := s.freg.map (Entry.forward t v)
    ireg := s.ireg.map (Entry.forward t v) }

end Sys2Proof.Machine
end

