-- ==== Sys2Proof/Machine/Alloc.lean ====
section
/-! DEFINITION. The issue-stage slot-allocation decoder (R113, R114, R126, R127, 40_issue): class select,
priority encoder, and its outputs. -/

namespace Sys2Proof.Machine

/-- `class(op)`, the pool of an opcode (R8, 00_scope; R113, 40_issue). -/
def classOf : Opcode → Pool
  | .ld => .load
  | .st => .store
  | .addd => .add
  | .subd => .add
  | .multd => .mul
  | .divd => .mul

/-- `LAT[op]` (R7, 00_scope). -/
def latOf (cfg : Config) : Opcode → Nat
  | .ld => cfg.lat.ld
  | .st => cfg.lat.st
  | .addd => cfg.lat.addd
  | .subd => cfg.lat.subd
  | .multd => cfg.lat.multd
  | .divd => cfg.lat.divd

/-- The least rank whose busy bit is 0, rank 0 first; none where every slot is busy or the pool is empty
(R113, R127, 40_issue). -/
def priorityEncoder : List Bool → Option Nat
  | [] => none
  | false :: _ => some 0
  | true :: bs => (priorityEncoder bs).map (· + 1)

/-- `r`, the slot of the pool that the next instruction of that class takes (R113, 40_issue). -/
def leastFree (s : State) (p : Pool) : Option Nat := priorityEncoder (busyBits s p)

/-- The outputs of the slot-allocation decoder (R126, 40_issue). `rank` is 0 where `found` is not set. -/
structure AllocOut where
  pool  : Pool
  found : Bool
  rank  : Nat
  stall : Bool
  deriving DecidableEq, Repr

/-- The decoder as hardware: from `valid`, the opcode and the four busy vectors (R126, 40_issue). -/
def allocDecoder (valid : Bool) (op : Opcode) (busyAdd busyMul busyLoad busyStore : List Bool) : AllocOut :=
  let bits := match classOf op with
    | .add => busyAdd
    | .mul => busyMul
    | .load => busyLoad
    | .store => busyStore
  match priorityEncoder bits with
  | some r => { pool := classOf op, found := true, rank := r, stall := false }
  | none => { pool := classOf op, found := false, rank := 0, stall := valid }

/-- `alloc[P][i]`, the allocate enable of one slot (R126, 40_issue). -/
def allocEnable (valid : Bool) (a : AllocOut) (p : Pool) (i : Nat) : Bool :=
  valid && a.found && decide (a.pool = p) && decide (a.rank = i)

/-- The decoder's outputs for opcode `op` at this state. -/
def allocOut (s : State) (op : Opcode) : AllocOut :=
  allocDecoder true op (busyBits s .add) (busyBits s .mul) (busyBits s .load) (busyBits s .store)

/-- Instruction record `k`, where `k < N` and its word decodes (R10, 00_scope; R87, 30_encoding). -/
def recordAt (s : State) (k : Nat) : Option Instr :=
  match s.prog[k]? with
  | none => none
  | some w => match decode s.cfg w with
    | .ok i => some i
    | .error _ => none

/-- The output `stall`: 1 where `pc < N` and the pool of the record at `pc` has no free slot (R42,
10_state; R114, 40_issue). -/
def stallOut (s : State) : Bool :=
  match recordAt s s.pc with
  | none => false
  | some i => (allocOut s (instrOpcode i)).stall

end Sys2Proof.Machine
end

