-- ==== Sys2Proof/Machine/Boot.lean ====
section
/-! DEFINITION. Construction of a machine by the host: the load-time check (R96, 30_encoding) and what it
gives (R268, R275, 70_reset_and_hazards). -/

namespace Sys2Proof.Machine

/-- The records by increasing index `k`, the first refused one (R96, 30_encoding; R245, 60_exceptions). -/
def checkRecords (cfg : Config) : Nat → List Word → Option ConfigError
  | _, [] => none
  | k, w :: rest =>
    match decode cfg w with
    | .error e => some (recordError k e)
    | .ok _ => checkRecords cfg (k + 1) rest

/-- The opcodes in the order of their codes (R84, 30_encoding). -/
def allOpcodes : List Opcode := [.ld, .st, .addd, .subd, .multd, .divd]

/-- `LAT[op] < 1 or LAT[op] > 2^TIMW - 1` (R96, 30_encoding). -/
def latencyBad (cfg : Config) (op : Opcode) : Bool :=
  decide (latOf cfg op < 1) || decide (2 ^ cfg.timw - 1 < latOf cfg op)

/-- The latencies in opcode-code order, the first bad one (R96, 30_encoding; R245, 60_exceptions). -/
def checkLatencies (cfg : Config) : Option ConfigError :=
  (allOpcodes.find? (latencyBad cfg)).map .badLatency

/-- The size tests (R96, 30_encoding). -/
def sizesBad (cfg : Config) : Bool :=
  decide (cfg.nf < 1) || decide (32 < cfg.nf) || decide (32 < cfg.ni) ||
  decide (cfg.memSize < 1) || decide (2 ^ 23 < cfg.memSize)

/-- `MAXCYCLES = some m and m < 1` (R96, 30_encoding). -/
def budgetBad (cfg : Config) : Bool :=
  match cfg.maxCycles with
  | some m => decide (m < 1)
  | none => false

/-- `PCW` or `VLEN` outside its legal range of 1 or more (R7, 00_scope; assumption log 19). -/
def widthsBad (cfg : Config) : Bool := decide (cfg.pcw < 1) || decide (cfg.vlen = some 0)

/-- The load-time check in the order of R96 (30_encoding), then the legal ranges of R7 (00_scope) that its
list does not test: refused too, with the reason `BadSize` (DESIGN CHOICE, safe; assumption log 19); none
where no test fails. -/
def loadCheck (cfg : Config) (prog : List Word) : Option ConfigError :=
  match checkRecords cfg 0 prog with
  | some e => some e
  | none => match checkLatencies cfg with
    | some e => some e
    | none =>
      if 2 ^ cfg.pcw ≤ prog.length then some .programTooLong
      else if sizesBad cfg then some .badSize
      else if budgetBad cfg then some .badSize
      else if widthsBad cfg then some .badSize
      else none

/-- `load(PROG, config)`: a machine in its reset state, or the refusal, with no machine (R96, 30_encoding;
R237, 60_exceptions; R275, 70_reset_and_hazards). -/
def loadMachine (cfg : Config) (prog : List Word) : Except ConfigError State :=
  match loadCheck cfg prog with
  | some e => .error e
  | none => .ok (initState cfg prog)

end Sys2Proof.Machine
end

