-- ==== Sys2Proof/Machine/Flags.lean ====
section
/-! DEFINITION. The block has no flag, condition code or predicate (R43, 10_state): no instruction reads or
writes one. What stands here is its status outputs (R42, 10_state). -/

namespace Sys2Proof.Machine

/-- `done`: every instruction has a non-zero write-back timestamp (R190, 43_cycle_driver). -/
def done (s : State) : Bool := s.ts.all (fun x => decide (x.wb ≠ 0))

/-- One transaction of the broadcast bus (R166, 42_writeback_broadcast). -/
abbrev Txn := Tag × Val

/-- The outputs of one step (R42, 10_state). They are no state: `stall` and `cdb` are not kept. -/
structure StepOut where
  stall : Bool
  cdb   : List Txn
  done  : Bool
  fault : Option FaultRecord
  deriving DecidableEq, Repr

/-- The outputs where no step ran: after reset (R42, 10_state; R265, 70_reset_and_hazards), and in a frozen
machine, whose edge runs no phase (R188, 43_cycle_driver; DEDUCED, assumption log 13). -/
def idleOut (s : State) : StepOut :=
  { stall := false, cdb := [], done := done s, fault := s.fault }

end Sys2Proof.Machine
end

