-- ==== Sys2Proof/Machine/Countdown.lean ====
section
/-! DEFINITION. The countdown phase (R140 to R147, 41_countdown). -/

namespace Sys2Proof.Machine

/-- `TS[k].issue = c`: instruction `k` was issued in cycle `c`; a slot it owns is fresh (R141,
41_countdown). -/
def issuedIn (ts : List Stamp) (c k : Nat) : Bool :=
  match ts[k]? with
  | some x => decide (x.issue = c)
  | none => false

/-- The slot decrements its timer in this phase: busy, not fresh, ready, and its timer not yet 0 (R143,
R145, 41_countdown). -/
def counts (ts : List Stamp) (c : Nat) (x : SlotView) : Bool :=
  x.busy && !issuedIn ts c x.owner && x.ready && decide (0 < x.timer)

/-- The decrement takes the timer to 0: the slot becomes eligible (R144, 41_countdown). -/
def completes (ts : List Stamp) (c : Nat) (x : SlotView) : Bool :=
  counts ts c x && decide (x.timer = 1)

/-- The countdown of one arithmetic slot. -/
def ArithSlot.countdown (ts : List Stamp) (c : Nat) (x : ArithSlot) : ArithSlot :=
  if counts ts c x.view then { x with timer := x.timer - 1 } else x

/-- The countdown of one load slot. -/
def LoadSlot.countdown (ts : List Stamp) (c : Nat) (x : LoadSlot) : LoadSlot :=
  if counts ts c x.view then { x with timer := x.timer - 1 } else x

/-- The countdown of one store slot. -/
def StoreSlot.countdown (ts : List Stamp) (c : Nat) (x : StoreSlot) : StoreSlot :=
  if counts ts c x.view then { x with timer := x.timer - 1 } else x

/-- The countdown of a slot's view: one less on the timer where the slot counts (R143, R145,
41_countdown). -/
def SlotView.countdown (ts : List Stamp) (c : Nat) (x : SlotView) : SlotView :=
  if counts ts c x then { x with timer := x.timer - 1 } else x

/-- `elig` of the slot a tag names, read off the state before the phase (R144, 41_countdown). -/
def eligibleIn (s : State) (t : Tag) : Bool :=
  match slotView s t with
  | some x => completes s.ts s.cycle x
  | none => false

/-- `E`, the slots the phase makes eligible (R142, 41_countdown). -/
def eligible (s : State) : List Tag := (scanOrder s).filter (eligibleIn s)

/-- `owner` of the slot a tag names. -/
def ownerOf (s : State) (t : Tag) : Option Nat := (slotView s t).map (·.owner)

/-- Every timer counts, in all pools. -/
def decrementTimers (s : State) : State :=
  { s with
    add := s.add.map (ArithSlot.countdown s.ts s.cycle)
    mul := s.mul.map (ArithSlot.countdown s.ts s.cycle)
    load := s.load.map (LoadSlot.countdown s.ts s.cycle)
    store := s.store.map (StoreSlot.countdown s.ts s.cycle) }

/-- `TS[owner].exec <- c` for each of the owners (R144, 41_countdown). -/
def stampExecs (owners : List Nat) (s : State) : State := owners.foldl stampExec s

/-- `countdown_phase(c)`: the state after it and `E`. All slots are visited at once: the order of visiting
does not matter (R142, R146, 41_countdown). -/
def countdownPhase (s : State) : State × List Tag :=
  (stampExecs ((eligible s).filterMap (ownerOf s)) (decrementTimers s), eligible s)

end Sys2Proof.Machine
end

