-- ==== Sys2Proof/Machine/Arithmetic.lean ====
section
/-! DEFINITION. The arithmetic instructions ADDD, SUBD, MULTD, DIVD (R200 to R206, 44_arith_instructions):
the numeric domain, the result of each at write-back, and the issue of each. -/

namespace Sys2Proof.Machine

/-! ### The numeric domain `NUM` (R11, 00_scope; assumption log 6) -/

/-- `add` of the domain (R11, 00_scope). -/
def numAdd (n : Num) (a b : Val) : Val :=
  match n with
  | .q => a + b
  | .other d => Config.otherAdd d a b

/-- `sub` of the domain; every domain gives `sub(6,3) = 3` (R11, 00_scope). -/
def numSub (n : Num) (a b : Val) : Val :=
  match n with
  | .q => a - b
  | .other d => if a = 6 ∧ b = 3 then 3 else Config.otherSub d a b

/-- `mul` of the domain; every domain gives `mul(6,3) = 18` (R11, 00_scope). -/
def numMul (n : Num) (a b : Val) : Val :=
  match n with
  | .q => a * b
  | .other d => if a = 6 ∧ b = 3 then 18 else Config.otherMul d a b

/-- `div` of the domain; every domain gives `div(6,3) = 2` (R11, 00_scope). -/
def numDiv (n : Num) (a b : Val) : Val :=
  match n with
  | .q => a / b
  | .other d => if a = 6 ∧ b = 3 then 2 else Config.otherDiv d a b

/-- `isZero` of the domain. Its zero is zero and 3 is not, since 6 divided by 3 is 2 and division by zero
gives 0 (R11, 00_scope; R203). -/
def numIsZero (n : Num) (b : Val) : Bool :=
  match n with
  | .q => decide (b = 0)
  | .other d => decide (b = 0) || (decide (b ≠ 3) && Config.otherIsZero d b)

/-! ### The results (R160, 42_writeback_broadcast) -/

/-- `add(j, k)` (R200, 44_arith_instructions). -/
def resultAddd (n : Num) (a b : Val) : Val := numAdd n a b

/-- `sub(j, k)`, first source minus second (R201, 44_arith_instructions). -/
def resultSubd (n : Num) (a b : Val) : Val := numSub n a b

/-- `mul(j, k)` (R202, 44_arith_instructions). -/
def resultMultd (n : Num) (a b : Val) : Val := numMul n a b

/-- `div(j, k)`, first source over second, and 0 for every dividend where the divisor is zero (R203,
44_arith_instructions). -/
def resultDivd (n : Num) (a b : Val) : Val := if numIsZero n b then 0 else numDiv n a b

/-- `alu(op, a, b)` (R160, 42_writeback_broadcast); it has no row for LD and ST. -/
def alu (n : Num) (op : Opcode) (a b : Val) : Option Val :=
  match op with
  | .addd => some (resultAddd n a b)
  | .subd => some (resultSubd n a b)
  | .multd => some (resultMultd n a b)
  | .divd => some (resultDivd n a b)
  | .ld => none
  | .st => none

/-! ### Issue (R113 to R117, R121, 40_issue) -/

/-- A slot allocated to an arithmetic instruction: busy, the configured latency, the owner, and copies of
the two source entries (R115, R117, 40_issue). -/
def allocatedArith (s : State) (op : Opcode) (j k : Entry) : ArithSlot :=
  { busy := true, op := op, j := j, k := k, timer := latOf s.cfg op, owner := s.pc }

/-- The issue of an arithmetic instruction. Both sources are read before the destination is renamed (R117,
40_issue). With no free slot nothing changes (R114). A register the configuration lacks is a malformed
operand, which the load-time check refuses (R95, 30_encoding; assumption log 11). -/
def issueArith (op : Opcode) (rd rs1 rs2 : RegName) (s : State) :
    Host.Outcome State Fault Refusal :=
  match readReg s rs1, readReg s rs2, readReg s rd with
  | some j, some k, some _ =>
    match leastFree s (classOf op) with
    | none => .next s
    | some r =>
      .next (advancePc (writeReg
        (stampIssue (putArithSlot s (classOf op) r (allocatedArith s op j k)) s.pc)
        rd (.tag { pool := classOf op, rank := r })))
  | _, _, _ => .refused (.configError (.malformedOperand s.pc))

/-- `ADDD rd,rs1,rs2`: the issue phase of R200 (44_arith_instructions). -/
def execAddd (rd rs1 rs2 : RegName) (s : State) : Host.Outcome State Fault Refusal :=
  issueArith .addd rd rs1 rs2 s

/-- `SUBD rd,rs1,rs2`: the issue phase of R201 (44_arith_instructions). -/
def execSubd (rd rs1 rs2 : RegName) (s : State) : Host.Outcome State Fault Refusal :=
  issueArith .subd rd rs1 rs2 s

/-- `MULTD rd,rs1,rs2`: the issue phase of R202 (44_arith_instructions). -/
def execMultd (rd rs1 rs2 : RegName) (s : State) : Host.Outcome State Fault Refusal :=
  issueArith .multd rd rs1 rs2 s

/-- `DIVD rd,rs1,rs2`: the issue phase of R203 (44_arith_instructions). -/
def execDivd (rd rs1 rs2 : RegName) (s : State) : Host.Outcome State Fault Refusal :=
  issueArith .divd rd rs1 rs2 s

end Sys2Proof.Machine
end

