-- ==== Sys2Proof/Machine/LoadStore.lean ====
section
/-! DEFINITION. The load and store instructions LD, ST (R220 to R222, 45_loadstore_instructions): the issue
of each. Their memory access is made at write-back (R62, 20_memory; Machine/Writeback.lean). -/

namespace Sys2Proof.Machine

/-- The effective address: the literal of the record, unchanged (R222, 45_loadstore_instructions; C4,
90_conflicts); none where it is no cell of the array (R67, 20_memory). -/
def effectiveAddr (s : State) (addr : Nat) : Option Nat :=
  if addr < s.cfg.memSize then some addr else none

/-- A slot allocated to a load (R115, R118, 40_issue). -/
def allocatedLoad (s : State) (a : Nat) : LoadSlot :=
  { busy := true, addr := a, timer := latOf s.cfg .ld, owner := s.pc }

/-- A slot allocated to a store (R115, R119, 40_issue). -/
def allocatedStore (s : State) (j : Entry) (a : Nat) : StoreSlot :=
  { busy := true, j := j, addr := a, timer := latOf s.cfg .st, owner := s.pc }

/-- `LD rd,addr`: the issue phase of R220 (45_loadstore_instructions). No register is read, `rd` is renamed
(R118, 40_issue). With no free slot nothing changes (R114). A malformed operand is refused (R95,
30_encoding; assumption log 11). -/
def execLd (rd : RegName) (addr : Nat) (s : State) : Host.Outcome State Fault Refusal :=
  match readReg s rd, effectiveAddr s addr with
  | some _, some a =>
    match leastFree s (classOf .ld) with
    | none => .next s
    | some r =>
      .next (advancePc (writeReg (stampIssue (putLoadSlot s r (allocatedLoad s a)) s.pc)
        rd (.tag { pool := classOf .ld, rank := r })))
  | _, _ => .refused (.configError (.malformedOperand s.pc))

/-- `ST rs,addr`: the issue phase of R221 (45_loadstore_instructions). The source's entry is copied, no
register is renamed (R119, R120, 40_issue). With no free slot nothing changes (R114). A malformed operand
is refused (R95, 30_encoding; assumption log 11). -/
def execSt (rs : RegName) (addr : Nat) (s : State) : Host.Outcome State Fault Refusal :=
  match readReg s rs, effectiveAddr s addr with
  | some j, some a =>
    match leastFree s (classOf .st) with
    | none => .next s
    | some r => .next (advancePc (stampIssue (putStoreSlot s r (allocatedStore s j a)) s.pc))
  | _, _ => .refused (.configError (.malformedOperand s.pc))

end Sys2Proof.Machine
end

