-- ==== Sys2Proof/Machine/Dispatch.lean ====
section
/-! DEFINITION. The meaning of each instruction, one arm per constructor: its action in the issue phase of
the cycle in which it stands at `pc` (R111, 40_issue). The countdown and the write-back of its slot are
made by the later phases (Machine/Countdown.lean, Machine/Writeback.lean; assumption log 16). -/

namespace Sys2Proof.Machine

def exec (i : Instr) (s : State) : Host.Outcome State Fault Refusal :=
  match i with
  | .ld rd addr => Sys2Proof.Machine.execLd rd addr s
  | .st rs addr => Sys2Proof.Machine.execSt rs addr s
  | .addd rd rs1 rs2 => Sys2Proof.Machine.execAddd rd rs1 rs2 s
  | .subd rd rs1 rs2 => Sys2Proof.Machine.execSubd rd rs1 rs2 s
  | .multd rd rs1 rs2 => Sys2Proof.Machine.execMultd rd rs1 rs2 s
  | .divd rd rs1 rs2 => Sys2Proof.Machine.execDivd rd rs1 rs2 s

end Sys2Proof.Machine
end

