-- ==== Sys2Proof/Machine/Writeback.lean ====
section
/-! DEFINITION. The write-back phase and the tag-broadcast multiplexer (R155 to R167,
42_writeback_broadcast). -/

namespace Sys2Proof.Machine

/-- Free the slot and stamp its owner's write-back (R159, 42_writeback_broadcast). -/
def retire (t : Tag) (owner : Nat) (s : State) : State := stampWb (freeSlot s t) owner

/-- The write-back of an ADD or MUL slot: operand-kind check, free and stamp, result, broadcast (R156, R158
to R160, 42_writeback_broadcast). -/
def writebackArith (t : Tag) (x : ArithSlot) (s : State) :
    Host.Outcome (State × List Txn) Fault Refusal :=
  match x.j, x.k with
  | .value a, .value b =>
    match alu s.cfg.num x.op a b with
    | some v => .next (broadcast t v (retire t x.owner s), [(t, v)])
    | none => .fault (.slotOpcode t)
  | _, _ => .next (raiseFault s (.operandKind t x.owner), [])

/-- The write-back of a load slot: free and stamp, read the cell, broadcast (R161, 42_writeback_broadcast;
R220, 45_loadstore_instructions). -/
def writebackLoad (t : Tag) (x : LoadSlot) (s : State) :
    Host.Outcome (State × List Txn) Fault Refusal :=
  match memRead (retire t x.owner s) x.addr with
  | some v => .next (broadcast t v (retire t x.owner s), [(t, v)])
  | none => .fault (.addressOutOfRange x.addr)

/-- The write-back of a store slot: operand-kind check, free and stamp, write the cell, no broadcast (R158,
R162, R163, 42_writeback_broadcast; R221, 45_loadstore_instructions). -/
def writebackStore (t : Tag) (x : StoreSlot) (s : State) :
    Host.Outcome (State × List Txn) Fault Refusal :=
  match x.j with
  | .value v =>
    match memWrite (retire t x.owner s) x.addr v with
    | some s' => .next (s', [])
    | none => .fault (.addressOutOfRange x.addr)
  | .tag _ => .next (raiseFault s (.operandKind t x.owner), [])

/-- The write-back of the slot a tag names; a tag that names no slot is not in `ORDER` (R156,
42_writeback_broadcast). -/
def writebackSlot (t : Tag) (s : State) : Host.Outcome (State × List Txn) Fault Refusal :=
  match t.pool with
  | .add => match s.add[t.rank]? with
    | some x => writebackArith t x s
    | none => .next (s, [])
  | .mul => match s.mul[t.rank]? with
    | some x => writebackArith t x s
    | none => .next (s, [])
  | .load => match s.load[t.rank]? with
    | some x => writebackLoad t x s
    | none => .next (s, [])
  | .store => match s.store[t.rank]? with
    | some x => writebackStore t x s
    | none => .next (s, [])

/-- The slots of a list one by one, each one's write-back completed before the next begins; a latched fault
ends the step, so the slots after it are not processed (R157, R158, 42_writeback_broadcast; R240,
60_exceptions). The second component is `cdb` (R166). -/
def writebackList : List Tag → State → Host.Outcome (State × List Txn) Fault Refusal
  | [], s => .next (s, [])
  | t :: rest, s =>
    andThen (writebackSlot t s) fun p =>
      if p.1.fault.isSome then .next p
      else andThen (writebackList rest p.1) fun q => .next (q.1, p.2 ++ q.2)

/-- `writeback_phase(c, E)`: `for s in ORDER, if s in E` (R156, R157, 42_writeback_broadcast). -/
def writebackPhase (e : List Tag) (s : State) : Host.Outcome (State × List Txn) Fault Refusal :=
  writebackList ((scanOrder s).filter (fun t => decide (t ∈ e))) s

end Sys2Proof.Machine
end

