-- ==== Sys2Proof/Machine/Cycle.lean ====
section
/-! DEFINITION. The parts of the cycle driver (R185 to R190, 43_cycle_driver): the issue phase, the phases
after it, the budget test, one whole cycle with its outputs, and the clock edge. -/

namespace Sys2Proof.Machine

/-- `issue_phase(c)`: at the end of the program nothing (R112, 40_issue), else the record at `pc` acts. A
word that decodes to no record is refused: the load-time check would not have constructed the machine
(R94, R96, 30_encoding; assumption log 11). -/
def issuePhase (s : State) : Host.Outcome State Fault Refusal :=
  match s.prog[s.pc]? with
  | none => .next s
  | some w =>
    match decode s.cfg w with
    | .ok i => exec i s
    | .error e => .refused (.configError (recordError s.pc e))

/-- The cycle budget, at the end of a step with no fault: `NonTermination` where `c >= m` and the machine is
not done (R185, R189, 43_cycle_driver). -/
def budgetCheck (s : State) : State :=
  match s.cfg.maxCycles with
  | none => s
  | some m =>
    if s.fault = none ∧ m ≤ s.cycle ∧ done s = false then raiseFault s (.nonTermination s.cycle) else s

/-- The phases after the issue phase: countdown, write-back, budget; with the step's `cdb` (R185,
43_cycle_driver). -/
def afterIssue (s : State) : Host.Outcome (State × List Txn) Fault Refusal :=
  andThen (writebackPhase (countdownPhase s).2 (countdownPhase s).1) fun p =>
    .next (budgetCheck p.1, p.2)

/-- One clock cycle: the next state and the step's outputs (R185 to R189, 43_cycle_driver; R42, 10_state). A
machine with a latched fault is frozen (R188). -/
def runCycle (s : State) : Host.Outcome (State × StepOut) Fault Refusal :=
  if s.fault.isSome then .next (s, idleOut s)
  else
    andThen (issuePhase (advanceCycle s)) fun s1 =>
    andThen (afterIssue s1) fun p =>
      .next (p.1, { stall := stallOut s, cdb := p.2, done := done p.1, fault := p.1.fault })

/-- The next state of a cycle, without its outputs. -/
def dropOutputs (o : Host.Outcome (State × StepOut) Fault Refusal) :
    Host.Outcome State Fault Refusal :=
  andThen o fun p => .next p.1

/-- A rising edge of `clk`: with `rst = 1` the reset state and no step, with `rst = 0` one step (R266,
70_reset_and_hazards). -/
def clockEdge (rst : Bool) (s : State) : Host.Outcome (State × StepOut) Fault Refusal :=
  if rst then .next (resetMachine s, idleOut (resetMachine s)) else runCycle s

end Sys2Proof.Machine
end

