-- ==== Sys2Proof/Machine/Step.lean ====
section
/-! DEFINITION. One step of the machine: one clock edge with `rst = 0` (R185, 43_cycle_driver; R266,
70_reset_and_hazards). -/

namespace Sys2Proof.Machine

/-- One clock cycle (R185, 43_cycle_driver). -/
def step (s : State) : Host.Outcome State Fault Refusal := dropOutputs (runCycle s)

/-- The state with the record of bits `w` as the record at `pc` (assumption log 4). -/
def State.withFetchWord (s : State) (nbits w : Nat) : State := placeAtPc s (tableWord nbits w)

end Sys2Proof.Machine
end

