-- ==== Sys2Proof/Machine/Driver.lean ====
section
/-! DEFINITION. The driver of a run (R190, 43_cycle_driver): `while not done and fault = none: step()`. -/

namespace Sys2Proof.Machine

/-- The driver makes no further step: the machine is done, or a fault is latched (R190, 43_cycle_driver). -/
def driverStops (s : State) : Bool := done s || s.fault.isSome

/-- The driver's loop for at most `n` cycles. The loop of R190 (43_cycle_driver) has no bound of its own and
need not end (R194); it has ended in the answered state where `driverStops` holds of it. -/
def drive : Nat → State → Host.Outcome State Fault Refusal
  | 0, s => .next s
  | n + 1, s => if driverStops s then .next s else andThen (step s) (drive n)

/-- The driver, started in `s`, ends in `t` (R190, 43_cycle_driver). -/
def DriverEndsIn (s t : State) : Prop := ∃ n, drive n s = .next t ∧ driverStops t = true

end Sys2Proof.Machine
end

