-- ==== Sys2Proof/Safety.lean ====
section
/-! DEFINITION. The terms in which claims about the machine are made: what a rank, a register and a record
of a state are, the invariants of R38 (10_state) with what makes them inductive, and runs. -/

namespace Sys2Proof.Machine

/-- The names of the registers the state has, file F first. -/
def regNames (s : State) : List RegName :=
  (List.range s.freg.length).map (fun i => { file := .f, idx := i }) ++
  (List.range s.ireg.length).map (fun i => { file := .r, idx := i })

/-- Every list has the size the parameters give it (R7, 00_scope; R22, R23, R28, R30, 10_state). -/
structure State.Shape (s : State) : Prop where
  add   : s.add.length = s.cfg.nadd
  mul   : s.mul.length = s.cfg.nmul
  load  : s.load.length = s.cfg.nload
  store : s.store.length = s.cfg.nstore
  freg  : s.freg.length = s.cfg.nf
  ireg  : s.ireg.length = s.cfg.ni
  ts    : s.ts.length = s.prog.length

/-- Rank `r` is the least free one of pool `p` (R113, 40_issue). -/
abbrev IsLeastFree (s : State) (p : Pool) (r : Nat) : Prop :=
  (busyBits s p)[r]? = some false ∧ ∀ i, i < r → (busyBits s p)[i]? = some true

/-- No slot of pool `p` is free (R114, 40_issue); so it is for a pool of size 0. -/
abbrev PoolFull (s : State) (p : Pool) : Prop := ∀ b ∈ busyBits s p, b = true

/-- Every operand of the record exists in this state: its registers, and the cell of its literal address
(R95, 30_encoding). -/
abbrev OperandsPresent (s : State) : Instr → Prop
  | .ld rd addr => (readReg s rd).isSome = true ∧ addr < s.cfg.memSize
  | .st rs addr => (readReg s rs).isSome = true ∧ addr < s.cfg.memSize
  | .addd rd rs1 rs2 =>
    (readReg s rd).isSome = true ∧ (readReg s rs1).isSome = true ∧ (readReg s rs2).isSome = true
  | .subd rd rs1 rs2 =>
    (readReg s rd).isSome = true ∧ (readReg s rs1).isSome = true ∧ (readReg s rs2).isSome = true
  | .multd rd rs1 rs2 =>
    (readReg s rd).isSome = true ∧ (readReg s rs1).isSome = true ∧ (readReg s rs2).isSome = true
  | .divd rd rs1 rs2 =>
    (readReg s rd).isSome = true ∧ (readReg s rs1).isSome = true ∧ (readReg s rs2).isSome = true

/-- The slot a tag names is busy. -/
abbrev IsBusy (s : State) (t : Tag) : Prop := ∃ x ∈ slotView s t, x.busy = true

/-- The slot of tag `t` holds what the issue of record `i` puts there: the pool of its class, its opcode or
its literal address (R31 to R33, 10_state; R115, R117 to R119, 40_issue). -/
def slotHolds (s : State) (t : Tag) (i : Instr) : Bool :=
  decide (classOf (instrOpcode i) = t.pool) &&
  match i with
  | .ld _ addr => decide (s.load[t.rank]?.map (·.addr) = some addr)
  | .st _ addr => decide (s.store[t.rank]?.map (·.addr) = some addr)
  | .addd _ _ _ => decide (s.add[t.rank]?.map (·.op) = some .addd)
  | .subd _ _ _ => decide (s.add[t.rank]?.map (·.op) = some .subd)
  | .multd _ _ _ => decide (s.mul[t.rank]?.map (·.op) = some .multd)
  | .divd _ _ _ => decide (s.mul[t.rank]?.map (·.op) = some .divd)

/-- The invariants of a machine that passed the load-time check, true after reset and kept by every step:
the six of R38 (10_state), and what else the rules give (R22 to R28, 10_state; R96, 30_encoding; R192,
43_cycle_driver). -/
structure State.Inv (s : State) : Prop where
  /-- Every list has its size. -/
  shape : s.Shape
  /-- The parameters passed the load-time check (R96, 30_encoding). -/
  config : s.cfg.WellFormed
  /-- So did every record (R96, 30_encoding). -/
  records : ∀ k, k < s.prog.length → (recordAt s k).isSome = true
  /-- `N < 2^PCW` (R96, 30_encoding). -/
  programFits : s.prog.length < 2 ^ s.cfg.pcw
  /-- `pc` is in `0..N` (R26, 10_state). -/
  pcRange : s.pc ≤ s.prog.length
  /-- The memory list is in its canonical form. -/
  memoryWf : Memory.wf s.mem = true
  /-- It names only cells of the array (R60, 20_memory). -/
  memoryInside : Memory.inside s.cfg.memSize s.mem = true
  /-- A record not yet issued has its three timestamps unset (R28, 10_state). -/
  unissued : ∀ k, k < s.ts.length → s.pc ≤ k → s.ts[k]? = some { issue := 0, exec := 0, wb := 0 }
  /-- An issued record has an issue timestamp of at least 1 (R186, 43_cycle_driver). -/
  issued : ∀ k, k < s.pc → ∃ y ∈ s.ts[k]?, 1 ≤ y.issue ∧ y.issue ≤ s.cycle
  /-- Records issue one at a time, in order (R110, 40_issue). -/
  issueOrder : ∀ l, l < s.pc → ∀ k, k < l → ∃ x ∈ s.ts[k]?, ∃ y ∈ s.ts[l]?, x.issue < y.issue
  /-- R38 item 1: a busy slot's owner has issued and has not written back. -/
  busyOwner : ∀ t ∈ scanOrder s, ∀ x ∈ slotView s t, x.busy = true →
    x.owner < s.pc ∧ ∃ y ∈ s.ts[x.owner]?, y.exec = 0 ∧ y.wb = 0
  /-- R38 item 2: two busy slots have different owners. -/
  ownersDiffer : ∀ t ∈ scanOrder s, ∀ u ∈ scanOrder s, ∀ x ∈ slotView s t, ∀ y ∈ slotView s u,
    x.busy = true → y.busy = true → x.owner = y.owner → t = u
  /-- R38 items 3 and 5, registers: a tag in a register names a busy slot that is no store slot, whose
  owner's destination is that register, and no later issued record has renamed it. -/
  registerTags : ∀ q ∈ regNames s, ∀ e ∈ readReg s q, ∀ t ∈ e.tagOf, t.pool ≠ .store ∧
    ∃ x ∈ slotView s t, x.busy = true ∧
      (∃ i ∈ recordAt s x.owner, instrDest i = some q) ∧
      ∀ l, l < s.pc → x.owner < l → ∃ i ∈ recordAt s l, instrDest i ≠ some q
  /-- R38 item 3, operand registers: a tag in a busy slot names a busy slot that is no store slot, of an
  earlier owner. -/
  operandTags : ∀ t ∈ scanOrder s, ∀ x ∈ slotView s t, x.busy = true →
    ∀ e ∈ slotOperands s t, ∀ u ∈ e.tagOf, u.pool ≠ .store ∧
      ∃ y ∈ slotView s u, y.busy = true ∧ y.owner < x.owner
  /-- R38 item 4: a free slot holds no tag. -/
  freeSlots : ∀ t ∈ scanOrder s, ∀ x ∈ slotView s t, x.busy = false →
    ∀ e ∈ slotOperands s t, e.isVal = true
  /-- R38 item 6: a busy slot's timer is between 1 and its instruction's latency; the slot holds that
  instruction. -/
  busyTimer : ∀ t ∈ scanOrder s, ∀ x ∈ slotView s t, x.busy = true →
    1 ≤ x.timer ∧ ∃ i ∈ recordAt s x.owner, x.timer ≤ latOf s.cfg (instrOpcode i) ∧
      slotHolds s t i = true
  /-- A busy slot has not counted faster than the clock (R148, 41_countdown). -/
  busyElapsed : ∀ t ∈ scanOrder s, ∀ x ∈ slotView s t, x.busy = true →
    ∃ i ∈ recordAt s x.owner, ∃ y ∈ s.ts[x.owner]?,
      y.issue + latOf s.cfg (instrOpcode i) ≤ s.cycle + x.timer
  /-- R192: an instruction that has written back did so when it completed, no sooner than its latency
  after its issue. -/
  retired : ∀ k, k < s.ts.length → ∀ y ∈ s.ts[k]?, y.wb ≠ 0 → y.exec = y.wb ∧ y.wb ≤ s.cycle ∧
    ∃ i ∈ recordAt s k, y.issue + latOf s.cfg (instrOpcode i) ≤ y.exec
  /-- An issued instruction that has not written back occupies a slot (R35, 10_state). -/
  inFlight : ∀ k, k < s.pc → ∀ y ∈ s.ts[k]?, y.wb = 0 →
    ∃ t ∈ scanOrder s, ∃ x ∈ slotView s t, x.busy = true ∧ x.owner = k
  /-- No operand-kind violation is latched (R238, 60_exceptions). -/
  noBreach : ∀ f ∈ s.fault, faultCode f ≠ 16

/-- No slot of any pool is busy. -/
abbrev AllSlotsFree (s : State) : Prop := ∀ t ∈ scanOrder s, ¬ IsBusy s t

/-- The slot of tag `u` is busy and ready with one cycle left on its timer: unless it was issued in this
very cycle, the countdown phase completes it (R143, R144, 41_countdown). -/
def completesNext (s : State) (u : Tag) : Bool :=
  match slotView s u with
  | some x => x.busy && x.ready && decide (x.timer = 1)
  | none => false

/-- The record at `pc`, if any, does not rename register `q` when it issues (R117 to R120, 40_issue). -/
abbrev NotRenamedNext (s : State) (q : RegName) : Prop :=
  ∀ i ∈ recordAt s s.pc, (leastFree s (classOf (instrOpcode i))).isSome = true → instrDest i ≠ some q

/-- The machine after `n` clock edges with `rst = 0` (R185, 43_cycle_driver), or its stop. -/
def runSteps (n : Nat) (s : State) : Host.Outcome State Fault Refusal := core.run n s

/-- The sum of the latencies of all records of the program (R193, 43_cycle_driver). -/
def latencySum (s : State) : Nat :=
  ((List.range s.prog.length).map fun k =>
    match recordAt s k with
    | some i => latOf s.cfg (instrOpcode i)
    | none => 0).sum

/-- The number of slots of a pool. -/
def poolSize (s : State) (p : Pool) : Nat := (busyBits s p).length

end Sys2Proof.Machine
end

