-- ==== Sys2Proof/Certificates/Slice0/Obligations.lean ====
section
/-! DEFINITION. What is claimed of the machine, for the provers: one `def Obligations.<Name> : Prop` each,
from the numbered rules of spec/. Nothing is proved here. -/

open Sys2Proof Sys2Proof.Machine

/-! ### Terms of the statements -/

/-- `w[hi:lo]` as an unsigned number (R10, 00_scope). -/
def Sys2Proof.Claims.bits (w : Word) (hi lo : Nat) : Nat := w.toNat / 2 ^ lo % 2 ^ (hi - lo + 1)

/-- `reg(f)` of R87 (30_encoding) on numbers: bit 5 the file, bits 4:0 the index. -/
def Sys2Proof.Claims.reg (f : Nat) : RegName :=
  { file := if f / 32 = 0 then .f else .r, idx := f % 32 }

/-- The decoder of R87 (30_encoding), line by line, on numbers. -/
def Sys2Proof.Claims.specDecode (cfg : Config) (w : Word) : Except DecodeError Instr :=
  let op := Claims.bits w 31 29
  let rd := Claims.reg (Claims.bits w 28 23)
  let rs1 := Claims.reg (Claims.bits w 22 17)
  let rs2 := Claims.reg (Claims.bits w 16 11)
  let a := Claims.bits w 22 0
  if op = 6 ∨ op = 7 then .error .unknownOpcode
  else if op = 0 ∨ op = 1 then
    if ¬ rd.WellFormed cfg then .error .malformedOperand
    else if cfg.memSize ≤ a then .error .malformedOperand
    else .ok (if op = 0 then .ld rd a else .st rd a)
  else if Claims.bits w 10 0 ≠ 0 then .error .malformedOperand
  else if ¬ (rd.WellFormed cfg ∧ rs1.WellFormed cfg ∧ rs2.WellFormed cfg) then .error .malformedOperand
  else .ok (if op = 2 then .addd rd rs1 rs2 else if op = 3 then .subd rd rs1 rs2
    else if op = 4 then .multd rd rs1 rs2 else .divd rd rs1 rs2)

/-- What every issue that finds a slot does beside filling it: the owner's issue stamp (R116), `pc + 1`
(R121), and nothing else outside the slot and the renamed register (R111, 40_issue). -/
structure Sys2Proof.Claims.Issued (s t : State) : Prop where
  pc    : t.pc = s.pc + 1
  stamp : ∀ k, t.ts[k]? = if k = s.pc then s.ts[k]?.map (fun y => { y with issue := s.cycle }) else s.ts[k]?
  cfg   : t.cfg = s.cfg
  prog  : t.prog = s.prog
  cycle : t.cycle = s.cycle
  mem   : t.mem = s.mem
  fault : t.fault = s.fault

/-- Register `rd` is renamed to the slot `u`, every other register is as before (R117, R118, 40_issue). -/
structure Sys2Proof.Claims.Renamed (s t : State) (rd : RegName) (u : Tag) : Prop where
  dest   : readReg t rd = some (.tag u)
  others : ∀ q, q ≠ rd → readReg t q = readReg s q

/-- What the issue of an instruction of class ADD does (R115 to R117, 40_issue). -/
structure Sys2Proof.Claims.IssuedAdd (s t : State) (op : Opcode) (lat r : Nat) (rd : RegName)
    (j k : Entry) : Prop where
  issued  : Claims.Issued s t
  slot    : t.add = s.add.set r { busy := true, op := op, j := j, k := k, timer := lat, owner := s.pc }
  mul     : t.mul = s.mul
  load    : t.load = s.load
  store   : t.store = s.store
  renamed : Claims.Renamed s t rd { pool := .add, rank := r }

/-- What the issue of an instruction of class MUL does (R115 to R117, 40_issue). -/
structure Sys2Proof.Claims.IssuedMul (s t : State) (op : Opcode) (lat r : Nat) (rd : RegName)
    (j k : Entry) : Prop where
  issued  : Claims.Issued s t
  slot    : t.mul = s.mul.set r { busy := true, op := op, j := j, k := k, timer := lat, owner := s.pc }
  add     : t.add = s.add
  load    : t.load = s.load
  store   : t.store = s.store
  renamed : Claims.Renamed s t rd { pool := .mul, rank := r }

/-- Between `s` and the end `t` of the next step the slot of owner `k` has completed and written back: both
stamps are that cycle (R144, 41_countdown; R159, 42_writeback_broadcast). -/
abbrev Sys2Proof.Claims.WrittenBack (s t : State) (k : Nat) : Prop :=
  t.ts[k]? = s.ts[k]?.map (fun y => { y with exec := s.cycle + 1, wb := s.cycle + 1 })

/-- Between `s` and the end `t` of the next step the value `v` of tag `u` has reached every holder: registers
that this cycle's issue did not rename, and the operand registers of slots that were busy (R164, R165,
42_writeback_broadcast). -/
structure Sys2Proof.Claims.Delivered (s t : State) (u : Tag) (v : Val) : Prop where
  registers : ∀ q, readReg s q = some (.tag u) → NotRenamedNext s q → readReg t q = some (.value v)
  add : ∀ (r : Nat) (x : ArithSlot), s.add[r]? = some x → x.busy = true → ∃ y, t.add[r]? = some y ∧
    (x.j = .tag u → y.j = .value v) ∧ (x.k = .tag u → y.k = .value v)
  mul : ∀ (r : Nat) (x : ArithSlot), s.mul[r]? = some x → x.busy = true → ∃ y, t.mul[r]? = some y ∧
    (x.j = .tag u → y.j = .value v) ∧ (x.k = .tag u → y.k = .value v)
  store : ∀ (r : Nat) (x : StoreSlot), s.store[r]? = some x → x.busy = true → ∃ y, t.store[r]? = some y ∧
    (x.j = .tag u → y.j = .value v)

/-- The registers a record reads at issue, in the order of the operand registers that capture them (R117,
R118, R119, 40_issue). -/
def Sys2Proof.Claims.sources : Instr → List RegName
  | .ld _ _ => []
  | .st rs _ => [rs]
  | .addd _ rs1 rs2 => [rs1, rs2]
  | .subd _ rs1 rs2 => [rs1, rs2]
  | .multd _ rs1 rs2 => [rs1, rs2]
  | .divd _ rs1 rs2 => [rs1, rs2]

/-- The next step's issue takes the slot of tag `u` (R113, 40_issue). -/
abbrev Sys2Proof.Claims.AllocatedNext (s : State) (u : Tag) : Prop :=
  ∃ i ∈ recordAt s s.pc, classOf (instrOpcode i) = u.pool ∧ leastFree s u.pool = some u.rank

/-- The entry holds a value, or the tag of a slot that does not complete in the next step. -/
abbrev Sys2Proof.Claims.NotResolvedNext (s : State) (e : Entry) : Prop :=
  ∀ u, e = .tag u → completesNext s u = false

/-- A slot's timer after a step that neither allocates nor completes it (R143, 41_countdown). -/
def Sys2Proof.Claims.timerNext (x : SlotView) : Nat :=
  if x.busy = true ∧ x.ready = true then x.timer - 1 else x.timer

/-! ### Encoding and load time -/

/-- R87 (30_encoding): `decode(encode(rec)) = rec` for every legal record of all six instructions. -/
def Obligations.DecodeInvertsEncode : Prop :=
  ∀ (cfg : Config) (i : Instr), cfg.SizesWellFormed → i.WellFormed cfg → decode cfg (encode i) = .ok i

/-- R87 (30_encoding): `encode(decode(w)) = w` for every word that decodes: no bit of it is dropped. -/
def Obligations.EncodeInvertsDecode : Prop :=
  ∀ (cfg : Config) (w : Word) (i : Instr), decode cfg w = .ok i → encode i = w

/-- R82, R83, R85 (30_encoding): the decoder reads each field at the bits the two formats give it, a
register specifier as file and index, the address as an unsigned literal, and refuses what is not legal. -/
def Obligations.DecoderReadsTheFields : Prop :=
  ∀ (cfg : Config) (w : Word), decode cfg w = Claims.specDecode cfg w

/-- R86 (30_encoding): a word is instruction `X` when `w & mask(X) = match(X)`; the six patterns are
disjoint. -/
def Obligations.TablePatternsSelectOpcode : Prop :=
  (∀ (cfg : Config) (w : Word) (i : Instr), decode cfg w = .ok i →
    w &&& instrMask (instrOpcode i) = instrMatch (instrOpcode i)) ∧
  (∀ (cfg : Config) (w : Word) (op : Opcode), w &&& instrMask op = instrMatch op →
    (∃ i, decode cfg w = .ok i ∧ instrOpcode i = op) ∨ decode cfg w = .error .malformedOperand) ∧
  ∀ (w : Word) (op op' : Opcode), w &&& instrMask op = instrMatch op →
    w &&& instrMask op' = instrMatch op' → op = op'

/-- R94 (30_encoding): an opcode field of 6 or 7 is an unknown opcode, and no program that holds one is
ever loaded. -/
def Obligations.UnknownOpcodeNeverLoads : Prop :=
  ∀ (cfg : Config) (w : Word),
    (decode cfg w = .error .unknownOpcode ↔ (Claims.bits w 31 29 = 6 ∨ Claims.bits w 31 29 = 7)) ∧
    ∀ prog : List Word, w ∈ prog → (Claims.bits w 31 29 = 6 ∨ Claims.bits w 31 29 = 7) →
      ∃ e, loadMachine cfg prog = .error e

/-- R102 (30_encoding): the encoding examples, both ways, and the two refused words. -/
def Obligations.WorkedEncodings : Prop :=
  (encode (.ld { file := .f, idx := 6 } 34) = 0x03000022#32 ∧
    decode Config.default 0x03000022#32 = .ok (.ld { file := .f, idx := 6 } 34)) ∧
  (encode (.multd { file := .f, idx := 0 } { file := .f, idx := 2 } { file := .f, idx := 4 }) =
      0x80042000#32 ∧
    decode Config.default 0x80042000#32 =
      .ok (.multd { file := .f, idx := 0 } { file := .f, idx := 2 } { file := .f, idx := 4 })) ∧
  (encode (.st { file := .f, idx := 2 } 7) = 0x21000007#32 ∧
    decode Config.default 0x21000007#32 = .ok (.st { file := .f, idx := 2 } 7)) ∧
  (encode (.addd { file := .r, idx := 1 } { file := .f, idx := 2 } { file := .r, idx := 3 }) =
      0x50851800#32 ∧
    decode Config.default 0x50851800#32 =
      .ok (.addd { file := .r, idx := 1 } { file := .f, idx := 2 } { file := .r, idx := 3 })) ∧
  decode Config.default 0xC0000000#32 = .error .unknownOpcode ∧
  decode Config.default 0x40000001#32 = .error .malformedOperand

/-- R96 (30_encoding): the tests of the load-time check in their order, each with the refusal it gives, and
the machine in its reset state where none fails and the widths that the list does not test are legal. -/
def Obligations.LoadCheckOrder : Prop :=
  ∀ (cfg : Config) (prog : List Word),
    (∀ (k : Nat) (w : Word) (e : DecodeError), prog[k]? = some w → decode cfg w = .error e →
      (∀ (l : Nat) (v : Word), l < k → prog[l]? = some v → ∃ i, decode cfg v = .ok i) →
      loadMachine cfg prog = .error (recordError k e)) ∧
    ((∀ w ∈ prog, ∃ i, decode cfg w = .ok i) →
      (∀ (n : Nat) (op : Opcode), allOpcodes[n]? = some op → ¬ LatencyWellFormed cfg.timw (latOf cfg op) →
        (∀ (m : Nat) (op' : Opcode), m < n → allOpcodes[m]? = some op' → LatencyWellFormed cfg.timw (latOf cfg op')) →
        loadMachine cfg prog = .error (.badLatency op)) ∧
      (cfg.LatenciesWellFormed →
        (2 ^ cfg.pcw ≤ prog.length → loadMachine cfg prog = .error .programTooLong) ∧
        (prog.length < 2 ^ cfg.pcw →
          (¬ (cfg.SizesWellFormed ∧ cfg.BudgetWellFormed) → loadMachine cfg prog = .error .badSize) ∧
          (cfg.SizesWellFormed ∧ cfg.BudgetWellFormed ∧ cfg.WidthsWellFormed →
            loadMachine cfg prog = .ok (initState cfg prog)))))

/-- R7 (00_scope): the parameters of every machine that `load` constructs are in their legal ranges, and a
`PCW` or `VLEN` of 0 is refused. That its reason is `BadSize`, tested after the list of R96 (30_encoding), is
the model's choice (assumption log 19). -/
def Obligations.LoadedParametersAreInRange : Prop :=
  ∀ (cfg : Config) (prog : List Word),
    (∀ s, loadMachine cfg prog = .ok s →
      (∀ op, 1 ≤ latOf s.cfg op ∧ latOf s.cfg op ≤ 2 ^ s.cfg.timw - 1) ∧ 1 ≤ s.cfg.timw ∧
      1 ≤ s.cfg.nf ∧ s.cfg.nf ≤ 32 ∧ s.cfg.ni ≤ 32 ∧ 1 ≤ s.cfg.memSize ∧ s.cfg.memSize ≤ 2 ^ 23 ∧
      1 ≤ s.cfg.pcw ∧ s.prog.length < 2 ^ s.cfg.pcw ∧ (∀ m, s.cfg.maxCycles = some m → 1 ≤ m) ∧
      ∀ n, s.cfg.vlen = some n → 1 ≤ n) ∧
    (cfg.pcw = 0 ∨ cfg.vlen = some 0 → ∃ e, loadMachine cfg prog = .error e) ∧
    ((∀ w ∈ prog, ∃ i, decode cfg w = .ok i) → cfg.LatenciesWellFormed → prog.length < 2 ^ cfg.pcw →
      cfg.pcw = 0 ∨ cfg.vlen = some 0 → loadMachine cfg prog = .error .badSize)

/-! ### Reset -/

/-- R265 (70_reset_and_hazards): an edge with `rst = 1`, from any state, faulted or not, gives every piece of
state the value of R45 (10_state), leaves parameters and program, and outputs no stall and no
transaction. `REG_INIT` and `MEM_INIT` are the configuration's tables; that a register beyond its table and a
cell that no pair names start at 0, and that the later pair counts, is the model's choice (assumption log 2,
3). -/
def Obligations.ResetPutsEveryFieldAtItsValue : Prop :=
  ∀ s : State, ∃ t o, clockEdge true s = .next (t, o) ∧ o.stall = false ∧ o.cdb = [] ∧
    t.cfg = s.cfg ∧ t.prog = s.prog ∧
    t.pc = 0 ∧ t.cycle = 0 ∧ t.fault = none ∧
    (∀ q : RegName, readReg t q = if q.WellFormed s.cfg then some (.value (regInit s.cfg q)) else none) ∧
    t.ts.length = s.prog.length ∧ (∀ y ∈ t.ts, y = { issue := 0, exec := 0, wb := 0 }) ∧
    t.add.length = s.cfg.nadd ∧ t.mul.length = s.cfg.nmul ∧
    (∀ x, x ∈ t.add ∨ x ∈ t.mul → x.busy = false ∧ x.timer = 0 ∧ x.owner = 0 ∧ x.op = .ld ∧
      x.j = .value (regInit s.cfg { file := .f, idx := 0 }) ∧
      x.k = .value (regInit s.cfg { file := .f, idx := 0 })) ∧
    t.load.length = s.cfg.nload ∧
    (∀ x ∈ t.load, x = { busy := false, addr := 0, timer := 0, owner := 0 }) ∧
    t.store.length = s.cfg.nstore ∧
    (∀ x ∈ t.store, x.busy = false ∧ x.timer = 0 ∧ x.owner = 0 ∧ x.addr = 0 ∧
      x.j = .value (regInit s.cfg { file := .f, idx := 0 })) ∧
    ∀ a, a < s.cfg.memSize → Memory.read t.mem a = (s.cfg.memInit.reverse.lookup a).getD 0

/-- R45 (10_state): the invariants hold of the state after reset. Its registers and cells are 0 by the
model's choice (assumption log 2, 3), which the invariants do not use. -/
def Obligations.ResetStateMeetsInvariants : Prop := State.reset.Inv

/-- R38 (10_state): the invariants hold of every machine that `load` constructs. -/
def Obligations.LoadedMachineMeetsInvariants : Prop :=
  ∀ (cfg : Config) (prog : List Word) (s : State), loadMachine cfg prog = .ok s → s.Inv

/-! ### The invariants and totality -/

/-- R38 (10_state): every step keeps the invariants. -/
def Obligations.StepKeepsInvariants : Prop :=
  ∀ s t : State, s.Inv → step s = .next t → t.Inv

/-- R187 (43_cycle_driver): under the invariants every step answers a next state. -/
def Obligations.StepAnswersNextState : Prop :=
  ∀ s : State, s.Inv → ∃ t, step s = .next t

/-! ### Issue -/

/-- R220, R118 (45, 40): LD issues into the least free slot of pool LOAD and renames its destination;
nothing else changes. -/
def Obligations.LdIssues : Prop :=
  ∀ (s : State) (rd : RegName) (addr r : Nat), (readReg s rd).isSome = true → addr < s.cfg.memSize →
    IsLeastFree s .load r →
    ∃ t, exec (.ld rd addr) s = .next t ∧ Claims.Issued s t ∧
      t.load = s.load.set r { busy := true, addr := addr, timer := s.cfg.lat.ld, owner := s.pc } ∧
      t.add = s.add ∧ t.mul = s.mul ∧ t.store = s.store ∧
      Claims.Renamed s t rd { pool := .load, rank := r }

/-- R221, R119, R120 (45, 40): ST issues into the least free slot of pool STORE with a copy of its source's
entry; no register and nothing else changes. -/
def Obligations.StIssues : Prop :=
  ∀ (s : State) (rs : RegName) (addr r : Nat) (j : Entry), readReg s rs = some j → addr < s.cfg.memSize →
    IsLeastFree s .store r →
    ∃ t, exec (.st rs addr) s = .next t ∧ Claims.Issued s t ∧
      t.store = s.store.set r
        { busy := true, j := j, addr := addr, timer := s.cfg.lat.st, owner := s.pc } ∧
      t.add = s.add ∧ t.mul = s.mul ∧ t.load = s.load ∧ ∀ q, readReg t q = readReg s q

/-- R200, R117 (44, 40): ADDD issues into the least free slot of pool ADD with copies of both sources'
entries, read before the destination is renamed; nothing else changes. -/
def Obligations.AdddIssues : Prop :=
  ∀ (s : State) (rd rs1 rs2 : RegName) (r : Nat) (j k : Entry), (readReg s rd).isSome = true →
    readReg s rs1 = some j → readReg s rs2 = some k → IsLeastFree s .add r →
    ∃ t, exec (.addd rd rs1 rs2) s = .next t ∧ Claims.IssuedAdd s t .addd s.cfg.lat.addd r rd j k

/-- R201, R117 (44, 40): SUBD issues into the least free slot of pool ADD, `j` the first source and `k` the
second. -/
def Obligations.SubdIssues : Prop :=
  ∀ (s : State) (rd rs1 rs2 : RegName) (r : Nat) (j k : Entry), (readReg s rd).isSome = true →
    readReg s rs1 = some j → readReg s rs2 = some k → IsLeastFree s .add r →
    ∃ t, exec (.subd rd rs1 rs2) s = .next t ∧ Claims.IssuedAdd s t .subd s.cfg.lat.subd r rd j k

/-- R202, R117 (44, 40): MULTD issues into the least free slot of pool MUL. -/
def Obligations.MultdIssues : Prop :=
  ∀ (s : State) (rd rs1 rs2 : RegName) (r : Nat) (j k : Entry), (readReg s rd).isSome = true →
    readReg s rs1 = some j → readReg s rs2 = some k → IsLeastFree s .mul r →
    ∃ t, exec (.multd rd rs1 rs2) s = .next t ∧ Claims.IssuedMul s t .multd s.cfg.lat.multd r rd j k

/-- R203, R117 (44, 40): DIVD issues into the least free slot of pool MUL, `j` the dividend and `k` the
divisor. -/
def Obligations.DivdIssues : Prop :=
  ∀ (s : State) (rd rs1 rs2 : RegName) (r : Nat) (j k : Entry), (readReg s rd).isSome = true →
    readReg s rs1 = some j → readReg s rs2 = some k → IsLeastFree s .mul r →
    ∃ t, exec (.divd rd rs1 rs2) s = .next t ∧ Claims.IssuedMul s t .divd s.cfg.lat.divd r rd j k

/-- R114, R42 (40, 10): with no free slot in the pool the issue phase of any instruction changes nothing and
the cycle's output `stall` is 1; the other phases of the step still run; a pool of size 0 never has a free
slot. -/
def Obligations.StallChangesNothing : Prop :=
  (∀ (s : State) (i : Instr), recordAt s s.pc = some i → OperandsPresent s i →
    PoolFull s (classOf (instrOpcode i)) →
    exec i s = .next s ∧ issuePhase s = .next s ∧ stallOut s = true ∧
    (s.fault = none →
      step s = andThen (afterIssue (advanceCycle s)) fun p => .next p.1) ∧
    ∀ (t : State) (o : StepOut), s.fault = none → runCycle s = .next (t, o) → o.stall = true) ∧
  ∀ (s : State) (p : Pool), poolSize s p = 0 → PoolFull s p

/-- The model's choice (assumption log 11), from R95 (30_encoding): an instruction with an operand the
configuration lacks is refused by name, whatever the pools hold. -/
def Obligations.MalformedOperandIsRefused : Prop :=
  ∀ (s : State) (i : Instr), ¬ OperandsPresent s i →
    exec i s = .refused (.configError (.malformedOperand s.pc))

/-- R126 (40_issue): the allocation decoder's outputs from its inputs. The pool is the opcode's class, a
found rank is the least free one, exactly that slot is enabled, and `stall` is `valid and not found`. -/
def Obligations.AllocationDecoderOutputs : Prop :=
  ∀ (valid : Bool) (op : Opcode) (ba bm bl bs : List Bool),
    let bits := match classOf op with
      | .add => ba
      | .mul => bm
      | .load => bl
      | .store => bs
    let a := allocDecoder valid op ba bm bl bs
    a.pool = classOf op ∧
    (a.found = true ↔ false ∈ bits) ∧
    (a.found = true → bits[a.rank]? = some false ∧ ∀ n, n < a.rank → bits[n]? = some true) ∧
    (a.stall = true ↔ valid = true ∧ a.found = false) ∧
    ∀ p n, allocEnable valid a p n = true ↔
      valid = true ∧ a.found = true ∧ p = classOf op ∧ n = a.rank

/-- R127 (40_issue): the truth table of the priority encoder for pools of three and of two slots, the busy
bits written rank 0 first. -/
def Obligations.PriorityEncoderTruthTable : Prop :=
  priorityEncoder [false, false, false] = some 0 ∧ priorityEncoder [true, false, false] = some 1 ∧
  priorityEncoder [false, true, false] = some 0 ∧ priorityEncoder [true, true, false] = some 2 ∧
  priorityEncoder [false, false, true] = some 0 ∧ priorityEncoder [true, false, true] = some 1 ∧
  priorityEncoder [false, true, true] = some 0 ∧ priorityEncoder [true, true, true] = none ∧
  priorityEncoder [false, false] = some 0 ∧ priorityEncoder [true, false] = some 1 ∧
  priorityEncoder [false, true] = some 0 ∧ priorityEncoder [true, true] = none

/-- R112, R42 (40, 10): at the end of the program the issue phase changes nothing and the cycle's output
`stall` is 0. -/
def Obligations.EndOfProgramIssuesNothing : Prop :=
  ∀ s : State, s.pc = s.prog.length → issuePhase s = .next s ∧ stallOut s = false ∧
    ∀ (t : State) (o : StepOut), runCycle s = .next (t, o) → o.stall = false

/-- R123 (40_issue): once a later instruction has renamed a register, the broadcast of the busy slot that
held it before does not change it. -/
def Obligations.LastIssuedWins : Prop :=
  ∀ (s t : State) (i : Instr) (q : RegName) (u : Tag) (v : Val), exec i s = .next t →
    t.pc = s.pc + 1 → instrDest i = some q → IsBusy s u →
    ∃ w, readReg t q = some (.tag w) ∧ w ≠ u ∧ readReg (broadcast u v t) q = some (.tag w)

/-! ### The step -/

/-- R185, R111 (43, 40): where the word at `pc` decodes, the step is the instruction's own action in the
state whose cycle is counted, then the other phases; where it does not, the step is refused by name (the
model's choice, assumption log 11). -/
def Obligations.StepRunsDecodedRecord : Prop :=
  ∀ (s : State) (w : Word), s.fault = none → s.prog[s.pc]? = some w →
    (∀ i, decode s.cfg w = .ok i →
      step s = andThen (exec i (advanceCycle s)) fun s1 => andThen (afterIssue s1) fun p => .next p.1) ∧
    ∀ e, decode s.cfg w = .error e → step s = .refused (.configError (recordError s.pc e))

/-- R188 (43_cycle_driver): after a fault the machine is frozen, not even the cycle counts. -/
def Obligations.FaultFreezesTheMachine : Prop :=
  ∀ s : State, s.fault ≠ none → step s = .next s

/-- R186, R28 (43, 10): the cycle counter is incremented first, so every timestamp a step sets is the new
cycle, at least 1; under the invariants a timestamp that is set keeps its value. -/
def Obligations.StampsAreTheNewCycle : Prop :=
  ∀ s t : State, s.fault = none → step s = .next t →
    t.cycle = s.cycle + 1 ∧ t.ts.length = s.ts.length ∧
    ∀ (k : Nat) (x y : Stamp), s.ts[k]? = some x → t.ts[k]? = some y →
      (y.issue = x.issue ∨ y.issue = s.cycle + 1) ∧
      (y.exec = x.exec ∨ y.exec = s.cycle + 1) ∧
      (y.wb = x.wb ∨ y.wb = s.cycle + 1) ∧
      (s.Inv → (x.issue ≠ 0 → y.issue = x.issue) ∧ (x.exec ≠ 0 → y.exec = x.exec) ∧
        (x.wb ≠ 0 → y.wb = x.wb))

/-- R29, R41 (10_state): no step writes the parameters or the program. -/
def Obligations.StepKeepsParameters : Prop :=
  ∀ s t : State, step s = .next t → t.cfg = s.cfg ∧ t.prog = s.prog

/-- R26, R121, R122 (10, 40): `pc` advances by one in a step whose record at `pc` finds a free slot, and
otherwise keeps its value. -/
def Obligations.PcAdvancesOnAllocation : Prop :=
  ∀ s t : State, s.fault = none → step s = .next t →
    (∀ i, recordAt s s.pc = some i → (leastFree s (classOf (instrOpcode i))).isSome = true →
      t.pc = s.pc + 1) ∧
    (∀ i, recordAt s s.pc = some i → leastFree s (classOf (instrOpcode i)) = none → t.pc = s.pc) ∧
    (recordAt s s.pc = none → t.pc = s.pc)

/-- R42 (10_state): the outputs of a cycle. `stall` is 1 exactly where the issue phase found a record at `pc`
and no free slot in its pool; `done` is 1 exactly where every write-back timestamp is set after it; `fault`
is the latch after it. -/
def Obligations.CycleOutputs : Prop :=
  ∀ (s t : State) (o : StepOut), s.fault = none → runCycle s = .next (t, o) →
    (o.stall = true ↔ ∃ i, recordAt s s.pc = some i ∧ leastFree s (classOf (instrOpcode i)) = none) ∧
    (o.done = true ↔ ∀ y ∈ t.ts, y.wb ≠ 0) ∧ o.fault = t.fault

/-! ### Countdown -/

/-- R143, R145 (41_countdown): a slot's timer is one less after the countdown phase where it is busy, was not
issued in this cycle, is ready and its timer is not 0; otherwise it is the same. -/
def Obligations.TimerCountsWhenReady : Prop :=
  ∀ (s : State) (u : Tag) (x : SlotView), slotView s u = some x →
    ∃ y, slotView (countdownPhase s).1 u = some y ∧
      y.busy = x.busy ∧ y.ready = x.ready ∧ y.owner = x.owner ∧
      (x.busy = true ∧ (∀ z : Stamp, s.ts[x.owner]? = some z → z.issue ≠ s.cycle) ∧ x.ready = true ∧ 0 < x.timer →
        y.timer + 1 = x.timer) ∧
      (¬ (x.busy = true ∧ (∀ z : Stamp, s.ts[x.owner]? = some z → z.issue ≠ s.cycle) ∧ x.ready = true ∧
        0 < x.timer) → y.timer = x.timer)

/-- R144 (41_countdown): a slot is handed to the write-back phase exactly when its timer goes from 1 to 0 in
this phase; exactly the owners of such slots get the execute-complete stamp. -/
def Obligations.CompletionMarksEligible : Prop :=
  ∀ s : State,
    (∀ u, u ∈ (countdownPhase s).2 ↔ ∃ x, slotView s u = some x ∧ x.busy = true ∧
      (∀ z : Stamp, s.ts[x.owner]? = some z → z.issue ≠ s.cycle) ∧ x.ready = true ∧ x.timer = 1) ∧
    (∀ (k : Nat) (y : Stamp), s.ts[k]? = some y → (countdownPhase s).1.ts[k]? =
      some (if ∃ u ∈ (countdownPhase s).2, ∃ x ∈ slotView s u, x.owner = k
        then { y with exec := s.cycle } else y))

/-- R140 (41_countdown): the countdown phase writes timers and execute-complete stamps and nothing else. -/
def Obligations.CountdownWritesNothingElse : Prop :=
  ∀ s : State,
    let t := (countdownPhase s).1
    t.cfg = s.cfg ∧ t.prog = s.prog ∧ t.freg = s.freg ∧ t.ireg = s.ireg ∧ t.pc = s.pc ∧
    t.cycle = s.cycle ∧ t.mem = s.mem ∧ t.fault = s.fault ∧
    t.add.map (fun x => { x with timer := 0 }) = s.add.map (fun x => { x with timer := 0 }) ∧
    t.mul.map (fun x => { x with timer := 0 }) = s.mul.map (fun x => { x with timer := 0 }) ∧
    t.load.map (fun x => { x with timer := 0 }) = s.load.map (fun x => { x with timer := 0 }) ∧
    t.store.map (fun x => { x with timer := 0 }) = s.store.map (fun x => { x with timer := 0 }) ∧
    t.ts.map (fun y => { y with exec := 0 }) = s.ts.map (fun y => { y with exec := 0 })

/-! ### Results and the bus -/

/-- R160 (42_writeback_broadcast): the four rows of `alu`, under every numeric domain, with division by zero
giving zero. -/
def Obligations.AluRows : Prop :=
  ∀ (n : Sys2Proof.Num) (a b : Val),
    alu n .addd a b = some (numAdd n a b) ∧
    alu n .subd a b = some (numSub n a b) ∧
    alu n .multd a b = some (numMul n a b) ∧
    (numIsZero n b = true → alu n .divd a b = some 0) ∧
    (numIsZero n b = false → alu n .divd a b = some (numDiv n a b))

/-- R11, R205 (00, 44): the results the document fixes hold under every numeric domain; under `NUM_Q` the
operations are those of the rationals, the quotient exact, and division by zero gives zero. -/
def Obligations.NumericResults : Prop :=
  (∀ n : Sys2Proof.Num, alu n .subd 6 3 = some 3 ∧ alu n .multd 6 3 = some 18 ∧ alu n .divd 6 3 = some 2 ∧
    alu n .divd 6 0 = some 0) ∧
  ∀ a b : Val, alu .q .addd a b = some (a + b) ∧ alu .q .subd a b = some (a - b) ∧
    alu .q .multd a b = some (a * b) ∧ (b ≠ 0 → ∃ d, alu .q .divd a b = some d ∧ d * b = a) ∧
    alu .q .divd a 0 = some 0

/-- R170 (42_writeback_broadcast): the truth table of the comparator; an operand register of a free slot is
unchanged in every case. -/
def Obligations.ComparatorTruthTable : Prop :=
  ∀ (t : Tag) (v : Val),
    (∀ w, Entry.forward t v (.value w) = .value w) ∧
    Entry.forward t v (.tag t) = .value v ∧
    (∀ u, u ≠ t → Entry.forward t v (.tag u) = .tag u) ∧
    (∀ x : ArithSlot, x.busy = false → x.forward t v = x) ∧
    ∀ x : StoreSlot, x.busy = false → x.forward t v = x

/-- R164, R165 (42_writeback_broadcast): a transaction turns every register and every operand register of a
busy slot that holds its tag into its value, and changes nothing else: no other register or operand register,
no other field of any slot, nothing else of the state. -/
def Obligations.BroadcastReachesEveryHolder : Prop :=
  ∀ (t : Tag) (v : Val) (s : State),
    (∀ q, readReg s q = some (.tag t) → readReg (broadcast t v s) q = some (.value v)) ∧
    (∀ q, readReg s q ≠ some (.tag t) → readReg (broadcast t v s) q = readReg s q) ∧
    (∀ u x, slotView s u = some x → ∀ (n : Nat) (e : Entry), (slotOperands s u)[n]? = some e →
      (x.busy = true ∧ e = .tag t → (slotOperands (broadcast t v s) u)[n]? = some (.value v)) ∧
      (¬ (x.busy = true ∧ e = .tag t) → (slotOperands (broadcast t v s) u)[n]? = some e)) ∧
    (broadcast t v s).add.map (fun x => { x with j := .value 0, k := .value 0 }) =
      s.add.map (fun x => { x with j := .value 0, k := .value 0 }) ∧
    (broadcast t v s).mul.map (fun x => { x with j := .value 0, k := .value 0 }) =
      s.mul.map (fun x => { x with j := .value 0, k := .value 0 }) ∧
    (broadcast t v s).store.map (fun x => { x with j := .value 0 }) =
      s.store.map (fun x => { x with j := .value 0 }) ∧
    (broadcast t v s).freg.length = s.freg.length ∧ (broadcast t v s).ireg.length = s.ireg.length ∧
    (broadcast t v s).cfg = s.cfg ∧ (broadcast t v s).prog = s.prog ∧
    (broadcast t v s).load = s.load ∧ (broadcast t v s).mem = s.mem ∧ (broadcast t v s).ts = s.ts ∧
    (broadcast t v s).pc = s.pc ∧ (broadcast t v s).cycle = s.cycle ∧ (broadcast t v s).fault = s.fault

/-- R168 (42_writeback_broadcast): two transactions of different tags commute on the whole state. -/
def Obligations.TransactionsCommute : Prop :=
  ∀ (t u : Tag) (v w : Val) (s : State), t ≠ u →
    broadcast t v (broadcast u w s) = broadcast u w (broadcast t v s)

/-- R158 (42_writeback_broadcast): the write-back of a slot with an operand still a tag latches
`OperandKind` with the slot and its owner; the slot is not freed, nothing is stamped, written or broadcast,
and no later slot of the scan is processed. -/
def Obligations.OperandKindCheckLatches : Prop :=
  ∀ (s : State) (u : Tag) (x : SlotView) (rest : List Tag), slotView s u = some x → x.ready = false →
    writebackList (u :: rest) s = .next ({ s with fault := some (.operandKind u x.owner) }, [])

/-- R238 (60_exceptions): no step from any state latches the operand-kind violation. -/
def Obligations.NoStepRaisesOperandKind : Prop :=
  ∀ (s t : State) (u : Tag) (k : Nat), s.fault = none → step s = .next t →
    t.fault ≠ some (.operandKind u k)

/-- R200 to R203, R159, R160, R164, R165 (44, 42): a busy ADDD, SUBD, MULTD or DIVD slot with both operands
resolved and one cycle left writes back in the next step: freed, both stamps that cycle, its result on the
bus and in every holder. -/
def Obligations.ArithmeticWritesBack : Prop :=
  ∀ (s t : State) (o : StepOut) (u : Tag) (x : ArithSlot) (a b : Val), s.Inv → s.fault = none →
    runCycle s = .next (t, o) → (arithSlots s u.pool)[u.rank]? = some x → x.busy = true →
    x.j = .value a → x.k = .value b → x.timer = 1 →
    ∃ v, alu s.cfg.num x.op a b = some v ∧ (u, v) ∈ o.cdb ∧
      (arithSlots t u.pool)[u.rank]? = some { x with busy := false, timer := 0 } ∧
      Claims.WrittenBack s t x.owner ∧ Claims.Delivered s t u v

/-- R220, R161, R69 (45, 42, 20): a busy load slot with one cycle left writes back in the next step the
content its cell had before any store of that step. -/
def Obligations.LoadWritesBack : Prop :=
  ∀ (s t : State) (o : StepOut) (r : Nat) (x : LoadSlot), s.Inv → s.fault = none →
    runCycle s = .next (t, o) → s.load[r]? = some x → x.busy = true → x.timer = 1 →
    ({ pool := .load, rank := r }, Memory.read s.mem x.addr) ∈ o.cdb ∧
      t.load[r]? = some { x with busy := false, timer := 0 } ∧
      Claims.WrittenBack s t x.owner ∧
      Claims.Delivered s t { pool := .load, rank := r } (Memory.read s.mem x.addr)

/-- R221, R162, R163, R70 (45, 42, 20): a busy store slot with its value resolved and one cycle left writes
back in the next step: freed, both stamps that cycle, nothing of its own on the bus, and its cell holds the
value unless a store slot of higher rank writes the same cell in the same step. -/
def Obligations.StoreWritesBack : Prop :=
  ∀ (s t : State) (o : StepOut) (r : Nat) (x : StoreSlot) (v : Val), s.Inv → s.fault = none →
    runCycle s = .next (t, o) → s.store[r]? = some x → x.busy = true → x.j = .value v → x.timer = 1 →
    t.store[r]? = some { x with busy := false, timer := 0 } ∧
      Claims.WrittenBack s t x.owner ∧
      (∀ w, ({ pool := .store, rank := r }, w) ∉ o.cdb) ∧
      ((∀ (r' : Nat) (z : StoreSlot), r < r' → s.store[r']? = some z →
          completesNext s { pool := .store, rank := r' } = true → z.addr ≠ x.addr) →
        Memory.read t.mem x.addr = v)

/-- R62, R63 (20_memory): a step changes no cell but those that the completing store slots address. -/
def Obligations.StepChangesOnlyStoredCells : Prop :=
  ∀ (s t : State) (a : Nat), s.Inv → step s = .next t →
    (∀ (r : Nat) (x : StoreSlot), s.store[r]? = some x → completesNext s { pool := .store, rank := r } = true → x.addr ≠ a) →
    Memory.read t.mem a = Memory.read s.mem a

/-- R24 (10_state): a register that the step's issue does not rename and that holds a value, or the tag of a
slot that does not complete in the step, is unchanged. -/
def Obligations.StepChangesOnlyNamedRegisters : Prop :=
  ∀ (s t : State) (q : RegName) (e : Entry), s.Inv → step s = .next t → readReg s q = some e →
    NotRenamedNext s q → (∀ u, e = .tag u → completesNext s u = false) → readReg t q = some e

/-- R34, R155 (10, 42): a slot that the step neither allocates nor completes keeps its busy bit, its opcode or
address, its owner, and each operand register that holds a value or the tag of a slot that does not complete;
its timer is one less where it is busy and ready, and otherwise the same. -/
def Obligations.StepKeepsOtherSlots : Prop :=
  ∀ s t : State, s.Inv → s.fault = none → step s = .next t →
    (∀ (p : Pool) (r : Nat) (x : ArithSlot), (arithSlots s p)[r]? = some x →
      completesNext s { pool := p, rank := r } = false → ¬ Claims.AllocatedNext s { pool := p, rank := r } →
      ∃ y, (arithSlots t p)[r]? = some y ∧ y.busy = x.busy ∧ y.op = x.op ∧ y.owner = x.owner ∧
        y.timer = Claims.timerNext x.view ∧
        (Claims.NotResolvedNext s x.j → y.j = x.j) ∧ (Claims.NotResolvedNext s x.k → y.k = x.k)) ∧
    (∀ (r : Nat) (x : LoadSlot), s.load[r]? = some x →
      completesNext s { pool := .load, rank := r } = false →
      ¬ Claims.AllocatedNext s { pool := .load, rank := r } →
      t.load[r]? = some { x with timer := Claims.timerNext x.view }) ∧
    ∀ (r : Nat) (x : StoreSlot), s.store[r]? = some x →
      completesNext s { pool := .store, rank := r } = false →
      ¬ Claims.AllocatedNext s { pool := .store, rank := r } →
      ∃ y, t.store[r]? = some y ∧ y.busy = x.busy ∧ y.addr = x.addr ∧ y.owner = x.owner ∧
        y.timer = Claims.timerNext x.view ∧ (Claims.NotResolvedNext s x.j → y.j = x.j)

/-- R124 (40_issue): an instruction that issues in the cycle in which the producer of a source register
writes back captures the tag, and ends the cycle with the value in its operand register. So it is for both
sources of ADDD, SUBD, MULTD, DIVD and for the source of ST. -/
def Obligations.SameCycleCaptureIsResolved : Prop :=
  ∀ (s t : State) (o : StepOut) (i : Instr) (n r : Nat) (q : RegName) (u : Tag) (v : Val), s.Inv →
    s.fault = none → runCycle s = .next (t, o) → recordAt s s.pc = some i →
    leastFree s (classOf (instrOpcode i)) = some r → (Claims.sources i)[n]? = some q →
    readReg s q = some (.tag u) → (u, v) ∈ o.cdb →
    ∃ x, slotView t { pool := classOf (instrOpcode i), rank := r } = some x ∧ x.busy = true ∧
      x.owner = s.pc ∧
      (slotOperands t { pool := classOf (instrOpcode i), rank := r })[n]? = some (.value v)

/-- R157, R166 (42_writeback_broadcast): the transactions of a step are one for each completing slot of
pools ADD, MUL and LOAD, in the scan order. -/
def Obligations.BusTraceFollowsScanOrder : Prop :=
  ∀ (s t : State) (o : StepOut), s.Inv → s.fault = none → runCycle s = .next (t, o) →
    o.cdb.map Prod.fst =
      (scanOrder s).filter (fun u => completesNext s u && decide (u.pool ≠ .store))

/-- R63 (20_memory): the memory primitives. A read has no effect and returns the cell; a write sets it and
leaves every other cell and all other state unchanged; both are defined exactly where the address is below
MEMSIZE. That the written list is canonical again is a property of the model's representation (DEDUCED,
assumption log 7). -/
def Obligations.MemoryPrimitives : Prop :=
  ∀ (s : State) (a : Nat) (v : Val), Memory.wf s.mem = true →
    (a < s.cfg.memSize → memRead s a = some (Memory.read s.mem a) ∧
      ∃ t, memWrite s a v = some t ∧ memRead t a = some v ∧ (∀ b, b ≠ a → memRead t b = memRead s b) ∧
        { t with mem := s.mem } = s ∧ Memory.wf t.mem = true) ∧
    (s.cfg.memSize ≤ a → memRead s a = none ∧ memWrite s a v = none)

/-- R169 (42_writeback_broadcast): after the write-back of a slot no register, and no operand register of a
busy slot, holds its tag. -/
def Obligations.NoTagAfterWriteback : Prop :=
  ∀ (s t : State) (u : Tag), s.Inv → s.fault = none → step s = .next t → completesNext s u = true →
    (¬ IsBusy t u) ∧ (∀ q, readReg t q ≠ some (.tag u)) ∧
    ∀ w, IsBusy t w → Entry.tag u ∉ slotOperands t w

/-! ### Runs -/

/-- R189 (43_cycle_driver): at the end of a step the budget's fault is latched exactly where a budget is set,
used up, and the machine is not done; no other fault is. -/
def Obligations.BudgetLatchesNonTermination : Prop :=
  ∀ s t : State, s.fault = none → step s = .next t →
    (s.cfg.maxCycles = none → t.fault = none) ∧
    ∀ m, s.cfg.maxCycles = some m →
      (m ≤ s.cycle + 1 ∧ done t = false → t.fault = some (.nonTermination (s.cycle + 1))) ∧
      (¬ (m ≤ s.cycle + 1 ∧ done t = false) → t.fault = none)

/-- R190 (43_cycle_driver): the machine is done exactly when every record has issued and no slot is busy. -/
def Obligations.DoneMeansDrained : Prop :=
  ∀ s : State, s.Inv → (done s = true ↔ s.pc = s.prog.length ∧ AllSlotsFree s)

/-- R190 (43_cycle_driver): the driver steps while the machine is neither done nor faulted and not once more.
Where it stops it runs no cycle, so for an empty program it runs none; otherwise what it answers is the state
after some number of steps, none of them made from a state at which it stops, and it used up its bound or
stopped there. -/
def Obligations.DriverRunsUntilTermination : Prop :=
  (∀ (n : Nat) (s : State), done s = true ∨ s.fault ≠ none → drive n s = .next s) ∧
  (∀ (cfg : Config) (s : State) (n : Nat), loadMachine cfg [] = .ok s → drive n s = .next s) ∧
  ∀ (n : Nat) (s t : State), drive n s = .next t → ∃ m, m ≤ n ∧ runSteps m s = .next t ∧
    (∀ k, k < m → ∃ u, runSteps k s = .next u ∧ done u = false ∧ u.fault = none) ∧
    (m < n → done t = true ∨ t.fault ≠ none)

/-- R191 (43_cycle_driver): at done every slot is free, every register is a value, `pc = N`, every timestamp
is set, and a further step changes only the cycle. -/
def Obligations.StateAtDone : Prop :=
  ∀ s : State, s.Inv → done s = true →
    AllSlotsFree s ∧ (∀ q e, readReg s q = some e → e.isVal = true) ∧ s.pc = s.prog.length ∧
    (∀ y ∈ s.ts, y.issue ≠ 0 ∧ y.exec ≠ 0 ∧ y.wb ≠ 0) ∧
    (s.fault = none → step s = .next { s with cycle := s.cycle + 1 })

/-- R192 (43_cycle_driver): in any run of any loaded program, an instruction that has written back has
`0 < issue`, `issue + LAT <= exec` and `exec = wb`. -/
def Obligations.TimestampsAreOrdered : Prop :=
  ∀ (cfg : Config) (prog : List Word) (s t : State) (n k : Nat) (y : Stamp) (i : Instr),
    loadMachine cfg prog = .ok s → runSteps n s = .next t → t.ts[k]? = some y → recordAt t k = some i →
    y.wb ≠ 0 → 0 < y.issue ∧ y.issue + latOf cfg (instrOpcode i) ≤ y.exec ∧ y.exec = y.wb

/-- R194 (43_cycle_driver): where the pool of the record at `pc` has no slot and no budget is set, the
machine steps for ever, the output `stall` is 1 in every cycle and it is never done. -/
def Obligations.EmptyPoolHangs : Prop :=
  ∀ (s : State) (i : Instr), s.Inv → s.fault = none → s.cfg.maxCycles = none →
    recordAt s s.pc = some i → poolSize s (classOf (instrOpcode i)) = 0 →
    ∀ n, ∃ t, runSteps n s = .next t ∧ t.pc = s.pc ∧ t.cycle = s.cycle + n ∧ done t = false ∧
      t.fault = none ∧ ∃ t' o, runCycle t = .next (t', o) ∧ o.stall = true

/-- R193 (43_cycle_driver): where every pool the program needs has a slot and the budget, if any, allows it,
every loaded program reaches done within `N + sum of latencies` cycles, and the driver ends there. -/
def Obligations.EveryProgramReachesDone : Prop :=
  ∀ (cfg : Config) (prog : List Word) (s : State), loadMachine cfg prog = .ok s →
    (∀ k i, recordAt s k = some i → 0 < poolSize s (classOf (instrOpcode i))) →
    (∀ m ∈ cfg.maxCycles, prog.length + latencySum s ≤ m) →
    ∃ n t, n ≤ prog.length + latencySum s ∧ runSteps n s = .next t ∧ done t = true ∧ t.fault = none ∧
      drive (prog.length + latencySum s) s = .next t ∧ DriverEndsIn s t

/-- R148 (41_countdown): a busy slot that is ready with `L` on its timer completes and writes back exactly
`L` cycles later, in any run without a fault. -/
def Obligations.ReadySlotTiming : Prop :=
  ∀ (s t : State) (u : Tag) (x : SlotView), s.Inv → slotView s u = some x → x.busy = true →
    x.ready = true → runSteps x.timer s = .next t → t.fault = none →
    ¬ IsBusy t u ∧ ∃ y, t.ts[x.owner]? = some y ∧ y.exec = s.cycle + x.timer ∧ y.wb = s.cycle + x.timer

/-- R20 (10_state): the hardware encoding of a tag identifies the slot; with the default sizes a rank has 2
bits and a tag 4. -/
def Obligations.TagEncodingIdentifiesSlot : Prop :=
  (∀ (cfg : Config) (t u : Tag),
    t.rank < max (max cfg.nadd cfg.nmul) (max cfg.nload cfg.nstore) →
    u.rank < max (max cfg.nadd cfg.nmul) (max cfg.nload cfg.nstore) →
    tagBits cfg t = tagBits cfg u → t = u) ∧
  rankWidth Config.default = 2 ∧ tagWidth Config.default = 4
end

