-- ==== Sys2Proof/Laws/Alloc.lean ====
section
/-! SUPPORT. The priority encoder (R113, 40_issue). -/

namespace Sys2Proof.Machine

/-- It answers a rank exactly where that one is free and every lesser one is busy. -/
theorem priorityEncoder_eq_some {bs : List Bool} {r : Nat} :
    priorityEncoder bs = some r ↔ bs[r]? = some false ∧ ∀ i, i < r → bs[i]? = some true := by
  induction bs generalizing r with
  | nil => simp [priorityEncoder]
  | cons b bs ih =>
    cases b with
    | false =>
      cases r with
      | zero => simp [priorityEncoder]
      | succ r =>
        simp only [priorityEncoder, Option.some.injEq]
        constructor
        · intro h
          cases h
        · rintro ⟨-, h⟩
          have := h 0 (by omega)
          simp at this
    | true =>
      cases r with
      | zero => simp [priorityEncoder]
      | succ r =>
        simp only [priorityEncoder, Option.map_eq_some_iff, Nat.add_right_cancel_iff, exists_eq_right, ih,
          List.getElem?_cons_succ]
        refine and_congr_right fun _ => ⟨fun h i hi => ?_, fun h i hi => ?_⟩
        · cases i with
          | zero => rfl
          | succ i => exact h i (by omega)
        · exact h (i + 1) (by omega)

/-- It answers none exactly where every slot is busy. -/
theorem priorityEncoder_eq_none {bs : List Bool} :
    priorityEncoder bs = none ↔ ∀ b ∈ bs, b = true := by
  induction bs with
  | nil => simp [priorityEncoder]
  | cons b bs ih =>
    cases b with
    | false => simp [priorityEncoder]
    | true => simp [priorityEncoder, ih]

/-- The rank it answers is one of the pool. -/
theorem priorityEncoder_lt {bs : List Bool} {r : Nat} (h : priorityEncoder bs = some r) :
    r < bs.length :=
  (List.getElem?_eq_some_iff.1 (priorityEncoder_eq_some.1 h).1).1

end Sys2Proof.Machine
end

