-- ==== Sys2Proof/Laws/Boot.lean ====
section
/-! SUPPORT. What the load-time check's tests say, and what the construction of a machine can answer. -/

namespace Sys2Proof.Machine

theorem latencyBad_eq_false {cfg : Config} {op : Opcode} :
    latencyBad cfg op = false ↔ LatencyWellFormed cfg.timw (latOf cfg op) := by
  simp only [latencyBad, LatencyWellFormed, Bool.or_eq_false_iff, decide_eq_false_iff_not]
  omega

theorem checkLatencies_eq_none {cfg : Config} : checkLatencies cfg = none ↔ cfg.LatenciesWellFormed := by
  simp only [checkLatencies, Option.map_eq_none_iff, List.find?_eq_none, Bool.not_eq_true, latencyBad_eq_false]
  simp [allOpcodes, latOf]

theorem sizesBad_eq_false {cfg : Config} : sizesBad cfg = false ↔ cfg.SizesWellFormed := by
  simp only [sizesBad, Bool.or_eq_false_iff, decide_eq_false_iff_not, Config.SizesWellFormed]
  omega

theorem budgetBad_eq_false {cfg : Config} : budgetBad cfg = false ↔ cfg.BudgetWellFormed := by
  cases h : cfg.maxCycles <;> simp [budgetBad, h]

theorem widthsBad_eq_false {cfg : Config} : widthsBad cfg = false ↔ cfg.WidthsWellFormed := by
  simp [widthsBad, Nat.one_le_iff_ne_zero]

/-- No test fails exactly where the records decode, the program fits and the configuration is legal. -/
theorem loadCheck_eq_none {cfg : Config} {prog : List Word} :
    loadCheck cfg prog = none ↔
      checkRecords cfg 0 prog = none ∧ prog.length < 2 ^ cfg.pcw ∧ cfg.WellFormed := by
  rw [Config.WellFormed, ← checkLatencies_eq_none, ← sizesBad_eq_false, ← budgetBad_eq_false,
    ← widthsBad_eq_false]
  unfold loadCheck
  cases checkRecords cfg 0 prog <;> cases checkLatencies cfg <;> simp
  constructor
  · intro h
    split at h
    · cases h
    · split at h
      · cases h
      · split at h
        · cases h
        · simp_all
  · rintro ⟨hN, h1, h2, h3⟩
    simp [Nat.not_le.2 hN, h1, h2, h3]

/-- A constructed machine is in its reset state, and no test failed. -/
theorem loadMachine_eq_ok {cfg : Config} {prog : List Word} {s : State} :
    loadMachine cfg prog = .ok s ↔ loadCheck cfg prog = none ∧ s = initState cfg prog := by
  unfold loadMachine
  cases loadCheck cfg prog <;> simp [eq_comm]

end Sys2Proof.Machine
end

