-- ==== Sys2Proof/Laws/State.lean ====
section
/-! SUPPORT. Every field of the state under every update: one lemma each, so that no proof unfolds a record
update. -/

namespace Sys2Proof.Machine

/-! `writeReg` -/

@[simp] theorem writeReg_cfg (s : State) (q : RegName) (e : Entry) :
    (writeReg s q e).cfg = s.cfg := by
  cases q with | mk file idx => cases file <;> rfl

@[simp] theorem writeReg_prog (s : State) (q : RegName) (e : Entry) :
    (writeReg s q e).prog = s.prog := by
  cases q with | mk file idx => cases file <;> rfl

@[simp] theorem writeReg_freg (s : State) (q : RegName) (e : Entry) :
    (writeReg s q e).freg = if q.file = .f then s.freg.set q.idx e else s.freg := by
  cases q with | mk file idx => cases file <;> rfl

@[simp] theorem writeReg_ireg (s : State) (q : RegName) (e : Entry) :
    (writeReg s q e).ireg = if q.file = .r then s.ireg.set q.idx e else s.ireg := by
  cases q with | mk file idx => cases file <;> rfl

@[simp] theorem writeReg_add (s : State) (q : RegName) (e : Entry) :
    (writeReg s q e).add = s.add := by
  cases q with | mk file idx => cases file <;> rfl

@[simp] theorem writeReg_mul (s : State) (q : RegName) (e : Entry) :
    (writeReg s q e).mul = s.mul := by
  cases q with | mk file idx => cases file <;> rfl

@[simp] theorem writeReg_load (s : State) (q : RegName) (e : Entry) :
    (writeReg s q e).load = s.load := by
  cases q with | mk file idx => cases file <;> rfl

@[simp] theorem writeReg_store (s : State) (q : RegName) (e : Entry) :
    (writeReg s q e).store = s.store := by
  cases q with | mk file idx => cases file <;> rfl

@[simp] theorem writeReg_pc (s : State) (q : RegName) (e : Entry) :
    (writeReg s q e).pc = s.pc := by
  cases q with | mk file idx => cases file <;> rfl

@[simp] theorem writeReg_cycle (s : State) (q : RegName) (e : Entry) :
    (writeReg s q e).cycle = s.cycle := by
  cases q with | mk file idx => cases file <;> rfl

@[simp] theorem writeReg_ts (s : State) (q : RegName) (e : Entry) :
    (writeReg s q e).ts = s.ts := by
  cases q with | mk file idx => cases file <;> rfl

@[simp] theorem writeReg_mem (s : State) (q : RegName) (e : Entry) :
    (writeReg s q e).mem = s.mem := by
  cases q with | mk file idx => cases file <;> rfl

@[simp] theorem writeReg_fault (s : State) (q : RegName) (e : Entry) :
    (writeReg s q e).fault = s.fault := by
  cases q with | mk file idx => cases file <;> rfl

/-! `putArithSlot` -/

@[simp] theorem putArithSlot_cfg (s : State) (p : Pool) (r : Nat) (x : ArithSlot) :
    (putArithSlot s p r x).cfg = s.cfg := by
  cases p <;> rfl

@[simp] theorem putArithSlot_prog (s : State) (p : Pool) (r : Nat) (x : ArithSlot) :
    (putArithSlot s p r x).prog = s.prog := by
  cases p <;> rfl

@[simp] theorem putArithSlot_freg (s : State) (p : Pool) (r : Nat) (x : ArithSlot) :
    (putArithSlot s p r x).freg = s.freg := by
  cases p <;> rfl

@[simp] theorem putArithSlot_ireg (s : State) (p : Pool) (r : Nat) (x : ArithSlot) :
    (putArithSlot s p r x).ireg = s.ireg := by
  cases p <;> rfl

@[simp] theorem putArithSlot_add (s : State) (p : Pool) (r : Nat) (x : ArithSlot) :
    (putArithSlot s p r x).add = if p = .add then s.add.set r x else s.add := by
  cases p <;> rfl

@[simp] theorem putArithSlot_mul (s : State) (p : Pool) (r : Nat) (x : ArithSlot) :
    (putArithSlot s p r x).mul = if p = .mul then s.mul.set r x else s.mul := by
  cases p <;> rfl

@[simp] theorem putArithSlot_load (s : State) (p : Pool) (r : Nat) (x : ArithSlot) :
    (putArithSlot s p r x).load = s.load := by
  cases p <;> rfl

@[simp] theorem putArithSlot_store (s : State) (p : Pool) (r : Nat) (x : ArithSlot) :
    (putArithSlot s p r x).store = s.store := by
  cases p <;> rfl

@[simp] theorem putArithSlot_pc (s : State) (p : Pool) (r : Nat) (x : ArithSlot) :
    (putArithSlot s p r x).pc = s.pc := by
  cases p <;> rfl

@[simp] theorem putArithSlot_cycle (s : State) (p : Pool) (r : Nat) (x : ArithSlot) :
    (putArithSlot s p r x).cycle = s.cycle := by
  cases p <;> rfl

@[simp] theorem putArithSlot_ts (s : State) (p : Pool) (r : Nat) (x : ArithSlot) :
    (putArithSlot s p r x).ts = s.ts := by
  cases p <;> rfl

@[simp] theorem putArithSlot_mem (s : State) (p : Pool) (r : Nat) (x : ArithSlot) :
    (putArithSlot s p r x).mem = s.mem := by
  cases p <;> rfl

@[simp] theorem putArithSlot_fault (s : State) (p : Pool) (r : Nat) (x : ArithSlot) :
    (putArithSlot s p r x).fault = s.fault := by
  cases p <;> rfl

/-! `putLoadSlot` -/

@[simp] theorem putLoadSlot_cfg (s : State) (r : Nat) (x : LoadSlot) :
    (putLoadSlot s r x).cfg = s.cfg := rfl

@[simp] theorem putLoadSlot_prog (s : State) (r : Nat) (x : LoadSlot) :
    (putLoadSlot s r x).prog = s.prog := rfl

@[simp] theorem putLoadSlot_freg (s : State) (r : Nat) (x : LoadSlot) :
    (putLoadSlot s r x).freg = s.freg := rfl

@[simp] theorem putLoadSlot_ireg (s : State) (r : Nat) (x : LoadSlot) :
    (putLoadSlot s r x).ireg = s.ireg := rfl

@[simp] theorem putLoadSlot_add (s : State) (r : Nat) (x : LoadSlot) :
    (putLoadSlot s r x).add = s.add := rfl

@[simp] theorem putLoadSlot_mul (s : State) (r : Nat) (x : LoadSlot) :
    (putLoadSlot s r x).mul = s.mul := rfl

@[simp] theorem putLoadSlot_load (s : State) (r : Nat) (x : LoadSlot) :
    (putLoadSlot s r x).load = s.load.set r x := rfl

@[simp] theorem putLoadSlot_store (s : State) (r : Nat) (x : LoadSlot) :
    (putLoadSlot s r x).store = s.store := rfl

@[simp] theorem putLoadSlot_pc (s : State) (r : Nat) (x : LoadSlot) :
    (putLoadSlot s r x).pc = s.pc := rfl

@[simp] theorem putLoadSlot_cycle (s : State) (r : Nat) (x : LoadSlot) :
    (putLoadSlot s r x).cycle = s.cycle := rfl

@[simp] theorem putLoadSlot_ts (s : State) (r : Nat) (x : LoadSlot) :
    (putLoadSlot s r x).ts = s.ts := rfl

@[simp] theorem putLoadSlot_mem (s : State) (r : Nat) (x : LoadSlot) :
    (putLoadSlot s r x).mem = s.mem := rfl

@[simp] theorem putLoadSlot_fault (s : State) (r : Nat) (x : LoadSlot) :
    (putLoadSlot s r x).fault = s.fault := rfl

/-! `putStoreSlot` -/

@[simp] theorem putStoreSlot_cfg (s : State) (r : Nat) (x : StoreSlot) :
    (putStoreSlot s r x).cfg = s.cfg := rfl

@[simp] theorem putStoreSlot_prog (s : State) (r : Nat) (x : StoreSlot) :
    (putStoreSlot s r x).prog = s.prog := rfl

@[simp] theorem putStoreSlot_freg (s : State) (r : Nat) (x : StoreSlot) :
    (putStoreSlot s r x).freg = s.freg := rfl

@[simp] theorem putStoreSlot_ireg (s : State) (r : Nat) (x : StoreSlot) :
    (putStoreSlot s r x).ireg = s.ireg := rfl

@[simp] theorem putStoreSlot_add (s : State) (r : Nat) (x : StoreSlot) :
    (putStoreSlot s r x).add = s.add := rfl

@[simp] theorem putStoreSlot_mul (s : State) (r : Nat) (x : StoreSlot) :
    (putStoreSlot s r x).mul = s.mul := rfl

@[simp] theorem putStoreSlot_load (s : State) (r : Nat) (x : StoreSlot) :
    (putStoreSlot s r x).load = s.load := rfl

@[simp] theorem putStoreSlot_store (s : State) (r : Nat) (x : StoreSlot) :
    (putStoreSlot s r x).store = s.store.set r x := rfl

@[simp] theorem putStoreSlot_pc (s : State) (r : Nat) (x : StoreSlot) :
    (putStoreSlot s r x).pc = s.pc := rfl

@[simp] theorem putStoreSlot_cycle (s : State) (r : Nat) (x : StoreSlot) :
    (putStoreSlot s r x).cycle = s.cycle := rfl

@[simp] theorem putStoreSlot_ts (s : State) (r : Nat) (x : StoreSlot) :
    (putStoreSlot s r x).ts = s.ts := rfl

@[simp] theorem putStoreSlot_mem (s : State) (r : Nat) (x : StoreSlot) :
    (putStoreSlot s r x).mem = s.mem := rfl

@[simp] theorem putStoreSlot_fault (s : State) (r : Nat) (x : StoreSlot) :
    (putStoreSlot s r x).fault = s.fault := rfl

/-! `freeSlot` -/

@[simp] theorem freeSlot_cfg (s : State) (t : Tag) :
    (freeSlot s t).cfg = s.cfg := by
  cases t with | mk pool rank => cases pool <;> rfl

@[simp] theorem freeSlot_prog (s : State) (t : Tag) :
    (freeSlot s t).prog = s.prog := by
  cases t with | mk pool rank => cases pool <;> rfl

@[simp] theorem freeSlot_freg (s : State) (t : Tag) :
    (freeSlot s t).freg = s.freg := by
  cases t with | mk pool rank => cases pool <;> rfl

@[simp] theorem freeSlot_ireg (s : State) (t : Tag) :
    (freeSlot s t).ireg = s.ireg := by
  cases t with | mk pool rank => cases pool <;> rfl

@[simp] theorem freeSlot_add (s : State) (t : Tag) :
    (freeSlot s t).add = if t.pool = .add then s.add.modify t.rank (fun x => { x with busy := false }) else s.add := by
  cases t with | mk pool rank => cases pool <;> rfl

@[simp] theorem freeSlot_mul (s : State) (t : Tag) :
    (freeSlot s t).mul = if t.pool = .mul then s.mul.modify t.rank (fun x => { x with busy := false }) else s.mul := by
  cases t with | mk pool rank => cases pool <;> rfl

@[simp] theorem freeSlot_load (s : State) (t : Tag) :
    (freeSlot s t).load = if t.pool = .load then s.load.modify t.rank (fun x => { x with busy := false }) else s.load := by
  cases t with | mk pool rank => cases pool <;> rfl

@[simp] theorem freeSlot_store (s : State) (t : Tag) :
    (freeSlot s t).store = if t.pool = .store then s.store.modify t.rank (fun x => { x with busy := false }) else s.store := by
  cases t with | mk pool rank => cases pool <;> rfl

@[simp] theorem freeSlot_pc (s : State) (t : Tag) :
    (freeSlot s t).pc = s.pc := by
  cases t with | mk pool rank => cases pool <;> rfl

@[simp] theorem freeSlot_cycle (s : State) (t : Tag) :
    (freeSlot s t).cycle = s.cycle := by
  cases t with | mk pool rank => cases pool <;> rfl

@[simp] theorem freeSlot_ts (s : State) (t : Tag) :
    (freeSlot s t).ts = s.ts := by
  cases t with | mk pool rank => cases pool <;> rfl

@[simp] theorem freeSlot_mem (s : State) (t : Tag) :
    (freeSlot s t).mem = s.mem := by
  cases t with | mk pool rank => cases pool <;> rfl

@[simp] theorem freeSlot_fault (s : State) (t : Tag) :
    (freeSlot s t).fault = s.fault := by
  cases t with | mk pool rank => cases pool <;> rfl

/-! `stampIssue` -/

@[simp] theorem stampIssue_cfg (s : State) (k : Nat) :
    (stampIssue s k).cfg = s.cfg := rfl

@[simp] theorem stampIssue_prog (s : State) (k : Nat) :
    (stampIssue s k).prog = s.prog := rfl

@[simp] theorem stampIssue_freg (s : State) (k : Nat) :
    (stampIssue s k).freg = s.freg := rfl

@[simp] theorem stampIssue_ireg (s : State) (k : Nat) :
    (stampIssue s k).ireg = s.ireg := rfl

@[simp] theorem stampIssue_add (s : State) (k : Nat) :
    (stampIssue s k).add = s.add := rfl

@[simp] theorem stampIssue_mul (s : State) (k : Nat) :
    (stampIssue s k).mul = s.mul := rfl

@[simp] theorem stampIssue_load (s : State) (k : Nat) :
    (stampIssue s k).load = s.load := rfl

@[simp] theorem stampIssue_store (s : State) (k : Nat) :
    (stampIssue s k).store = s.store := rfl

@[simp] theorem stampIssue_pc (s : State) (k : Nat) :
    (stampIssue s k).pc = s.pc := rfl

@[simp] theorem stampIssue_cycle (s : State) (k : Nat) :
    (stampIssue s k).cycle = s.cycle := rfl

@[simp] theorem stampIssue_ts (s : State) (k : Nat) :
    (stampIssue s k).ts = s.ts.modify k (fun x => { x with issue := s.cycle }) := rfl

@[simp] theorem stampIssue_mem (s : State) (k : Nat) :
    (stampIssue s k).mem = s.mem := rfl

@[simp] theorem stampIssue_fault (s : State) (k : Nat) :
    (stampIssue s k).fault = s.fault := rfl

/-! `stampExec` -/

@[simp] theorem stampExec_cfg (s : State) (k : Nat) :
    (stampExec s k).cfg = s.cfg := rfl

@[simp] theorem stampExec_prog (s : State) (k : Nat) :
    (stampExec s k).prog = s.prog := rfl

@[simp] theorem stampExec_freg (s : State) (k : Nat) :
    (stampExec s k).freg = s.freg := rfl

@[simp] theorem stampExec_ireg (s : State) (k : Nat) :
    (stampExec s k).ireg = s.ireg := rfl

@[simp] theorem stampExec_add (s : State) (k : Nat) :
    (stampExec s k).add = s.add := rfl

@[simp] theorem stampExec_mul (s : State) (k : Nat) :
    (stampExec s k).mul = s.mul := rfl

@[simp] theorem stampExec_load (s : State) (k : Nat) :
    (stampExec s k).load = s.load := rfl

@[simp] theorem stampExec_store (s : State) (k : Nat) :
    (stampExec s k).store = s.store := rfl

@[simp] theorem stampExec_pc (s : State) (k : Nat) :
    (stampExec s k).pc = s.pc := rfl

@[simp] theorem stampExec_cycle (s : State) (k : Nat) :
    (stampExec s k).cycle = s.cycle := rfl

@[simp] theorem stampExec_ts (s : State) (k : Nat) :
    (stampExec s k).ts = s.ts.modify k (fun x => { x with exec := s.cycle }) := rfl

@[simp] theorem stampExec_mem (s : State) (k : Nat) :
    (stampExec s k).mem = s.mem := rfl

@[simp] theorem stampExec_fault (s : State) (k : Nat) :
    (stampExec s k).fault = s.fault := rfl

/-! `stampWb` -/

@[simp] theorem stampWb_cfg (s : State) (k : Nat) :
    (stampWb s k).cfg = s.cfg := rfl

@[simp] theorem stampWb_prog (s : State) (k : Nat) :
    (stampWb s k).prog = s.prog := rfl

@[simp] theorem stampWb_freg (s : State) (k : Nat) :
    (stampWb s k).freg = s.freg := rfl

@[simp] theorem stampWb_ireg (s : State) (k : Nat) :
    (stampWb s k).ireg = s.ireg := rfl

@[simp] theorem stampWb_add (s : State) (k : Nat) :
    (stampWb s k).add = s.add := rfl

@[simp] theorem stampWb_mul (s : State) (k : Nat) :
    (stampWb s k).mul = s.mul := rfl

@[simp] theorem stampWb_load (s : State) (k : Nat) :
    (stampWb s k).load = s.load := rfl

@[simp] theorem stampWb_store (s : State) (k : Nat) :
    (stampWb s k).store = s.store := rfl

@[simp] theorem stampWb_pc (s : State) (k : Nat) :
    (stampWb s k).pc = s.pc := rfl

@[simp] theorem stampWb_cycle (s : State) (k : Nat) :
    (stampWb s k).cycle = s.cycle := rfl

@[simp] theorem stampWb_ts (s : State) (k : Nat) :
    (stampWb s k).ts = s.ts.modify k (fun x => { x with wb := s.cycle }) := rfl

@[simp] theorem stampWb_mem (s : State) (k : Nat) :
    (stampWb s k).mem = s.mem := rfl

@[simp] theorem stampWb_fault (s : State) (k : Nat) :
    (stampWb s k).fault = s.fault := rfl

/-! `advancePc` -/

@[simp] theorem advancePc_cfg (s : State) :
    (advancePc s).cfg = s.cfg := rfl

@[simp] theorem advancePc_prog (s : State) :
    (advancePc s).prog = s.prog := rfl

@[simp] theorem advancePc_freg (s : State) :
    (advancePc s).freg = s.freg := rfl

@[simp] theorem advancePc_ireg (s : State) :
    (advancePc s).ireg = s.ireg := rfl

@[simp] theorem advancePc_add (s : State) :
    (advancePc s).add = s.add := rfl

@[simp] theorem advancePc_mul (s : State) :
    (advancePc s).mul = s.mul := rfl

@[simp] theorem advancePc_load (s : State) :
    (advancePc s).load = s.load := rfl

@[simp] theorem advancePc_store (s : State) :
    (advancePc s).store = s.store := rfl

@[simp] theorem advancePc_pc (s : State) :
    (advancePc s).pc = s.pc + 1 := rfl

@[simp] theorem advancePc_cycle (s : State) :
    (advancePc s).cycle = s.cycle := rfl

@[simp] theorem advancePc_ts (s : State) :
    (advancePc s).ts = s.ts := rfl

@[simp] theorem advancePc_mem (s : State) :
    (advancePc s).mem = s.mem := rfl

@[simp] theorem advancePc_fault (s : State) :
    (advancePc s).fault = s.fault := rfl

/-! `advanceCycle` -/

@[simp] theorem advanceCycle_cfg (s : State) :
    (advanceCycle s).cfg = s.cfg := rfl

@[simp] theorem advanceCycle_prog (s : State) :
    (advanceCycle s).prog = s.prog := rfl

@[simp] theorem advanceCycle_freg (s : State) :
    (advanceCycle s).freg = s.freg := rfl

@[simp] theorem advanceCycle_ireg (s : State) :
    (advanceCycle s).ireg = s.ireg := rfl

@[simp] theorem advanceCycle_add (s : State) :
    (advanceCycle s).add = s.add := rfl

@[simp] theorem advanceCycle_mul (s : State) :
    (advanceCycle s).mul = s.mul := rfl

@[simp] theorem advanceCycle_load (s : State) :
    (advanceCycle s).load = s.load := rfl

@[simp] theorem advanceCycle_store (s : State) :
    (advanceCycle s).store = s.store := rfl

@[simp] theorem advanceCycle_pc (s : State) :
    (advanceCycle s).pc = s.pc := rfl

@[simp] theorem advanceCycle_cycle (s : State) :
    (advanceCycle s).cycle = s.cycle + 1 := rfl

@[simp] theorem advanceCycle_ts (s : State) :
    (advanceCycle s).ts = s.ts := rfl

@[simp] theorem advanceCycle_mem (s : State) :
    (advanceCycle s).mem = s.mem := rfl

@[simp] theorem advanceCycle_fault (s : State) :
    (advanceCycle s).fault = s.fault := rfl

/-! `raiseFault` -/

@[simp] theorem raiseFault_cfg (s : State) (f : FaultRecord) :
    (raiseFault s f).cfg = s.cfg := rfl

@[simp] theorem raiseFault_prog (s : State) (f : FaultRecord) :
    (raiseFault s f).prog = s.prog := rfl

@[simp] theorem raiseFault_freg (s : State) (f : FaultRecord) :
    (raiseFault s f).freg = s.freg := rfl

@[simp] theorem raiseFault_ireg (s : State) (f : FaultRecord) :
    (raiseFault s f).ireg = s.ireg := rfl

@[simp] theorem raiseFault_add (s : State) (f : FaultRecord) :
    (raiseFault s f).add = s.add := rfl

@[simp] theorem raiseFault_mul (s : State) (f : FaultRecord) :
    (raiseFault s f).mul = s.mul := rfl

@[simp] theorem raiseFault_load (s : State) (f : FaultRecord) :
    (raiseFault s f).load = s.load := rfl

@[simp] theorem raiseFault_store (s : State) (f : FaultRecord) :
    (raiseFault s f).store = s.store := rfl

@[simp] theorem raiseFault_pc (s : State) (f : FaultRecord) :
    (raiseFault s f).pc = s.pc := rfl

@[simp] theorem raiseFault_cycle (s : State) (f : FaultRecord) :
    (raiseFault s f).cycle = s.cycle := rfl

@[simp] theorem raiseFault_ts (s : State) (f : FaultRecord) :
    (raiseFault s f).ts = s.ts := rfl

@[simp] theorem raiseFault_mem (s : State) (f : FaultRecord) :
    (raiseFault s f).mem = s.mem := rfl

@[simp] theorem raiseFault_fault (s : State) (f : FaultRecord) :
    (raiseFault s f).fault = some f := rfl

/-! `broadcast` -/

@[simp] theorem broadcast_cfg (t : Tag) (v : Val) (s : State) :
    (broadcast t v s).cfg = s.cfg := rfl

@[simp] theorem broadcast_prog (t : Tag) (v : Val) (s : State) :
    (broadcast t v s).prog = s.prog := rfl

@[simp] theorem broadcast_freg (t : Tag) (v : Val) (s : State) :
    (broadcast t v s).freg = s.freg.map (Entry.forward t v) := rfl

@[simp] theorem broadcast_ireg (t : Tag) (v : Val) (s : State) :
    (broadcast t v s).ireg = s.ireg.map (Entry.forward t v) := rfl

@[simp] theorem broadcast_add (t : Tag) (v : Val) (s : State) :
    (broadcast t v s).add = s.add.map (ArithSlot.forward t v) := rfl

@[simp] theorem broadcast_mul (t : Tag) (v : Val) (s : State) :
    (broadcast t v s).mul = s.mul.map (ArithSlot.forward t v) := rfl

@[simp] theorem broadcast_load (t : Tag) (v : Val) (s : State) :
    (broadcast t v s).load = s.load := rfl

@[simp] theorem broadcast_store (t : Tag) (v : Val) (s : State) :
    (broadcast t v s).store = s.store.map (StoreSlot.forward t v) := rfl

@[simp] theorem broadcast_pc (t : Tag) (v : Val) (s : State) :
    (broadcast t v s).pc = s.pc := rfl

@[simp] theorem broadcast_cycle (t : Tag) (v : Val) (s : State) :
    (broadcast t v s).cycle = s.cycle := rfl

@[simp] theorem broadcast_ts (t : Tag) (v : Val) (s : State) :
    (broadcast t v s).ts = s.ts := rfl

@[simp] theorem broadcast_mem (t : Tag) (v : Val) (s : State) :
    (broadcast t v s).mem = s.mem := rfl

@[simp] theorem broadcast_fault (t : Tag) (v : Val) (s : State) :
    (broadcast t v s).fault = s.fault := rfl

/-! `retire` -/

@[simp] theorem retire_cfg (t : Tag) (k : Nat) (s : State) :
    (retire t k s).cfg = s.cfg := by
  cases t with | mk pool rank => cases pool <;> rfl

@[simp] theorem retire_prog (t : Tag) (k : Nat) (s : State) :
    (retire t k s).prog = s.prog := by
  cases t with | mk pool rank => cases pool <;> rfl

@[simp] theorem retire_freg (t : Tag) (k : Nat) (s : State) :
    (retire t k s).freg = s.freg := by
  cases t with | mk pool rank => cases pool <;> rfl

@[simp] theorem retire_ireg (t : Tag) (k : Nat) (s : State) :
    (retire t k s).ireg = s.ireg := by
  cases t with | mk pool rank => cases pool <;> rfl

@[simp] theorem retire_add (t : Tag) (k : Nat) (s : State) :
    (retire t k s).add = if t.pool = .add then s.add.modify t.rank (fun x => { x with busy := false }) else s.add := by
  cases t with | mk pool rank => cases pool <;> rfl

@[simp] theorem retire_mul (t : Tag) (k : Nat) (s : State) :
    (retire t k s).mul = if t.pool = .mul then s.mul.modify t.rank (fun x => { x with busy := false }) else s.mul := by
  cases t with | mk pool rank => cases pool <;> rfl

@[simp] theorem retire_load (t : Tag) (k : Nat) (s : State) :
    (retire t k s).load = if t.pool = .load then s.load.modify t.rank (fun x => { x with busy := false }) else s.load := by
  cases t with | mk pool rank => cases pool <;> rfl

@[simp] theorem retire_store (t : Tag) (k : Nat) (s : State) :
    (retire t k s).store = if t.pool = .store then s.store.modify t.rank (fun x => { x with busy := false }) else s.store := by
  cases t with | mk pool rank => cases pool <;> rfl

@[simp] theorem retire_pc (t : Tag) (k : Nat) (s : State) :
    (retire t k s).pc = s.pc := by
  cases t with | mk pool rank => cases pool <;> rfl

@[simp] theorem retire_cycle (t : Tag) (k : Nat) (s : State) :
    (retire t k s).cycle = s.cycle := by
  cases t with | mk pool rank => cases pool <;> rfl

@[simp] theorem retire_ts (t : Tag) (k : Nat) (s : State) :
    (retire t k s).ts = s.ts.modify k (fun x => { x with wb := s.cycle }) := by
  cases t with | mk pool rank => cases pool <;> rfl

@[simp] theorem retire_mem (t : Tag) (k : Nat) (s : State) :
    (retire t k s).mem = s.mem := by
  cases t with | mk pool rank => cases pool <;> rfl

@[simp] theorem retire_fault (t : Tag) (k : Nat) (s : State) :
    (retire t k s).fault = s.fault := by
  cases t with | mk pool rank => cases pool <;> rfl

/-! `decrementTimers` -/

@[simp] theorem decrementTimers_cfg (s : State) :
    (decrementTimers s).cfg = s.cfg := rfl

@[simp] theorem decrementTimers_prog (s : State) :
    (decrementTimers s).prog = s.prog := rfl

@[simp] theorem decrementTimers_freg (s : State) :
    (decrementTimers s).freg = s.freg := rfl

@[simp] theorem decrementTimers_ireg (s : State) :
    (decrementTimers s).ireg = s.ireg := rfl

@[simp] theorem decrementTimers_add (s : State) :
    (decrementTimers s).add = s.add.map (ArithSlot.countdown s.ts s.cycle) := rfl

@[simp] theorem decrementTimers_mul (s : State) :
    (decrementTimers s).mul = s.mul.map (ArithSlot.countdown s.ts s.cycle) := rfl

@[simp] theorem decrementTimers_load (s : State) :
    (decrementTimers s).load = s.load.map (LoadSlot.countdown s.ts s.cycle) := rfl

@[simp] theorem decrementTimers_store (s : State) :
    (decrementTimers s).store = s.store.map (StoreSlot.countdown s.ts s.cycle) := rfl

@[simp] theorem decrementTimers_pc (s : State) :
    (decrementTimers s).pc = s.pc := rfl

@[simp] theorem decrementTimers_cycle (s : State) :
    (decrementTimers s).cycle = s.cycle := rfl

@[simp] theorem decrementTimers_ts (s : State) :
    (decrementTimers s).ts = s.ts := rfl

@[simp] theorem decrementTimers_mem (s : State) :
    (decrementTimers s).mem = s.mem := rfl

@[simp] theorem decrementTimers_fault (s : State) :
    (decrementTimers s).fault = s.fault := rfl

end Sys2Proof.Machine
end

