-- ==== Sys2Proof/Laws/Slots.lean ====
section
/-! SUPPORT. Slots by tag: the scan order, and what each update of the pools does to a slot's view and its
operand registers. -/

namespace Sys2Proof.Machine

/-- The scan order lists exactly the slots there are. -/
theorem mem_scanOrder {s : State} {t : Tag} : t ∈ scanOrder s ↔ (slotView s t).isSome = true := by
  cases t with | mk pool rank =>
  cases pool <;> simp [scanOrder, slotView]

/-- It lists each of them once (R157, 42_writeback_broadcast). -/
theorem nodup_scanOrder (s : State) : (scanOrder s).Nodup := by
  have hinj : ∀ p : Pool, Function.Injective (fun i : Nat => ({ pool := p, rank := i } : Tag)) :=
    fun p a b h => by simpa using h
  have hmap : ∀ (p : Pool) (n : Nat),
      ((List.range n).map (fun i => ({ pool := p, rank := i } : Tag))).Nodup :=
    fun p n => List.nodup_range.map (hinj p)
  unfold scanOrder
  simp only [List.nodup_append, hmap, List.mem_append, List.mem_map, List.mem_range, true_and]
  refine ⟨⟨?_, ?_⟩, ?_⟩ <;> grind

/-- The view of a slot depends on the pools alone. -/
theorem slotView_congr {s t : State} (ha : t.add = s.add) (hm : t.mul = s.mul) (hl : t.load = s.load)
    (hs : t.store = s.store) (u : Tag) : slotView t u = slotView s u := by
  simp [slotView, ha, hm, hl, hs]

/-- The operand registers of a slot depend on the pools alone. -/
theorem slotOperands_congr {s t : State} (ha : t.add = s.add) (hm : t.mul = s.mul)
    (hs : t.store = s.store) (u : Tag) : slotOperands t u = slotOperands s u := by
  simp [slotOperands, ha, hm, hs]

/-- Freeing a slot clears its `busy` and nothing else of it (R159, 42_writeback_broadcast). -/
theorem slotView_freeSlot_same (s : State) (t : Tag) :
    slotView (freeSlot s t) t = (slotView s t).map (fun x => { x with busy := false }) := by
  cases t with | mk pool rank =>
  cases pool <;> simp [slotView, freeSlot] <;> rfl

/-- Freeing a slot leaves every other slot alone. -/
theorem slotView_freeSlot_other {s : State} {t u : Tag} (h : u ≠ t) :
    slotView (freeSlot s t) u = slotView s u := by
  cases t with | mk pool rank =>
  cases u with | mk pool' rank' =>
  have hr : pool' = pool → rank ≠ rank' := by
    rintro rfl rfl
    exact h rfl
  cases pool <;> cases pool' <;> simp_all [slotView, freeSlot]

/-- Freeing a slot changes no operand register. -/
theorem slotOperands_freeSlot (s : State) (t u : Tag) :
    slotOperands (freeSlot s t) u = slotOperands s u := by
  cases t with | mk pool rank =>
  cases u with | mk pool' rank' =>
  cases pool <;> cases pool' <;> simp only [slotOperands, freeSlot] <;>
    rw [List.getElem?_modify] <;> split <;> simp_all [Option.map_eq_some_iff] <;> grind

/-- A transaction changes of a view at most whether the slot is ready. -/
theorem slotView_broadcast {t : Tag} {v : Val} {s : State} {u : Tag} {y : SlotView}
    (h : slotView (broadcast t v s) u = some y) :
    ∃ x, slotView s u = some x ∧ y.busy = x.busy ∧ y.timer = x.timer ∧ y.owner = x.owner := by
  cases u with | mk pool rank =>
  cases pool <;> simp only [slotView, broadcast_add, broadcast_mul, broadcast_load, broadcast_store,
    List.getElem?_map, Option.map_map, Option.map_eq_some_iff, Function.comp] at h <;>
    obtain ⟨x, hx, rfl⟩ := h
  · exact ⟨x.view, by simp [slotView, hx], by unfold ArithSlot.forward; split <;> exact ⟨rfl, rfl, rfl⟩⟩
  · exact ⟨x.view, by simp [slotView, hx], by unfold ArithSlot.forward; split <;> exact ⟨rfl, rfl, rfl⟩⟩
  · exact ⟨x.view, by simp [slotView, hx], rfl, rfl, rfl⟩
  · exact ⟨x.view, by simp [slotView, hx], by unfold StoreSlot.forward; split <;> exact ⟨rfl, rfl, rfl⟩⟩

/-- A transaction neither makes nor removes a slot. -/
theorem isSome_slotView_broadcast (t : Tag) (v : Val) (s : State) (u : Tag) :
    (slotView (broadcast t v s) u).isSome = (slotView s u).isSome := by
  cases u with | mk pool rank =>
  cases pool <;> simp [slotView]

/-- The operand registers after a transaction: forwarded in a busy slot, unchanged in a free one (R164,
42_writeback_broadcast). -/
theorem slotOperands_broadcast {t : Tag} {v : Val} {s : State} {u : Tag} {x : SlotView}
    (h : slotView s u = some x) :
    slotOperands (broadcast t v s) u =
      if x.busy then (slotOperands s u).map (Entry.forward t v) else slotOperands s u := by
  cases u with | mk pool rank =>
  cases pool <;> simp only [slotView, Option.map_eq_some_iff] at h <;> obtain ⟨y, hy, rfl⟩ := h
  · cases hb : y.busy <;> simp [slotOperands, hy, ArithSlot.forward, ArithSlot.view, hb]
  · cases hb : y.busy <;> simp [slotOperands, hy, ArithSlot.forward, ArithSlot.view, hb]
  · simp [slotOperands]
  · cases hb : y.busy <;> simp [slotOperands, hy, StoreSlot.forward, StoreSlot.view, hb]

/-- What the countdown does to each slot's view. -/
theorem slotView_decrementTimers (s : State) (u : Tag) :
    slotView (decrementTimers s) u = (slotView s u).map (SlotView.countdown s.ts s.cycle) := by
  cases u with | mk pool rank =>
  cases pool <;> simp only [slotView, decrementTimers_add, decrementTimers_mul, decrementTimers_load,
    decrementTimers_store, List.getElem?_map, Option.map_map] <;>
    refine congrArg (fun f => Option.map f _) (funext fun x => ?_) <;>
    simp only [Function.comp, SlotView.countdown, ArithSlot.countdown, LoadSlot.countdown,
      StoreSlot.countdown] <;>
    split <;> rfl

/-- The countdown changes no operand register (R140, 41_countdown). -/
theorem slotOperands_decrementTimers (s : State) (u : Tag) :
    slotOperands (decrementTimers s) u = slotOperands s u := by
  have harith : ∀ x : ArithSlot, (x.countdown s.ts s.cycle).j = x.j ∧ (x.countdown s.ts s.cycle).k = x.k := by
    intro x
    unfold ArithSlot.countdown
    split <;> exact ⟨rfl, rfl⟩
  have hstore : ∀ x : StoreSlot, (x.countdown s.ts s.cycle).j = x.j := by
    intro x
    unfold StoreSlot.countdown
    split <;> rfl
  cases u with | mk pool rank =>
  cases pool <;> simp only [slotOperands, decrementTimers_add, decrementTimers_mul, decrementTimers_store,
    List.getElem?_map]
  · cases s.add[rank]? <;> simp [harith]
  · cases s.mul[rank]? <;> simp [harith]
  · cases s.store[rank]? <;> simp [hstore]

/-- The eligible slots are those of the state whose countdown completes (R144, 41_countdown). -/
theorem mem_eligible {s : State} {t : Tag} :
    t ∈ eligible s ↔ ∃ x, slotView s t = some x ∧ completes s.ts s.cycle x = true := by
  simp only [eligible, List.mem_filter, mem_scanOrder, eligibleIn]
  cases slotView s t <;> simp

end Sys2Proof.Machine
end

