-- ==== Sys2Proof/Laws/Countdown.lean ====
section
/-! SUPPORT. The countdown phase (R140 to R147, 41_countdown): what it leaves alone, the stamps it writes,
and the eligible slots it hands on. -/

namespace Sys2Proof.Machine

/-- Stamping owners changes the timestamp table alone. -/
theorem stampExecs_eq (l : List Nat) (s : State) :
    stampExecs l s = { s with ts := (stampExecs l s).ts } := by
  induction l generalizing s with
  | nil => rfl
  | cons k l ih => exact ih (stampExec s k)

/-- A record whose index is stamped completes in this cycle; every other one's timestamps are as before
(R144, 41_countdown). -/
theorem getElem?_stampExecs (l : List Nat) (s : State) (k : Nat) :
    (stampExecs l s).ts[k]? =
      if k ∈ l then s.ts[k]?.map (fun x => { x with exec := s.cycle }) else s.ts[k]? := by
  induction l generalizing s with
  | nil => simp [stampExecs]
  | cons m l ih =>
    have hstep : stampExecs (m :: l) s = stampExecs l (stampExec s m) := rfl
    rw [hstep, ih]
    simp only [stampExec_ts, stampExec_cycle, List.getElem?_modify, List.mem_cons]
    by_cases hm : m = k
    · subst hm
      by_cases hl : m ∈ l <;> simp [hl, Function.comp_def]
    · by_cases hl : k ∈ l <;> simp [hl, hm, Ne.symm hm]

/-- The state after the phase: timers counted, completions stamped, all else as before (R140,
41_countdown). -/
theorem countdownPhase_eq (s : State) :
    (countdownPhase s).1 =
      { decrementTimers s with ts := (countdownPhase s).1.ts } :=
  stampExecs_eq _ (decrementTimers s)

/-- The timestamps after the phase. -/
theorem getElem?_countdownPhase_ts (s : State) (k : Nat) :
    (countdownPhase s).1.ts[k]? =
      if k ∈ (eligible s).filterMap (ownerOf s) then s.ts[k]?.map (fun x => { x with exec := s.cycle })
      else s.ts[k]? :=
  getElem?_stampExecs _ (decrementTimers s) k

/-- The slots after the phase. -/
theorem slotView_countdownPhase (s : State) (t : Tag) :
    slotView (countdownPhase s).1 t = (slotView s t).map (SlotView.countdown s.ts s.cycle) := by
  rw [countdownPhase_eq]
  exact (slotView_congr rfl rfl rfl rfl t).trans (slotView_decrementTimers s t)

/-- The operand registers after the phase. -/
theorem slotOperands_countdownPhase (s : State) (t : Tag) :
    slotOperands (countdownPhase s).1 t = slotOperands s t := by
  rw [countdownPhase_eq]
  exact (slotOperands_congr rfl rfl rfl t).trans (slotOperands_decrementTimers s t)

/-- The scan order is the same after the phase. -/
theorem scanOrder_countdownPhase (s : State) : scanOrder (countdownPhase s).1 = scanOrder s := by
  rw [countdownPhase_eq]
  simp [scanOrder]

/-- The write-back phase scans exactly the eligible slots, in the scan order (R157,
42_writeback_broadcast). -/
theorem scan_countdownPhase (s : State) :
    (scanOrder (countdownPhase s).1).filter (fun t => decide (t ∈ (countdownPhase s).2)) = eligible s := by
  rw [scanOrder_countdownPhase]
  refine List.filter_congr fun t ht => ?_
  show decide (t ∈ (scanOrder s).filter (eligibleIn s)) = eligibleIn s t
  simp [List.mem_filter, ht]

end Sys2Proof.Machine
end

