-- ==== Sys2Proof/Laws/Driver.lean ====
section
/-! SUPPORT. What the driver can do. -/

namespace Sys2Proof.Machine

theorem driverStops_eq_false {s : State} : driverStops s = false ↔ done s = false ∧ s.fault = none := by
  simp [driverStops]

@[simp] theorem drive_zero (s : State) : drive 0 s = .next s := rfl

/-- A driver that stops runs no cycle. -/
theorem drive_of_stops {s : State} (n : Nat) (h : driverStops s = true) : drive n s = .next s := by
  cases n <;> simp [drive, h]

/-- Otherwise it makes one step and goes on. -/
theorem drive_succ {s : State} (n : Nat) (h : driverStops s = false) :
    drive (n + 1) s = andThen (step s) (drive n) := by
  simp [drive, h]

end Sys2Proof.Machine
end

