-- ==== Sys2Proof/Laws/Outcome.lean ====
section
/-! SUPPORT. Outcomes in sequence. -/

namespace Sys2Proof.Machine

@[simp] theorem andThen_next {α β : Type} (a : α) (f : α → Host.Outcome β Fault Refusal) :
    andThen (.next a) f = f a := rfl

@[simp] theorem andThen_fault {α β : Type} (e : Fault) (f : α → Host.Outcome β Fault Refusal) :
    andThen (.fault e) f = .fault e := rfl

@[simp] theorem andThen_refused {α β : Type} (e : Refusal) (f : α → Host.Outcome β Fault Refusal) :
    andThen (.refused e) f = .refused e := rfl

/-- A sequence answers a next state exactly where both parts do. -/
theorem andThen_eq_next {α β : Type} {o : Host.Outcome α Fault Refusal}
    {f : α → Host.Outcome β Fault Refusal} {b : β} :
    andThen o f = .next b ↔ ∃ a, o = .next a ∧ f a = .next b := by
  cases o <;> simp [andThen]

end Sys2Proof.Machine
end

