-- ==== Sys2Proof/Laws/Registers.lean ====
section
/-! SUPPORT. The register-status table under its two updates: a renaming and a bus transaction. -/

namespace Sys2Proof.Machine

/-- A written register reads as the entry written, where it exists. -/
theorem readReg_writeReg_same {s : State} {q : RegName} {e o : Entry} (h : readReg s q = some o) :
    readReg (writeReg s q e) q = some e := by
  cases q with | mk file idx =>
  cases file <;>
    · simp only [readReg, writeReg] at h ⊢
      rw [List.getElem?_set_self (List.getElem?_eq_some_iff.1 h).1]

/-- Every other register is as before. -/
theorem readReg_writeReg_other {s : State} {q p : RegName} (e : Entry) (h : p ≠ q) :
    readReg (writeReg s q e) p = readReg s p := by
  cases q with | mk file idx =>
  cases p with | mk file' idx' =>
  cases file <;> cases file' <;> simp only [readReg, writeReg]
  · rw [List.getElem?_set_ne]
    rintro rfl
    exact h rfl
  · rw [List.getElem?_set_ne]
    rintro rfl
    exact h rfl

/-- Renaming makes and removes no register. -/
theorem isSome_readReg_writeReg (s : State) (q p : RegName) (e : Entry) :
    (readReg (writeReg s q e) p).isSome = (readReg s p).isSome := by
  rw [Bool.eq_iff_iff]
  cases q with | mk file idx =>
  cases p with | mk file' idx' =>
  cases file <;> cases file' <;> simp [readReg, writeReg]

/-- A transaction forwards to every register of both files (R165, 42_writeback_broadcast). -/
theorem readReg_broadcast (t : Tag) (v : Val) (s : State) (q : RegName) :
    readReg (broadcast t v s) q = (readReg s q).map (Entry.forward t v) := by
  cases q with | mk file idx =>
  cases file <;> simp [readReg]

/-- The names of the registers are those that read. -/
theorem mem_regNames {s : State} {q : RegName} : q ∈ regNames s ↔ (readReg s q).isSome = true := by
  cases q with | mk file idx =>
  cases file <;> simp [regNames, readReg]

/-- A register that updates of slots, stamps, memory or counters leave alone: only `freg` and `ireg` are
read. -/
theorem readReg_congr {s t : State} (hf : t.freg = s.freg) (hr : t.ireg = s.ireg) (q : RegName) :
    readReg t q = readReg s q := by
  simp [readReg, hf, hr]

end Sys2Proof.Machine
end

