-- ==== Sys2Proof/Laws/Issue.lean ====
section
/-! SUPPORT. Everything the issue of an instruction can do (R111 to R121, 40_issue): one lemma per class,
then one for all. -/

namespace Sys2Proof.Machine

/-- The issue of an arithmetic instruction: a stall, or one allocation. -/
theorem issueArith_eq_next {op : Opcode} {rd rs1 rs2 : RegName} {s t : State}
    (h : issueArith op rd rs1 rs2 s = .next t) :
    ∃ j k e, readReg s rs1 = some j ∧ readReg s rs2 = some k ∧ readReg s rd = some e ∧
      ((leastFree s (classOf op) = none ∧ t = s) ∨
       ∃ r, leastFree s (classOf op) = some r ∧
        t = advancePc (writeReg
          (stampIssue (putArithSlot s (classOf op) r (allocatedArith s op j k)) s.pc)
          rd (.tag { pool := classOf op, rank := r }))) := by
  unfold issueArith at h
  split at h
  next j k e hj hk he =>
    refine ⟨j, k, e, hj, hk, he, ?_⟩
    split at h
    next hr =>
      cases h
      exact .inl ⟨hr, rfl⟩
    next r hr =>
      cases h
      exact .inr ⟨r, hr, rfl⟩
  next => cases h

/-- The issue of a load: a stall, or one allocation. -/
theorem execLd_eq_next {rd : RegName} {addr : Nat} {s t : State} (h : execLd rd addr s = .next t) :
    ∃ e, readReg s rd = some e ∧ addr < s.cfg.memSize ∧
      ((leastFree s .load = none ∧ t = s) ∨
       ∃ r, leastFree s .load = some r ∧
        t = advancePc (writeReg (stampIssue (putLoadSlot s r (allocatedLoad s addr)) s.pc)
          rd (.tag { pool := .load, rank := r }))) := by
  unfold execLd effectiveAddr at h
  split at h
  next e a he ha =>
    split at ha
    next hlt =>
      cases ha
      refine ⟨e, he, hlt, ?_⟩
      split at h
      next hr =>
        cases h
        exact .inl ⟨hr, rfl⟩
      next r hr =>
        cases h
        exact .inr ⟨r, hr, rfl⟩
    next => cases ha
  next => cases h

/-- The issue of a store: a stall, or one allocation that renames nothing. -/
theorem execSt_eq_next {rs : RegName} {addr : Nat} {s t : State} (h : execSt rs addr s = .next t) :
    ∃ j, readReg s rs = some j ∧ addr < s.cfg.memSize ∧
      ((leastFree s .store = none ∧ t = s) ∨
       ∃ r, leastFree s .store = some r ∧
        t = advancePc (stampIssue (putStoreSlot s r (allocatedStore s j addr)) s.pc)) := by
  unfold execSt effectiveAddr at h
  split at h
  next e a he ha =>
    split at ha
    next hlt =>
      cases ha
      refine ⟨e, he, hlt, ?_⟩
      split at h
      next hr =>
        cases h
        exact .inl ⟨hr, rfl⟩
      next r hr =>
        cases h
        exact .inr ⟨r, hr, rfl⟩
    next => cases ha
  next => cases h

/-- What no issue changes: the parameters, the program, the cycle, the memory, the fault latch, and the
lengths of every list. -/
structure IssueKeeps (s t : State) : Prop where
  cfg   : t.cfg = s.cfg
  prog  : t.prog = s.prog
  cycle : t.cycle = s.cycle
  mem   : t.mem = s.mem
  fault : t.fault = s.fault
  add   : t.add.length = s.add.length
  mul   : t.mul.length = s.mul.length
  load  : t.load.length = s.load.length
  store : t.store.length = s.store.length
  freg  : t.freg.length = s.freg.length
  ireg  : t.ireg.length = s.ireg.length
  ts    : t.ts.length = s.ts.length

/-- Every instruction keeps them. -/
theorem exec_keeps {i : Instr} {s t : State} (h : exec i s = .next t) : IssueKeeps s t := by
  have harith : ∀ {op rd rs1 rs2}, issueArith op rd rs1 rs2 s = .next t → IssueKeeps s t := by
    intro op rd rs1 rs2 h
    obtain ⟨j, k, e, -, -, -, ⟨-, rfl⟩ | ⟨r, -, rfl⟩⟩ := issueArith_eq_next h
    · constructor <;> rfl
    · constructor <;> simp <;> split <;> simp
  cases i with
  | ld rd addr =>
    obtain ⟨e, -, -, ⟨-, rfl⟩ | ⟨r, -, rfl⟩⟩ := execLd_eq_next h
    · constructor <;> rfl
    · constructor <;> simp <;> split <;> simp
  | st rs addr =>
    obtain ⟨j, -, -, ⟨-, rfl⟩ | ⟨r, -, rfl⟩⟩ := execSt_eq_next h
    · constructor <;> rfl
    · constructor <;> simp
  | addd rd rs1 rs2 => exact harith h
  | subd rd rs1 rs2 => exact harith h
  | multd rd rs1 rs2 => exact harith h
  | divd rd rs1 rs2 => exact harith h

end Sys2Proof.Machine
end

