-- ==== Sys2Proof/Laws/Memory.lean ====
section
/-! SUPPORT. The memory list: reads after writes, and that every write keeps the canonical form and stays
inside the array. -/

namespace Sys2Proof.Machine

/-- What the canonical form says of a list with a head. -/
theorem Memory.wf_cons {a : Nat} {v : Val} {m : Memory} :
    Memory.wf ((a, v) :: m) = true ↔
      v ≠ unlistedCell a ∧ (∀ c ∈ m, a < c.1) ∧ Memory.wf m = true := by
  simp [Memory.wf, and_assoc]

/-- A cell below every listed one is unlisted. -/
theorem Memory.read_of_lt {m : Memory} {a : Nat} (h : ∀ c ∈ m, a < c.1) :
    Memory.read m a = unlistedCell a := by
  induction m with
  | nil => rfl
  | cons c m ih =>
    have hc : a < c.1 := h c (by simp)
    rw [Memory.read, if_neg (by omega)]
    exact ih fun d hd => h d (by simp [hd])

/-- A written cell reads as the value written. -/
theorem Memory.read_write_same {m : Memory} (a : Nat) (v : Val) (h : Memory.wf m = true) :
    Memory.read (Memory.write m a v) a = v := by
  induction m with
  | nil =>
    by_cases hv : v = unlistedCell a
    · simp [Memory.write, hv, Memory.read]
    · simp [Memory.write, hv, Memory.read]
  | cons c m ih =>
    obtain ⟨b, w⟩ := c
    obtain ⟨hw, hlt, hm⟩ := Memory.wf_cons.1 h
    unfold Memory.write
    by_cases hab : a < b
    · have hnot : Memory.read ((b, w) :: m) a = unlistedCell a :=
        Memory.read_of_lt fun c hc => by
          rcases List.mem_cons.1 hc with rfl | hc
          · exact hab
          · exact hab.trans (hlt c hc)
      by_cases hv : v = unlistedCell a
      · simp [hab, hv, hnot]
      · simp [hab, hv, Memory.read]
    · by_cases he : a = b
      · subst he
        by_cases hv : v = unlistedCell a
        · simp [hv, Memory.read_of_lt hlt]
        · simp [hv, Memory.read]
      · simp [hab, he, Memory.read, Ne.symm he, ih hm]

/-- A write leaves every other cell alone (R63, 20_memory). -/
theorem Memory.read_write_other {m : Memory} {a b : Nat} (v : Val) (h : b ≠ a) :
    Memory.read (Memory.write m a v) b = Memory.read m b := by
  induction m with
  | nil =>
    by_cases hv : v = unlistedCell a
    · simp [Memory.write, hv]
    · simp [Memory.write, hv, Memory.read, Ne.symm h]
  | cons c m ih =>
    obtain ⟨d, w⟩ := c
    unfold Memory.write
    by_cases had : a < d
    · by_cases hv : v = unlistedCell a
      · simp [had, hv]
      · simp [had, hv, Memory.read, Ne.symm h]
    · by_cases he : a = d
      · subst he
        by_cases hv : v = unlistedCell a
        · simp [hv, Memory.read, Ne.symm h]
        · simp [hv, Memory.read, Ne.symm h]
      · simp [had, he, Memory.read, ih]

/-- Every cell a write lists was listed before or is the written one. -/
theorem Memory.mem_write {m : Memory} {a : Nat} {v : Val} {c : Nat × Val}
    (h : c ∈ Memory.write m a v) : c ∈ m ∨ c.1 = a := by
  induction m with
  | nil =>
    by_cases hv : v = unlistedCell a
    · simp [Memory.write, hv] at h
    · simp [Memory.write, hv] at h
      simp [h]
  | cons d m ih =>
    obtain ⟨b, w⟩ := d
    unfold Memory.write at h
    split at h
    · split at h
      · exact .inl h
      · rcases List.mem_cons.1 h with rfl | h
        · exact .inr rfl
        · exact .inl h
    · split at h
      · split at h
        · exact .inl (by simp [h])
        · rcases List.mem_cons.1 h with rfl | h
          · exact .inr rfl
          · exact .inl (by simp [h])
      · rcases List.mem_cons.1 h with rfl | h
        · exact .inl (by simp)
        · rcases ih h with h | h
          · exact .inl (by simp [h])
          · exact .inr h

/-- A write keeps the canonical form. -/
theorem Memory.wf_write {m : Memory} (a : Nat) (v : Val) (h : Memory.wf m = true) :
    Memory.wf (Memory.write m a v) = true := by
  induction m with
  | nil =>
    by_cases hv : v = unlistedCell a
    · simp [Memory.write, hv, Memory.wf]
    · simp [Memory.write, hv, Memory.wf]
  | cons c m ih =>
    obtain ⟨b, w⟩ := c
    obtain ⟨hw, hlt, hm⟩ := Memory.wf_cons.1 h
    unfold Memory.write
    by_cases hab : a < b
    · by_cases hv : v = unlistedCell a
      · simpa [hab, hv] using h
      · simp only [hab, hv, if_true, if_false]
        refine Memory.wf_cons.2 ⟨hv, fun c hc => ?_, h⟩
        rcases List.mem_cons.1 hc with rfl | hc
        · exact hab
        · exact hab.trans (hlt c hc)
    · by_cases he : a = b
      · subst he
        by_cases hv : v = unlistedCell a
        · simpa [hv] using hm
        · simp only [lt_irrefl, hv, if_true, if_false]
          exact Memory.wf_cons.2 ⟨hv, hlt, hm⟩
      · simp only [hab, he, if_false]
        refine Memory.wf_cons.2 ⟨hw, fun c hc => ?_, ih hm⟩
        rcases Memory.mem_write hc with hc | hc
        · exact hlt c hc
        · omega

/-- A write inside the array lists only cells of the array. -/
theorem Memory.inside_write {m : Memory} {n a : Nat} (v : Val) (h : Memory.inside n m = true) (ha : a < n) :
    Memory.inside n (Memory.write m a v) = true := by
  simp only [Memory.inside, List.all_eq_true, decide_eq_true_eq] at h ⊢
  intro c hc
  rcases Memory.mem_write hc with hc | hc
  · exact h c hc
  · omega

/-- Two lists in canonical form that read alike everywhere are equal. -/
theorem Memory.ext_of_read {m n : Memory} (hm : Memory.wf m = true) (hn : Memory.wf n = true)
    (h : ∀ a, Memory.read m a = Memory.read n a) : m = n := by
  induction m generalizing n with
  | nil =>
    cases n with
    | nil => rfl
    | cons c n =>
      obtain ⟨hw, -, -⟩ := Memory.wf_cons.1 hn
      have := h c.1
      simp [Memory.read] at this
      exact absurd this.symm hw
  | cons c m ih =>
    obtain ⟨a, v⟩ := c
    obtain ⟨hv, hlt, hm'⟩ := Memory.wf_cons.1 hm
    cases n with
    | nil =>
      have := h a
      simp [Memory.read] at this
      exact absurd this hv
    | cons d n =>
      obtain ⟨b, w⟩ := d
      obtain ⟨hw, hlt', hn'⟩ := Memory.wf_cons.1 hn
      have hab : a = b := by
        rcases Nat.lt_trichotomy a b with hab | hab | hab
        · have h1 := h a
          have h2 : Memory.read ((b, w) :: n) a = unlistedCell a :=
            Memory.read_of_lt fun c hc => by
              rcases List.mem_cons.1 hc with rfl | hc
              · exact hab
              · exact hab.trans (hlt' c hc)
          rw [h2] at h1
          simp [Memory.read] at h1
          exact absurd h1 hv
        · exact hab
        · have h1 := h b
          have h2 : Memory.read ((a, v) :: m) b = unlistedCell b :=
            Memory.read_of_lt fun c hc => by
              rcases List.mem_cons.1 hc with rfl | hc
              · exact hab
              · exact hab.trans (hlt c hc)
          rw [h2] at h1
          simp [Memory.read] at h1
          exact absurd h1.symm hw
      subst hab
      have hvw : v = w := by simpa [Memory.read] using h a
      subst hvw
      refine congrArg _ (ih hm' hn' fun c => ?_)
      by_cases hc : c = a
      · subst hc
        rw [Memory.read_of_lt hlt, Memory.read_of_lt hlt']
      · simpa [Memory.read, Ne.symm hc] using h c

/-- `MEM_INIT` gives an array in canonical form. -/
theorem memInitArray_wf (cfg : Config) : Memory.wf (memInitArray cfg) = true := by
  suffices h : ∀ (l : List (Nat × Val)) (m : Memory), Memory.wf m = true →
      Memory.wf (l.foldl (fun m c => if c.1 < cfg.memSize then Memory.write m c.1 c.2 else m) m) = true from
    h cfg.memInit [] rfl
  intro l
  induction l with
  | nil => exact fun m hm => hm
  | cons c l ih =>
    intro m hm
    refine ih _ ?_
    dsimp only
    split
    · exact Memory.wf_write c.1 c.2 hm
    · exact hm

/-- `MEM_INIT` names only cells of the array. -/
theorem memInitArray_inside (cfg : Config) : Memory.inside cfg.memSize (memInitArray cfg) = true := by
  suffices h : ∀ (l : List (Nat × Val)) (m : Memory), Memory.inside cfg.memSize m = true →
      Memory.inside cfg.memSize
        (l.foldl (fun m c => if c.1 < cfg.memSize then Memory.write m c.1 c.2 else m) m) = true from
    h cfg.memInit [] rfl
  intro l
  induction l with
  | nil => exact fun m hm => hm
  | cons c l ih =>
    intro m hm
    refine ih _ ?_
    dsimp only
    split
    · exact Memory.inside_write c.2 hm ‹_›
    · exact hm

/-- The memory after reset is in canonical form. -/
theorem reset_mem_wf : Memory.wf State.reset.mem = true := rfl

/-- `MemWrite` keeps the canonical form of the state's memory. -/
theorem memWrite_wf {s t : State} {a : Nat} {v : Val} (h : memWrite s a v = some t)
    (hm : Memory.wf s.mem = true) : Memory.wf t.mem = true := by
  simp only [memWrite] at h
  split at h
  · cases h
    exact Memory.wf_write a v hm
  · cases h

end Sys2Proof.Machine
end

