-- ==== Sys2Proof/Laws/PerInstr.lean ====
section
/-! SUPPORT. Statements made per instruction: the encoder meets the decoder's table (R86, 30_encoding). -/

namespace Sys2Proof.Laws

/-- A word of format M keeps its opcode's match under its mask. -/
theorem encodeM_masked (op : Opcode) (q : RegName) (addr : Nat) :
    encodeM op q addr &&& 0xE0000000#32 = (opcodeCode op ++ 0#29 : BitVec 32) := by
  unfold encodeM
  generalize opcodeCode op = c, specOfReg q = r, BitVec.ofNat 23 addr = a
  refine BitVec.eq_of_getLsbD_eq fun i hi => ?_
  have h : (0xE0000000#32).getLsbD i = decide (29 ≤ i) := by
    revert i
    decide
  simp only [BitVec.getLsbD_and, BitVec.getLsbD_append, BitVec.getLsbD_zero, h]
  rcases Nat.lt_or_ge i 29 with h29 | h29
  · simp [h29, Nat.not_le.2 h29]
  · have h1 : ¬ i < 23 := by omega
    have h2 : ¬ i - 23 < 6 := by omega
    have h3 : ¬ i < 29 := by omega
    simp [h1, h2, h3, h29, Nat.sub_sub]

/-- A word of format A keeps its opcode's match under its mask. -/
theorem encodeA_masked (op : Opcode) (rd rs1 rs2 : RegName) :
    encodeA op rd rs1 rs2 &&& 0xE00007FF#32 = (opcodeCode op ++ 0#29 : BitVec 32) := by
  unfold encodeA
  generalize opcodeCode op = c, specOfReg rd = d, specOfReg rs1 = j, specOfReg rs2 = k
  refine BitVec.eq_of_getLsbD_eq fun i hi => ?_
  have h : (0xE00007FF#32).getLsbD i = (decide (29 ≤ i) || decide (i < 11)) := by
    revert i
    decide
  simp only [BitVec.getLsbD_and, BitVec.getLsbD_append, BitVec.getLsbD_zero, h]
  rcases Nat.lt_or_ge i 29 with h29 | h29
  · by_cases h11 : i < 11 <;> simp [h29, h11, Nat.not_le.2 h29]
  · have h0 : ¬ i < 11 := by omega
    have h1 : ¬ i - 11 < 6 := by omega
    have h2 : ¬ i - 11 - 6 < 6 := by omega
    have h3 : ¬ i - 11 - 6 - 6 < 6 := by omega
    have h4 : ¬ i < 29 := by omega
    have h5 : i - 11 - 6 - 6 - 6 = i - 29 := by omega
    simp only [h0, h1, h2, h3, h4, h5, h29, if_false, decide_true, Bool.true_or, Bool.and_true]

/-- The encoder's words match their row of the decoder's table. -/
def Encoding.Statement (i : Instr) : Prop :=
  encode i &&& instrMask (instrOpcode i) = instrMatch (instrOpcode i)

theorem Encoding.ld (rd : RegName) (addr : Nat) : Encoding.Statement (.ld rd addr) :=
  encodeM_masked .ld rd addr

theorem Encoding.st (rs : RegName) (addr : Nat) : Encoding.Statement (.st rs addr) :=
  encodeM_masked .st rs addr

theorem Encoding.addd (rd rs1 rs2 : RegName) : Encoding.Statement (.addd rd rs1 rs2) :=
  encodeA_masked .addd rd rs1 rs2

theorem Encoding.subd (rd rs1 rs2 : RegName) : Encoding.Statement (.subd rd rs1 rs2) :=
  encodeA_masked .subd rd rs1 rs2

theorem Encoding.multd (rd rs1 rs2 : RegName) : Encoding.Statement (.multd rd rs1 rs2) :=
  encodeA_masked .multd rd rs1 rs2

theorem Encoding.divd (rd rs1 rs2 : RegName) : Encoding.Statement (.divd rd rs1 rs2) :=
  encodeA_masked .divd rd rs1 rs2

end Sys2Proof.Laws
end

