-- ==== Sys2Proof/Laws/Writeback.lean ====
section
/-! SUPPORT. Everything the write-back of one slot can do, and the scan over the eligible slots (R156 to
R166, 42_writeback_broadcast). -/

namespace Sys2Proof.Machine

/-- The write-back of an arithmetic slot: its result on the bus, or an operand-kind fault. -/
theorem writebackArith_eq_next {t : Tag} {x : ArithSlot} {s : State} {p : State × List Txn}
    (h : writebackArith t x s = .next p) :
    (∃ a b v, x.j = .value a ∧ x.k = .value b ∧ alu s.cfg.num x.op a b = some v ∧
      p = (broadcast t v (retire t x.owner s), [(t, v)])) ∨
    ((x.j.isVal && x.k.isVal) = false ∧ p = (raiseFault s (.operandKind t x.owner), [])) := by
  unfold writebackArith at h
  split at h
  next a b ha hb =>
    split at h
    next v hv =>
      cases h
      exact .inl ⟨a, b, v, ha, hb, hv, rfl⟩
    next => cases h
  next hno =>
    cases h
    refine .inr ⟨?_, rfl⟩
    cases hj : x.j with
    | tag u => rfl
    | value a =>
      cases hk : x.k with
      | tag u => rfl
      | value b => exact absurd hk (hno a b hj)

/-- The write-back of a load slot: its cell on the bus. -/
theorem writebackLoad_eq_next {t : Tag} {x : LoadSlot} {s : State} {p : State × List Txn}
    (h : writebackLoad t x s = .next p) :
    x.addr < s.cfg.memSize ∧
      p = (broadcast t (Memory.read s.mem x.addr) (retire t x.owner s), [(t, Memory.read s.mem x.addr)]) := by
  unfold writebackLoad memRead at h
  simp only [retire_cfg, retire_mem] at h
  by_cases ha : x.addr < s.cfg.memSize
  · simp only [ha, if_true] at h
    cases h
    exact ⟨ha, rfl⟩
  · simp only [ha, if_false] at h
    cases h

/-- The write-back of a store slot: its cell written, nothing on the bus, or an operand-kind fault. -/
theorem writebackStore_eq_next {t : Tag} {x : StoreSlot} {s : State} {p : State × List Txn}
    (h : writebackStore t x s = .next p) :
    (∃ v, x.j = .value v ∧ x.addr < s.cfg.memSize ∧
      p = ({ retire t x.owner s with mem := Memory.write s.mem x.addr v }, [])) ∨
    (x.j.isVal = false ∧ p = (raiseFault s (.operandKind t x.owner), [])) := by
  unfold writebackStore memWrite at h
  cases hj : x.j with
  | value v =>
    rw [hj] at h
    by_cases ha : x.addr < (retire t x.owner s).cfg.memSize
    · simp only [ha, if_true] at h
      cases h
      exact .inl ⟨v, rfl, by simpa using ha, by rw [retire_mem]⟩
    · simp only [ha, if_false] at h
      cases h
  | tag u =>
    rw [hj] at h
    cases h
    exact .inr ⟨rfl, rfl⟩

/-- What no write-back changes: the parameters, the program, the two counters, and the lengths of every
list. -/
structure WritebackKeeps (s t : State) : Prop where
  cfg   : t.cfg = s.cfg
  prog  : t.prog = s.prog
  pc    : t.pc = s.pc
  cycle : t.cycle = s.cycle
  add   : t.add.length = s.add.length
  mul   : t.mul.length = s.mul.length
  load  : t.load.length = s.load.length
  store : t.store.length = s.store.length
  freg  : t.freg.length = s.freg.length
  ireg  : t.ireg.length = s.ireg.length
  ts    : t.ts.length = s.ts.length

theorem WritebackKeeps.refl (s : State) : WritebackKeeps s s := by
  constructor <;> rfl

theorem WritebackKeeps.trans {s t u : State} (h : WritebackKeeps s t) (g : WritebackKeeps t u) :
    WritebackKeeps s u where
  cfg := g.cfg.trans h.cfg
  prog := g.prog.trans h.prog
  pc := g.pc.trans h.pc
  cycle := g.cycle.trans h.cycle
  add := g.add.trans h.add
  mul := g.mul.trans h.mul
  load := g.load.trans h.load
  store := g.store.trans h.store
  freg := g.freg.trans h.freg
  ireg := g.ireg.trans h.ireg
  ts := g.ts.trans h.ts

theorem retire_keeps (t : Tag) (k : Nat) (s : State) : WritebackKeeps s (retire t k s) := by
  constructor <;> simp <;> split <;> simp

theorem broadcast_keeps (t : Tag) (v : Val) (s : State) : WritebackKeeps s (broadcast t v s) := by
  constructor <;> simp

/-- One write-back keeps them. -/
theorem writebackSlot_keeps {t : Tag} {s : State} {p : State × List Txn}
    (h : writebackSlot t s = .next p) : WritebackKeeps s p.1 := by
  have hfault : ∀ f, WritebackKeeps s (raiseFault s f) := fun f => by constructor <;> rfl
  have harith : ∀ x, writebackArith t x s = .next p → WritebackKeeps s p.1 := by
    intro x h
    obtain ⟨a, b, v, -, -, -, rfl⟩ | ⟨-, rfl⟩ := writebackArith_eq_next h
    · exact (retire_keeps t x.owner s).trans (broadcast_keeps t v _)
    · exact hfault _
  unfold writebackSlot at h
  split at h <;> split at h
  · exact harith _ h
  · cases h
    exact .refl s
  · exact harith _ h
  · cases h
    exact .refl s
  · obtain ⟨-, rfl⟩ := writebackLoad_eq_next h
    exact (retire_keeps t _ s).trans (broadcast_keeps t _ _)
  · cases h
    exact .refl s
  · obtain ⟨v, -, -, rfl⟩ | ⟨-, rfl⟩ := writebackStore_eq_next h
    · have := retire_keeps t ‹StoreSlot›.owner s
      exact ⟨this.cfg, this.prog, this.pc, this.cycle, this.add, this.mul, this.load, this.store,
        this.freg, this.ireg, this.ts⟩
    · exact hfault _
  · cases h
    exact .refl s

/-- The scan: the first slot's write-back, then, unless it latched a fault, the rest (R157, R158,
42_writeback_broadcast). -/
theorem writebackList_cons_eq_next {t : Tag} {l : List Tag} {s : State} {q : State × List Txn}
    (h : writebackList (t :: l) s = .next q) :
    ∃ p, writebackSlot t s = .next p ∧
      ((p.1.fault.isSome = true ∧ q = p) ∨
       (p.1.fault = none ∧ ∃ q', writebackList l p.1 = .next q' ∧ q = (q'.1, p.2 ++ q'.2))) := by
  rw [writebackList, andThen_eq_next] at h
  obtain ⟨p, hp, h⟩ := h
  refine ⟨p, hp, ?_⟩
  by_cases hf : p.1.fault.isSome = true
  · rw [if_pos hf] at h
    cases h
    exact .inl ⟨hf, rfl⟩
  · rw [if_neg hf, andThen_eq_next] at h
    obtain ⟨q', hq', h⟩ := h
    cases h
    exact .inr ⟨by simpa using hf, q', hq', rfl⟩

/-- A property that every write-back keeps holds after the scan. -/
theorem writebackList_induct {P : State → Prop} (hP : ∀ t s p, P s → writebackSlot t s = .next p → P p.1)
    {l : List Tag} {s : State} {q : State × List Txn} (h : writebackList l s = .next q) (hs : P s) :
    P q.1 := by
  induction l generalizing s q with
  | nil =>
    cases h
    exact hs
  | cons t l ih =>
    obtain ⟨p, hp, ⟨-, rfl⟩ | ⟨-, q', hq', rfl⟩⟩ := writebackList_cons_eq_next h
    · exact hP t s q hs hp
    · have hq := ih hq' (hP t s p hs hp)
      exact hq

/-- The scan keeps what one write-back keeps. -/
theorem writebackList_keeps {l : List Tag} {s : State} {q : State × List Txn}
    (h : writebackList l s = .next q) : WritebackKeeps s q.1 :=
  writebackList_induct (P := WritebackKeeps s) (fun _ _ _ hs hp => hs.trans (writebackSlot_keeps hp)) h
    (.refl s)

/-- The scan keeps the memory's canonical form. -/
theorem writebackList_mem_wf {l : List Tag} {s : State} {q : State × List Txn}
    (h : writebackList l s = .next q) (hs : Memory.wf s.mem = true) : Memory.wf q.1.mem = true := by
  refine writebackList_induct (P := fun s => Memory.wf s.mem = true) (fun t s p hs hp => ?_) h hs
  unfold writebackSlot at hp
  split at hp <;> split at hp
  · obtain ⟨a, b, v, -, -, -, rfl⟩ | ⟨-, rfl⟩ := writebackArith_eq_next hp <;> simpa using hs
  · cases hp
    exact hs
  · obtain ⟨a, b, v, -, -, -, rfl⟩ | ⟨-, rfl⟩ := writebackArith_eq_next hp <;> simpa using hs
  · cases hp
    exact hs
  · obtain ⟨-, rfl⟩ := writebackLoad_eq_next hp
    simpa using hs
  · cases hp
    exact hs
  · obtain ⟨v, -, -, rfl⟩ | ⟨-, rfl⟩ := writebackStore_eq_next hp
    · exact Memory.wf_write _ v hs
    · simpa using hs
  · cases hp
    exact hs

end Sys2Proof.Machine
end

