-- ==== Sys2Proof/Laws/Step.lean ====
section
/-! SUPPORT. Everything one step can do (R185, 43_cycle_driver). -/

namespace Sys2Proof.Machine

/-- The budget test changes at most the fault latch, and latches only `NonTermination` (R189,
43_cycle_driver). -/
theorem budgetCheck_cases (s : State) :
    budgetCheck s = s ∨
    ∃ m, s.cfg.maxCycles = some m ∧ s.fault = none ∧ m ≤ s.cycle ∧ done s = false ∧
      budgetCheck s = raiseFault s (.nonTermination s.cycle) := by
  unfold budgetCheck
  split
  next => exact .inl rfl
  next m hm =>
    split
    next h => exact .inr ⟨m, hm, h.1, h.2.1, h.2.2, rfl⟩
    next => exact .inl rfl

/-- The issue phase: nothing past the end, else the record at `pc`, which must decode (R111, 40_issue). -/
theorem issuePhase_eq_next {s t : State} (h : issuePhase s = .next t) :
    (s.prog[s.pc]? = none ∧ t = s) ∨
    ∃ w i, s.prog[s.pc]? = some w ∧ decode s.cfg w = .ok i ∧ exec i s = .next t := by
  unfold issuePhase at h
  split at h
  next hw =>
    cases h
    exact .inl ⟨hw, rfl⟩
  next w hw =>
    split at h
    next i hi => exact .inr ⟨w, i, hw, hi, h⟩
    next => cases h

/-- The issue phase keeps what every instruction keeps. -/
theorem issuePhase_keeps {s t : State} (h : issuePhase s = .next t) : IssueKeeps s t := by
  obtain ⟨-, rfl⟩ | ⟨w, i, -, -, hi⟩ := issuePhase_eq_next h
  · constructor <;> rfl
  · exact exec_keeps hi

/-- The phases after the issue phase. -/
theorem afterIssue_eq_next {s : State} {q : State × List Txn} (h : afterIssue s = .next q) :
    ∃ p, writebackList (eligible s) (countdownPhase s).1 = .next p ∧ q = (budgetCheck p.1, p.2) := by
  rw [afterIssue, writebackPhase, scan_countdownPhase, andThen_eq_next] at h
  obtain ⟨p, hp, h⟩ := h
  cases h
  exact ⟨p, hp, rfl⟩

/-- One step: frozen, or the cycle counted, the issue phase, the countdown, the write-backs of the eligible
slots, the budget test (R185, 43_cycle_driver). -/
theorem step_eq_next {s t : State} (h : step s = .next t) :
    (s.fault.isSome = true ∧ t = s) ∨
    (s.fault = none ∧ ∃ s1 p, issuePhase (advanceCycle s) = .next s1 ∧
      writebackList (eligible s1) (countdownPhase s1).1 = .next p ∧ t = budgetCheck p.1) := by
  rw [step, dropOutputs, andThen_eq_next] at h
  obtain ⟨q, hq, h⟩ := h
  cases h
  unfold runCycle at hq
  by_cases hf : s.fault.isSome = true
  · rw [if_pos hf] at hq
    cases hq
    exact .inl ⟨hf, rfl⟩
  · rw [if_neg hf, andThen_eq_next] at hq
    obtain ⟨s1, h1, hq⟩ := hq
    rw [andThen_eq_next] at hq
    obtain ⟨r, hr, hq⟩ := hq
    cases hq
    obtain ⟨p, hp, rfl⟩ := afterIssue_eq_next hr
    exact .inr ⟨by simpa using hf, s1, p, h1, hp, rfl⟩

end Sys2Proof.Machine
end

