-- ==== Sys2Proof/Tests/Slice0.lean ====
section
/-! SUPPORT. The model's own tests. Expected results are those of spec/95_test_vectors.md (named by vector)
or worked out by hand from a cited rule. After them, a witness for the hypotheses of every statement. -/

namespace Sys2Proof.Tests

open Sys2Proof.Machine

/-- The outcome is a next state that passes a check. -/
def passes {α : Type} (o : Host.Outcome α Fault Refusal) (p : α → Bool) : Bool :=
  match o with
  | .next a => p a
  | .fault _ => false
  | .refused _ => false

theorem exists_of_passes {α : Type} {o : Host.Outcome α Fault Refusal} {p : α → Bool}
    (h : passes o p = true) : ∃ a, o = .next a ∧ p a = true := by
  cases o with
  | next a => exact ⟨a, rfl, h⟩
  | fault e => cases h
  | refused e => cases h

/-- `F<n>`. -/
abbrev F (n : Nat) : RegName := { file := .f, idx := n }

/-- `R<n>`. -/
abbrev R (n : Nat) : RegName := { file := .r, idx := n }

abbrev ADD (n : Nat) : Tag := { pool := .add, rank := n }
abbrev MUL (n : Nat) : Tag := { pool := .mul, rank := n }
abbrev LOAD (n : Nat) : Tag := { pool := .load, rank := n }
abbrev STORE (n : Nat) : Tag := { pool := .store, rank := n }

/-- The default configuration with smaller files and array, so that states stay small. -/
abbrev small : Config :=
  { Config.default with nf := 12, ni := 4, memSize := 48
                        regInitF := [0, 10, 4, 0, 3, 0, 99], memInit := [(34, 12), (45, 4), (7, 1)] }

/-- A machine of the small configuration. -/
abbrev machine (prog : List Word) : State := initState small prog

/-- The machine after `n` cycles from reset (three at most in this file). -/
def after (n : Nat) (s : State) : State :=
  match runSteps n s with
  | .next t => t
  | .fault _ => s
  | .refused _ => s

/-! ### Well-formedness: an ill-formed term for each check -/

theorem test_wf_register_f : ¬ (F 32).WellFormed Config.default := by decide
theorem test_wf_register_r : ¬ (R 32).WellFormed Config.default := by decide
theorem test_wf_last_registers : (F 31).WellFormed Config.default ∧ (R 31).WellFormed Config.default := by
  decide
theorem test_wf_no_integer_file : ¬ (R 0).WellFormed { Config.default with ni := 0 } := by decide
theorem test_wf_address : ¬ Instr.WellFormed Config.default (.ld (F 2) 4096) := by decide
theorem test_wf_last_address : Instr.WellFormed Config.default (.st (F 2) 4095) := by decide
theorem test_wf_destination : ¬ Instr.WellFormed Config.default (.addd (F 32) (F 0) (F 0)) := by decide
theorem test_wf_source1 : ¬ Instr.WellFormed Config.default (.subd (F 0) (R 32) (F 0)) := by decide
theorem test_wf_source2 : ¬ Instr.WellFormed Config.default (.divd (F 0) (F 0) (F 40)) := by decide
theorem test_wf_latency_zero :
    ¬ Config.WellFormed { Config.default with lat := { Config.default.lat with divd := 0 } } := by decide
theorem test_wf_latency_large :
    ¬ Config.WellFormed { Config.default with lat := { Config.default.lat with multd := 256 } } := by decide
theorem test_wf_latency_largest :
    Config.WellFormed { Config.default with lat := { Config.default.lat with multd := 255 } } := by decide
theorem test_wf_memsize_zero : ¬ Config.WellFormed { Config.default with memSize := 0 } := by decide
theorem test_wf_nf_zero : ¬ Config.WellFormed { Config.default with nf := 0 } := by decide
theorem test_wf_nf_large : ¬ Config.WellFormed { Config.default with nf := 33 } := by decide
theorem test_wf_ni_large : ¬ Config.WellFormed { Config.default with ni := 33 } := by decide
theorem test_wf_budget : ¬ Config.WellFormed { Config.default with maxCycles := some 0 } := by decide
theorem test_wf_pcw : ¬ Config.WellFormed { Config.default with pcw := 0 } := by decide
theorem test_wf_vlen : ¬ Config.WellFormed { Config.default with vlen := some 0 } := by decide
theorem test_wf_widths_least : Config.WellFormed { Config.default with pcw := 1, vlen := some 1 } := by decide
theorem test_wf_default : Config.WellFormed Config.default := by decide

/-! ### Decoding: words written out from R82 to R86 (30_encoding) -/

/-- EN1: op 000, r 000110, addr 34. -/
theorem test_decode_ld : decode Config.default
    0b000_000110_00000000000000000100010#32 = .ok (.ld (F 6) 34) := by decide
/-- EN3: op 001, r 000010, addr 7. -/
theorem test_decode_st : decode Config.default
    0b001_000010_00000000000000000000111#32 = .ok (.st (F 2) 7) := by decide
/-- EN8: op 010, rd 100001 (R1), rs1 000010, rs2 100011 (R3). -/
theorem test_decode_addd : decode Config.default
    0b010_100001_000010_100011_00000000000#32 = .ok (.addd (R 1) (F 2) (R 3)) := by decide
/-- EN5: op 011, rd 001000, rs1 000110, rs2 000010. -/
theorem test_decode_subd : decode Config.default
    0b011_001000_000110_000010_00000000000#32 = .ok (.subd (F 8) (F 6) (F 2)) := by decide
/-- EN6: op 100, rd 000000, rs1 000010, rs2 000100. -/
theorem test_decode_multd : decode Config.default
    0b100_000000_000010_000100_00000000000#32 = .ok (.multd (F 0) (F 2) (F 4)) := by decide
/-- EN7: op 101, rd 001010, rs1 000000, rs2 000110. -/
theorem test_decode_divd : decode Config.default
    0b101_001010_000000_000110_00000000000#32 = .ok (.divd (F 10) (F 0) (F 6)) := by decide

/-- EN1 to EN10, EN19: the words of the vectors, and the encoder gives them back. -/
theorem test_encode_vectors :
    (([0x03000022#32, 0x0100002D#32, 0x21000007#32, 0x43101000#32, 0x640C1000#32, 0x80042000#32, 0xA5003000#32,
      0x50851800#32, 0x60430800#32, 0x00000000#32, 0x01000FFF#32] : List Word).all fun w =>
        match decode Config.default w with
        | .ok i => decide (encode i = w)
        | .error _ => false) = true := by decide

/-- EN11, EN14, EN15, EN18: malformed operands. -/
theorem test_decode_malformed :
    (([0x0FFFFFFF#32, 0x40000001#32, 0x40000400#32, 0x01001000#32] : List Word).all fun w =>
      decide (decode Config.default w = .error .malformedOperand)) = true := by decide

/-- EN16, EN17: a specifier outside the configured files. -/
theorem test_decode_files : decode { Config.default with ni := 0 } 0x50000000#32 = .error .malformedOperand ∧
    decode { Config.default with nf := 16 } 0x4F800000#32 = .error .malformedOperand := by decide

/-- EN12, EN13: the reserved opcodes. -/
theorem test_decode_unknown : decode Config.default 0xC0000000#32 = .error .unknownOpcode ∧
    decode Config.default 0xE0000000#32 = .error .unknownOpcode := by decide

theorem test_table_word : decodeTableWord 32 0x21000007 = some (.st (F 2) 7) ∧
    decodeTableWord 32 0xC0000000 = none := by decide

/-- The document's example as the assembler writes it (R100, 30_encoding). -/
theorem test_asm : asm (.ld (F 6) 34) = "LD F6,34" ∧ asm (.multd (F 0) (F 2) (F 4)) = "MULTD F0,F2,F4" ∧
    asm (.st (R 1) 8) = "ST R1,8" := by decide

/-! ### The load-time check -/

/-- LC1, LC2, LC12. -/
theorem test_load_records : loadCheck Config.default [0x03000022#32, 0xC0000000#32] = some (.unknownOpcode 1) ∧
    loadCheck Config.default [0x40000001#32] = some (.malformedOperand 0) ∧
    loadCheck Config.default [0xC0000000#32, 0x40000001#32] = some (.unknownOpcode 0) := by decide
/-- LC4, LC5, LC6. -/
theorem test_load_latencies :
    loadCheck { Config.default with lat := { Config.default.lat with divd := 0 } } [] = some (.badLatency .divd) ∧
    loadCheck { Config.default with lat := { Config.default.lat with multd := 256 } } [] =
      some (.badLatency .multd) ∧
    loadCheck { Config.default with lat := { Config.default.lat with multd := 255 } } [] = none := by decide
/-- LC7, with a narrower `pc`. -/
theorem test_load_length : loadCheck { Config.default with pcw := 1 } [0x03000022#32, 0x0100002D#32] =
    some .programTooLong := by decide
/-- LC8, LC9, LC10. -/
theorem test_load_sizes : loadCheck { Config.default with memSize := 0 } [] = some .badSize ∧
    loadCheck { Config.default with maxCycles := some 0 } [] = some .badSize ∧
    loadCheck { Config.default with nmul := 0 } [0x80042000#32] = none := by decide

/-- R7 (00_scope): a width below its legal range, and the least legal one. -/
theorem test_load_widths :
    loadCheck { Config.default with pcw := 0 } [] = some .badSize ∧
    loadCheck { Config.default with vlen := some 0 } [] = some .badSize ∧
    loadCheck { Config.default with pcw := 1, vlen := some 1 } [] = none := by decide

/-- The state after reset is the reset state of the default parameters with no program. -/
theorem test_reset_is_init : State.reset = initState Config.default [] := by decide
/-- LC11: an empty program is done at reset. -/
theorem test_reset_done : done State.reset = true := by decide
/-- After a load of one record the next step issues it (R267, 70_reset_and_hazards). -/
theorem test_fetch_word : passes (step (State.reset.withFetchWord 32 0x03000022)) (fun t =>
    decide (t.pc = 1 ∧ t.ts = [{ issue := 1, exec := 0, wb := 0 }] ∧ readReg t (F 6) = some (.tag (LOAD 0)))) =
    true := by decide

/-! ### Issue: one step's issue phase -/

/-- IS6. -/
theorem test_issue_ld : passes (exec (.ld (F 6) 34) (machine [])) (fun t =>
    decide (t.load[0]? = some { busy := true, addr := 34, timer := 2, owner := 0 } ∧
      readReg t (F 6) = some (.tag (LOAD 0)) ∧ t.pc = 1)) = true := by decide
/-- IS8: no register changes. -/
theorem test_issue_st : passes (exec (.st (F 2) 7) (machine [])) (fun t =>
    decide (t.store[0]? = some { busy := true, j := .value 4, addr := 7, timer := 2, owner := 0 } ∧
      t.freg = (machine []).freg ∧ t.ireg = (machine []).ireg)) = true := by decide
/-- IS3: the destination is also a source, and the old entry is captured. -/
theorem test_issue_addd : passes (exec (.addd (F 6) (F 6) (F 2)) (machine [])) (fun t =>
    decide (t.add[0]?.map (·.j) = some (.value 99) ∧ t.add[0]?.map (·.k) = some (.value 4) ∧
      readReg t (F 6) = some (.tag (ADD 0)))) = true := by decide
/-- IS9: an integer destination leaves the F register of the same index alone. -/
theorem test_issue_addd_files : passes (exec (.addd (R 1) (F 2) (R 3)) (machine [])) (fun t =>
    decide (readReg t (R 1) = some (.tag (ADD 0)) ∧ readReg t (F 1) = some (.value 10))) = true := by decide
theorem test_issue_subd : passes (exec (.subd (F 8) (F 6) (F 2)) (machine [])) (fun t =>
    decide (t.add[0]? = some { busy := true, op := .subd, j := .value 99, k := .value 4, timer := 2, owner := 0 })) =
    true := by decide
theorem test_issue_multd : passes (exec (.multd (F 0) (F 2) (F 4)) (machine [])) (fun t =>
    decide (t.mul[0]? = some { busy := true, op := .multd, j := .value 4, k := .value 3, timer := 10, owner := 0 })) =
    true := by decide
theorem test_issue_divd : passes (exec (.divd (F 10) (F 0) (F 6)) (machine [])) (fun t =>
    decide (t.mul[0]?.map (·.timer) = some 40 ∧ readReg t (F 10) = some (.tag (MUL 0)))) = true := by decide

/-! ### Results (section 2.7 of the vectors) -/

theorem test_result_addd : alu .q .addd (-6) (-3) = some (-9) ∧ alu .q .addd (1 / 2) (1 / 3) = some (5 / 6) := by
  decide +kernel
theorem test_result_subd : alu .q .subd 6 3 = some 3 ∧ alu .q .subd 3 6 = some (-3) := by decide +kernel
theorem test_result_multd : alu .q .multd 6 3 = some 18 ∧ alu .q .multd (2 / 3) (3 / 2) = some 1 := by
  decide +kernel
theorem test_result_divd : alu .q .divd 3 6 = some (1 / 2) ∧ alu .q .divd (-6) 0 = some 0 ∧
    alu .q .divd 0 0 = some 0 ∧ alu .q .divd (-6) 3 = some (-2) := by decide +kernel

/-! ### Write-back on made-up states -/

/-- ADD0 to ADD2, MUL0 and STORE0 as a vector gives them; the other slots free. -/
def slots (a0 a1 a2 m0 : ArithSlot) (s0 : StoreSlot) : State :=
  { machine [0x03000022#32, 0x0100002D#32] with
    add := [a0, a1, a2], mul := [m0, .free 0], store := [s0, .free 0, .free 0] }

/-- WB2: a superseded producer reaches the store and not the register. -/
theorem test_wb_superseded :
    passes (writebackPhase [MUL 0] (writeReg (slots (.free 0) (.free 0) (.free 0)
      { busy := true, op := .divd, j := .value 20, k := .value 5, timer := 0, owner := 0 }
      { busy := true, j := .tag (MUL 0), addr := 8, timer := 2, owner := 1 }) (F 0) (.tag (ADD 0)))) (fun p =>
        decide (p.2 = [(MUL 0, 4)] ∧ p.1.store[0]?.map (·.j) = some (.value 4) ∧
          readReg p.1 (F 0) = some (.tag (ADD 0)))) = true := by decide +kernel
/-- WB3, WB4: both operands of a busy slot match, a free slot is left alone. -/
theorem test_wb_forward :
    passes (writebackPhase [ADD 0] (slots
      { busy := true, op := .addd, j := .value 7, k := .value 5, timer := 0, owner := 0 }
      { busy := true, op := .addd, j := .tag (ADD 0), k := .tag (ADD 0), timer := 2, owner := 1 }
      { busy := false, op := .addd, j := .tag (ADD 0), k := .value 0, timer := 0, owner := 0 }
      (.free 0) (.free 0))) (fun p =>
        decide (p.1.add[1]?.map (fun x => (x.j, x.k)) = some (.value 12, .value 12) ∧
          p.1.add[2]?.map (·.j) = some (.tag (ADD 0)))) = true := by decide +kernel
/-- FX3: the operand-kind violation, as a unit test of the phase alone. -/
theorem test_wb_operand_kind :
    passes (writebackPhase [ADD 0] (slots
      { busy := true, op := .addd, j := .tag (MUL 0), k := .value 1, timer := 0, owner := 0 }
      (.free 0) (.free 0) (.free 0) (.free 0))) (fun p =>
        decide (p.1.fault = some (.operandKind (ADD 0) 0) ∧ p.2 = [] ∧
          p.1.add[0]?.map (·.busy) = some true ∧ p.1.ts[0]?.map (·.wb) = some 0)) = true := by decide
/-- WB11: division by zero writes 0 and latches no fault. -/
theorem test_wb_divide_by_zero :
    passes (writebackPhase [MUL 0] (slots (.free 0) (.free 0) (.free 0)
      { busy := true, op := .divd, j := .value 6, k := .value 0, timer := 0, owner := 0 } (.free 0))) (fun p =>
        decide (p.2 = [(MUL 0, 0)] ∧ p.1.fault = none)) = true := by decide +kernel

/-! ### Countdown on one slot (section 2.5 of the vectors) -/

/-- CD1: a fresh slot is skipped; CD2, CD3: one less; CD4: not ready; CD10: the clamp. -/
theorem test_countdown :
    let ts : List Stamp := [{ issue := 5, exec := 0, wb := 0 }, { issue := 9, exec := 0, wb := 0 }]
    (SlotView.countdown ts 9 { busy := true, ready := true, timer := 2, owner := 1 }).timer = 2 ∧
    (SlotView.countdown ts 9 { busy := true, ready := true, timer := 2, owner := 0 }).timer = 1 ∧
    completes ts 9 { busy := true, ready := true, timer := 1, owner := 0 } = true ∧
    (SlotView.countdown ts 9 { busy := true, ready := false, timer := 10, owner := 0 }).timer = 10 ∧
    completes ts 9 { busy := true, ready := true, timer := 0, owner := 0 } = false := by decide

/-! ### Witnesses

For every statement with hypotheses, a state and operands that meet them together. -/

/-- `LD F6,34`; `ADDD F2,F6,F6`; then `i`, after cycle 2. -/
def loadingThen (i : Instr) : State :=
  after 2 (machine [0x03000022#32, encode (.addd (F 2) (F 6) (F 6)), encode i])

/-- `LD F6,34`; `ADDD F2,F6,F6`; `ADDD F8,F6,F2`: after cycle 2 LOAD0 has one cycle left and is waited for by
ADD0 and F6, and the record at `pc` reads F6. -/
def loading : State := loadingThen (.addd (F 8) (F 6) (F 2))

/-- `ADDD F6,F1,F2`; `ST F2,5`; `ST F6,6`: after cycle 2 ADD0 has one cycle left, after cycle 3 STORE0 has. -/
def adding : State := after 2 (machine [encode (.addd (F 6) (F 1) (F 2)), encode (.st (F 2) 5), encode (.st (F 6) 6)])

/-- The same one cycle later. -/
def storing : State := after 3 (machine [encode (.addd (F 6) (F 1) (F 2)), encode (.st (F 2) 5), encode (.st (F 6) 6)])

/-- `LD F6,34` done after cycle 3. -/
def drained : State := after 3 (machine [0x03000022#32])

/-- `LD F6,34` after cycle 1. -/
def fetched : State := after 1 (machine [0x03000022#32])

/-- `MULTD` with no slot in pool MUL. -/
def hanging : State := initState { small with nmul := 0 } [encode (.multd (F 2) (F 1) (F 1))]

/-- A pool ADD of one slot, occupied by the first of two ADDDs after cycle 1. -/
def fullPool : State :=
  after 1 (initState { small with nadd := 1 } [encode (.addd (F 6) (F 1) (F 2)), encode (.addd (F 8) (F 1) (F 2))])

theorem loading_inv : loading.Inv := by
  constructor <;> first | decide +kernel | (constructor <;> decide +kernel)
theorem adding_inv : adding.Inv := by
  constructor <;> first | decide +kernel | (constructor <;> decide +kernel)
theorem storing_inv : storing.Inv := by
  constructor <;> first | decide +kernel | (constructor <;> decide +kernel)
theorem drained_inv : drained.Inv := by
  constructor <;> first | decide +kernel | (constructor <;> decide +kernel)
theorem hanging_inv : hanging.Inv := by
  constructor <;> first | decide +kernel | (constructor <;> decide +kernel)
theorem fetched_inv : fetched.Inv := by
  constructor <;> first | decide +kernel | (constructor <;> decide +kernel)
theorem fullPool_inv : fullPool.Inv := by
  constructor <;> first | decide +kernel | (constructor <;> decide +kernel)
theorem loadingThen_subd_inv : (loadingThen (.subd (F 8) (F 1) (F 6))).Inv := by
  constructor <;> first | decide +kernel | (constructor <;> decide +kernel)
theorem loadingThen_st_inv : (loadingThen (.st (F 6) 3)).Inv := by
  constructor <;> first | decide +kernel | (constructor <;> decide +kernel)

theorem loading_runs : ∃ t o, runCycle loading = .next (t, o) ∧ (LOAD 0, 12) ∈ o.cdb := by
  obtain ⟨⟨t, o⟩, h, hc⟩ := exists_of_passes (o := runCycle loading)
    (p := fun p => decide ((LOAD 0, 12) ∈ p.2.cdb)) (by decide +kernel)
  exact ⟨t, o, h, of_decide_eq_true hc⟩
theorem adding_runs : ∃ t o, runCycle adding = .next (t, o) := by
  obtain ⟨⟨t, o⟩, h, -⟩ := exists_of_passes (o := runCycle adding) (p := fun _ => true) (by decide +kernel)
  exact ⟨t, o, h⟩
theorem storing_runs : ∃ t o, runCycle storing = .next (t, o) := by
  obtain ⟨⟨t, o⟩, h, -⟩ := exists_of_passes (o := runCycle storing) (p := fun _ => true) (by decide +kernel)
  exact ⟨t, o, h⟩
theorem step_of_runs {s t : State} {o : StepOut} (h : runCycle s = .next (t, o)) : step s = .next t := by
  simp [step, dropOutputs, h, andThen]
theorem adding_steps : ∃ t, step adding = .next t := by
  obtain ⟨t, o, h⟩ := adding_runs
  exact ⟨t, step_of_runs h⟩

/-- A property of every member of a list, by its positions. -/
theorem forall_getElem? {α : Type} {l : List α} {P : Nat → α → Prop}
    (h : ∀ r, r < l.length → ∀ x ∈ l[r]?, P r x) : ∀ (r : Nat) (x : α), l[r]? = some x → P r x := by
  intro r x hx
  exact h r (List.getElem?_eq_some_iff.1 hx).1 x hx

theorem witness_DecodeInvertsEncode : Config.default.SizesWellFormed ∧
    Instr.WellFormed Config.default (.addd (R 31) (F 0) (F 31)) ∧
    Instr.WellFormed Config.default (.ld (R 31) 4095) := by decide
theorem witness_EncodeInvertsDecode :
    decode Config.default 0x50851800#32 = .ok (.addd (R 1) (F 2) (R 3)) := by decide
theorem witness_TablePatternsSelectOpcode :
    decode Config.default 0x43101000#32 = .ok (.addd (F 6) (F 8) (F 2)) ∧
    0x43101000#32 &&& instrMask .addd = instrMatch .addd ∧
    0x0FFFFFFF#32 &&& instrMask .ld = instrMatch .ld ∧
    decode Config.default 0x0FFFFFFF#32 = .error .malformedOperand := by decide
theorem witness_UnknownOpcodeNeverLoads :
    0xC0000000#32 ∈ [0x03000022#32, 0xC0000000#32] ∧ Claims.bits 0xC0000000#32 31 29 = 6 ∧
    Claims.bits 0xFFFFFFFF#32 31 29 = 7 := by decide
/-- The first clause, at record 0 and at record 1. -/
theorem witness_LoadCheckOrder_record :
    (([0x40000001#32] : List Word)[0]? = some 0x40000001#32 ∧
      decode Config.default 0x40000001#32 = .error .malformedOperand) ∧
    decode Config.default 0xC0000000#32 = .error .unknownOpcode ∧
    ∀ (l : Nat) (v : Word), l < 1 → ([0x03000022#32, 0xC0000000#32] : List Word)[l]? = some v →
      ∃ i, decode Config.default v = .ok i := by
  refine ⟨by decide, by decide, fun l v hl hv => ?_⟩
  obtain rfl : l = 0 := by omega
  cases hv
  exact ⟨.ld (F 6) 34, by decide⟩
/-- The records of the other clauses. -/
theorem witness_LoadCheckOrder_records :
    ∀ w ∈ ([0x03000022#32, 0x03000022#32] : List Word), ∃ i, decode Config.default w = .ok i := by
  intro w hw
  obtain rfl : w = 0x03000022#32 := by simpa using hw
  exact ⟨.ld (F 6) 34, by decide⟩
/-- The latency clause at the first and the last opcode. -/
theorem witness_LoadCheckOrder_latency :
    ¬ LatencyWellFormed 8 0 ∧ ¬ LatencyWellFormed 8 256 ∧ LatencyWellFormed 8 255 ∧
    allOpcodes[0]? = some Opcode.ld ∧ allOpcodes[5]? = some Opcode.divd := by decide
/-- The remaining clauses: a program of `2^PCW` records and one record fewer, bad and good sizes. -/
theorem witness_LoadCheckOrder_rest : Config.default.LatenciesWellFormed ∧
    2 ^ 1 ≤ [0x03000022#32, 0x03000022#32].length ∧ [0x03000022#32].length < 2 ^ 1 ∧
    ¬ ({ Config.default with nf := 33 } : Config).SizesWellFormed ∧
    ¬ ({ Config.default with maxCycles := some 0 } : Config).BudgetWellFormed ∧
    Config.default.SizesWellFormed ∧ Config.default.BudgetWellFormed ∧ Config.default.WidthsWellFormed := by
  refine ⟨by decide, by decide, by decide, ?_, ?_, by decide, by decide, by decide⟩
  · exact (by decide : ¬ (1 ≤ 33 ∧ 33 ≤ 32 ∧ 32 ≤ 32 ∧ 1 ≤ 4096 ∧ 4096 ≤ 2 ^ 23))
  · exact (by decide : ¬ (some 0 ≠ some 0))
/-- A machine that is constructed, and the last clause at `PCW = 0` (only an empty program is shorter than
`2^0`) and at `VLEN = 0`. -/
theorem witness_LoadedParametersAreInRange :
    loadMachine Config.default [0x03000022#32] = .ok (initState Config.default [0x03000022#32]) ∧
    (let cfg : Config := { Config.default with pcw := 0 }
     (∀ w ∈ ([] : List Word), ∃ i, decode cfg w = .ok i) ∧ cfg.LatenciesWellFormed ∧
       ([] : List Word).length < 2 ^ cfg.pcw ∧ cfg.pcw = 0) ∧
    (let cfg : Config := { Config.default with vlen := some 0 }
     cfg.LatenciesWellFormed ∧ ([] : List Word).length < 2 ^ cfg.pcw ∧ cfg.vlen = some 0) :=
  ⟨rfl, ⟨fun _ h => (List.not_mem_nil h).elim, (by decide : Config.default.LatenciesWellFormed), by decide, rfl⟩,
    (by decide : Config.default.LatenciesWellFormed), by decide, rfl⟩
theorem witness_LoadedMachineMeetsInvariants :
    loadMachine Config.default [0x03000022#32] = .ok (initState Config.default [0x03000022#32]) := by rfl
theorem witness_StepKeepsInvariants : ∃ t, loading.Inv ∧ step loading = .next t := by
  obtain ⟨t, o, h, -⟩ := loading_runs
  exact ⟨t, loading_inv, step_of_runs h⟩
theorem witness_StepAnswersNextState : loading.Inv := loading_inv
/-- Rank 0 of a free pool, rank 1 beside a busy slot; the last address. -/
theorem witness_LdIssues : (readReg (machine []) (R 3)).isSome = true ∧ 47 < (machine []).cfg.memSize ∧
    IsLeastFree (machine []) .load 0 ∧ IsLeastFree loading .load 1 := by decide +kernel
theorem witness_StIssues : readReg (machine []) (F 2) = some (.value 4) ∧ 47 < (machine []).cfg.memSize ∧
    IsLeastFree (machine []) .store 0 := by decide +kernel
/-- A source that is also the destination, and one that holds a tag. -/
theorem witness_AdddIssues : (readReg loading (F 6)).isSome = true ∧
    readReg loading (F 6) = some (.tag (LOAD 0)) ∧ readReg loading (F 1) = some (.value 10) ∧
    IsLeastFree loading .add 1 := by decide +kernel
theorem witness_SubdIssues : (readReg loading (R 0)).isSome = true ∧
    readReg loading (F 1) = some (.value 10) ∧ readReg loading (F 6) = some (.tag (LOAD 0)) ∧
    IsLeastFree loading .add 1 := by decide +kernel
theorem witness_MultdIssues : (readReg loading (F 11)).isSome = true ∧
    readReg loading (F 1) = some (.value 10) ∧ readReg loading (F 6) = some (.tag (LOAD 0)) ∧
    IsLeastFree loading .mul 0 := by decide +kernel
theorem witness_DivdIssues : (readReg loading (F 11)).isSome = true ∧
    readReg loading (F 1) = some (.value 10) ∧ readReg loading (F 1) = some (.value 10) ∧
    IsLeastFree loading .mul 0 := by decide +kernel
/-- A pool of one busy slot, and a pool of size 0. -/
theorem witness_StallChangesNothing :
    (recordAt fullPool fullPool.pc = some (.addd (F 8) (F 1) (F 2)) ∧
      OperandsPresent fullPool (.addd (F 8) (F 1) (F 2)) ∧ PoolFull fullPool .add ∧ fullPool.fault = none) ∧
    (recordAt hanging hanging.pc = some (.multd (F 2) (F 1) (F 1)) ∧
      OperandsPresent hanging (.multd (F 2) (F 1) (F 1)) ∧ poolSize hanging .mul = 0) := by decide +kernel
/-- A register past its file, an address past the array. -/
theorem witness_MalformedOperandIsRefused : ¬ OperandsPresent (machine []) (.ld (F 12) 0) ∧
    ¬ OperandsPresent (machine []) (.st (F 0) 48) ∧ ¬ OperandsPresent (machine []) (.divd (R 0) (R 4) (F 0)) := by
  decide
/-- A found rank between busy slots, and none found. -/
theorem witness_AllocationDecoderOutputs :
    (allocDecoder true .addd [true, false, true] [] [] []).found = true ∧
    (allocDecoder true .multd [] [true, true] [] []).found = false ∧
    (allocDecoder true .ld [false] [] [] []).stall = true := by decide
theorem witness_EndOfProgramIssuesNothing : (machine []).pc = (machine []).prog.length ∧
    drained.pc = drained.prog.length := by decide +kernel
theorem witness_LastIssuedWins : ∃ t, exec (.addd (F 6) (F 1) (F 1)) adding = .next t ∧
    t.pc = adding.pc + 1 ∧ instrDest (.addd (F 6) (F 1) (F 1)) = some (F 6) ∧ IsBusy adding (ADD 0) := by
  obtain ⟨t, h, hp⟩ := exists_of_passes (o := exec (.addd (F 6) (F 1) (F 1)) adding)
    (p := fun t => decide (t.pc = adding.pc + 1)) (by decide +kernel)
  exact ⟨t, h, of_decide_eq_true hp, rfl, by decide +kernel⟩
/-- A word that decodes, and one that does not. -/
theorem witness_StepRunsDecodedRecord :
    ((machine [0x03000022#32]).fault = none ∧ (machine [0x03000022#32]).prog[0]? = some 0x03000022#32 ∧
      decode small 0x03000022#32 = .ok (.ld (F 6) 34)) ∧
    (machine [0xC0000000#32]).prog[0]? = some 0xC0000000#32 ∧
      decode small 0xC0000000#32 = .error .unknownOpcode := by decide
theorem witness_FaultFreezesTheMachine : (raiseFault (machine []) (.nonTermination 1)).fault ≠ none := by
  decide
/-- The runs of the statements on a cycle's outputs: a stall, and the end of the program. -/
theorem witness_stall : (∃ t o, runCycle fullPool = .next (t, o)) ∧ ∃ t o, runCycle drained = .next (t, o) := by
  obtain ⟨⟨t, o⟩, h, -⟩ := exists_of_passes (o := runCycle fullPool) (p := fun _ => true) (by decide +kernel)
  obtain ⟨⟨t', o'⟩, h', -⟩ := exists_of_passes (o := runCycle drained) (p := fun _ => true) (by decide +kernel)
  exact ⟨⟨t, o, h⟩, t', o', h'⟩
theorem witness_StampsAreTheNewCycle : ∃ t, adding.Inv ∧ adding.fault = none ∧ step adding = .next t ∧
    adding.ts[0]? = some { issue := 1, exec := 0, wb := 0 } := by
  obtain ⟨t, h⟩ := adding_steps
  exact ⟨t, adding_inv, by decide +kernel, h, by decide +kernel⟩
theorem witness_CycleOutputs : ∃ t o, adding.fault = none ∧ runCycle adding = .next (t, o) := by
  obtain ⟨t, o, h⟩ := adding_runs
  exact ⟨t, o, by decide +kernel, h⟩
theorem witness_StepKeepsParameters : ∃ t, step adding = .next t := adding_steps
/-- A record that finds a slot, one that finds none, and the end of the program. -/
theorem witness_PcAdvancesOnAllocation :
    (loading.fault = none ∧ recordAt loading loading.pc = some (.addd (F 8) (F 6) (F 2)) ∧
      (leastFree loading .add).isSome = true) ∧
    (fullPool.fault = none ∧ recordAt fullPool fullPool.pc = some (.addd (F 8) (F 1) (F 2)) ∧
      leastFree fullPool .add = none) ∧
    (drained.fault = none ∧ recordAt drained drained.pc = none) := by decide +kernel
theorem witness_PcAdvancesOnAllocation_steps : passes (step loading) (fun _ => true) = true ∧
    passes (step fullPool) (fun _ => true) = true ∧ passes (step drained) (fun _ => true) = true := by
  decide +kernel
/-- A slot that counts and one that waits for its operand. -/
theorem witness_TimerCountsWhenReady :
    slotView adding (ADD 0) = some { busy := true, ready := true, timer := 1, owner := 0 } ∧
    slotView loading (ADD 0) = some { busy := true, ready := false, timer := 2, owner := 1 } := by
  decide +kernel
theorem witness_CompletionMarksEligible : adding.ts[0]? = some { issue := 1, exec := 0, wb := 0 } ∧
    adding.ts[1]? = some { issue := 2, exec := 0, wb := 0 } := by decide +kernel
theorem witness_AluRows : numIsZero .q 0 = true ∧ numIsZero .q 3 = false := by decide +kernel
theorem witness_NumericResults : (3 : Val) ≠ 0 := by decide +kernel
theorem witness_ComparatorTruthTable : ADD 1 ≠ ADD 0 ∧ MUL 0 ≠ ADD 0 ∧ (ArithSlot.free 0).busy = false ∧
    (StoreSlot.free 0).busy = false := by decide
/-- A register that holds the tag and one that does not; a busy slot's operand that holds it, and one that
holds a value. -/
theorem witness_BroadcastReachesEveryHolder : readReg loading (F 6) = some (.tag (LOAD 0)) ∧
    readReg loading (F 1) ≠ some (.tag (LOAD 0)) ∧
    slotView loading (ADD 0) = some { busy := true, ready := false, timer := 2, owner := 1 } ∧
    (slotOperands loading (ADD 0))[0]? = some (.tag (LOAD 0)) ∧
    (slotOperands adding (ADD 0))[1]? = some (.value 4) := by decide +kernel
theorem witness_TransactionsCommute : ADD 0 ≠ ADD 1 := by decide
theorem witness_OperandKindCheckLatches :
    slotView loading (ADD 0) = some { busy := true, ready := false, timer := 2, owner := 1 } := by
  decide +kernel
theorem witness_NoStepRaisesOperandKind : ∃ t, adding.fault = none ∧ step adding = .next t := by
  obtain ⟨t, h⟩ := adding_steps
  exact ⟨t, by decide +kernel, h⟩
theorem witness_ArithmeticWritesBack : ∃ t o x, adding.Inv ∧ adding.fault = none ∧
    runCycle adding = .next (t, o) ∧ (arithSlots adding .add)[0]? = some x ∧ x.busy = true ∧
    x.j = .value 10 ∧ x.k = .value 4 ∧ x.timer = 1 := by
  obtain ⟨t, o, h⟩ := adding_runs
  exact ⟨t, o, { busy := true, op := .addd, j := .value 10, k := .value 4, timer := 1, owner := 0 },
    adding_inv, by decide +kernel, h, by decide +kernel, rfl, rfl, rfl, rfl⟩
theorem witness_LoadWritesBack : ∃ t o x, loading.Inv ∧ loading.fault = none ∧
    runCycle loading = .next (t, o) ∧ loading.load[0]? = some x ∧ x.busy = true ∧ x.timer = 1 := by
  obtain ⟨t, o, h, -⟩ := loading_runs
  exact ⟨t, o, { busy := true, addr := 34, timer := 1, owner := 0 }, loading_inv, by decide +kernel, h,
    by decide +kernel, rfl, rfl⟩
theorem witness_StoreWritesBack : ∃ t o x, storing.Inv ∧ storing.fault = none ∧
    runCycle storing = .next (t, o) ∧ storing.store[0]? = some x ∧ x.busy = true ∧ x.j = .value 4 ∧
    x.timer = 1 ∧ ∀ (r' : Nat) (z : StoreSlot), 0 < r' → storing.store[r']? = some z →
      completesNext storing (STORE r') = true → z.addr ≠ x.addr := by
  obtain ⟨t, o, h⟩ := storing_runs
  refine ⟨t, o, { busy := true, j := .value 4, addr := 5, timer := 1, owner := 1 }, storing_inv,
    by decide +kernel, h, by decide +kernel, rfl, rfl, rfl, ?_⟩
  intro r' z hr hz
  exact forall_getElem? (P := fun r (x : StoreSlot) => 0 < r → completesNext storing (STORE r) = true → x.addr ≠ 5)
    (by decide +kernel) r' z hz hr
theorem witness_StepChangesOnlyStoredCells : ∃ t, storing.Inv ∧ step storing = .next t ∧
    ∀ (r : Nat) (x : StoreSlot), storing.store[r]? = some x → completesNext storing (STORE r) = true →
      x.addr ≠ 6 := by
  obtain ⟨t, o, h⟩ := storing_runs
  exact ⟨t, storing_inv, step_of_runs h,
    forall_getElem? (P := fun r (x : StoreSlot) => completesNext storing (STORE r) = true → x.addr ≠ 6) (by decide +kernel)⟩
/-- A register that holds a value, and one that waits for a slot that does not complete. -/
theorem witness_StepChangesOnlyNamedRegisters : ∃ t, loading.Inv ∧ step loading = .next t ∧
    readReg loading (F 1) = some (.value 10) ∧ NotRenamedNext loading (F 1) ∧
    readReg loading (F 2) = some (.tag (ADD 0)) ∧ NotRenamedNext loading (F 2) ∧
    completesNext loading (ADD 0) = false := by
  obtain ⟨t, o, h, -⟩ := loading_runs
  exact ⟨t, loading_inv, step_of_runs h, by decide +kernel, by decide +kernel, by decide +kernel,
    by decide +kernel, by decide +kernel⟩
/-- A slot of each kind that is neither allocated nor completes, with operands that keep their entries. -/
theorem witness_StepKeepsOtherSlots_arith : ∃ t x, fullPool.Inv ∧ fullPool.fault = none ∧
    step fullPool = .next t ∧ (arithSlots fullPool .add)[0]? = some x ∧
    completesNext fullPool (ADD 0) = false ∧ ¬ Claims.AllocatedNext fullPool (ADD 0) ∧
    Claims.NotResolvedNext fullPool x.j ∧ Claims.NotResolvedNext fullPool x.k := by
  obtain ⟨⟨t, o⟩, h, -⟩ := exists_of_passes (o := runCycle fullPool) (p := fun _ => true) (by decide +kernel)
  exact ⟨t, { busy := true, op := .addd, j := .value 10, k := .value 4, timer := 2, owner := 0 }, fullPool_inv,
    by decide +kernel, step_of_runs h, by decide +kernel, by decide +kernel, by decide +kernel,
    fun _ e => Entry.noConfusion e, fun _ e => Entry.noConfusion e⟩
theorem witness_StepKeepsOtherSlots_load : ∃ t, fetched.Inv ∧ fetched.fault = none ∧ step fetched = .next t ∧
    fetched.load[0]? = some { busy := true, addr := 34, timer := 2, owner := 0 } ∧
    completesNext fetched (LOAD 0) = false ∧ ¬ Claims.AllocatedNext fetched (LOAD 0) := by
  obtain ⟨⟨t, o⟩, h, -⟩ := exists_of_passes (o := runCycle fetched) (p := fun _ => true) (by decide +kernel)
  exact ⟨t, fetched_inv, by decide +kernel, step_of_runs h, by decide +kernel, by decide +kernel, by decide +kernel⟩
theorem witness_StepKeepsOtherSlots_store : ∃ t x, adding.Inv ∧ adding.fault = none ∧ step adding = .next t ∧
    adding.store[0]? = some x ∧ completesNext adding (STORE 0) = false ∧
    ¬ Claims.AllocatedNext adding (STORE 0) ∧ Claims.NotResolvedNext adding x.j := by
  obtain ⟨t, h⟩ := adding_steps
  exact ⟨t, { busy := true, j := .value 4, addr := 5, timer := 2, owner := 1 }, adding_inv, by decide +kernel, h,
    by decide +kernel, by decide +kernel, by decide +kernel, fun _ e => Entry.noConfusion e⟩
/-- The first source of an ADDD. -/
theorem witness_SameCycleCaptureIsResolved : ∃ t o, loading.Inv ∧ loading.fault = none ∧
    runCycle loading = .next (t, o) ∧ recordAt loading loading.pc = some (.addd (F 8) (F 6) (F 2)) ∧
    leastFree loading .add = some 1 ∧ (Claims.sources (.addd (F 8) (F 6) (F 2)))[0]? = some (F 6) ∧
    readReg loading (F 6) = some (.tag (LOAD 0)) ∧ (LOAD 0, 12) ∈ o.cdb := by
  obtain ⟨t, o, h, hc⟩ := loading_runs
  exact ⟨t, o, loading_inv, by decide +kernel, h, by decide +kernel, by decide +kernel, rfl, by decide +kernel, hc⟩
/-- The second source of a SUBD. -/
theorem witness_SameCycleCaptureIsResolved_second :
    let s := loadingThen (.subd (F 8) (F 1) (F 6))
    s.Inv ∧ s.fault = none ∧ passes (runCycle s) (fun p => decide ((LOAD 0, 12) ∈ p.2.cdb)) = true ∧
    recordAt s s.pc = some (.subd (F 8) (F 1) (F 6)) ∧ leastFree s .add = some 1 ∧
    (Claims.sources (.subd (F 8) (F 1) (F 6)))[1]? = some (F 6) ∧ readReg s (F 6) = some (.tag (LOAD 0)) :=
  ⟨loadingThen_subd_inv, by decide +kernel, by decide +kernel, by decide +kernel, by decide +kernel, rfl,
    by decide +kernel⟩
/-- The source of a ST. -/
theorem witness_SameCycleCaptureIsResolved_store :
    let s := loadingThen (.st (F 6) 3)
    s.Inv ∧ s.fault = none ∧ passes (runCycle s) (fun p => decide ((LOAD 0, 12) ∈ p.2.cdb)) = true ∧
    recordAt s s.pc = some (.st (F 6) 3) ∧ leastFree s .store = some 0 ∧
    (Claims.sources (.st (F 6) 3))[0]? = some (F 6) ∧ readReg s (F 6) = some (.tag (LOAD 0)) :=
  ⟨loadingThen_st_inv, by decide +kernel, by decide +kernel, by decide +kernel, by decide +kernel, rfl,
    by decide +kernel⟩
theorem witness_BusTraceFollowsScanOrder : ∃ t o, loading.Inv ∧ loading.fault = none ∧
    runCycle loading = .next (t, o) := by
  obtain ⟨t, o, h, -⟩ := loading_runs
  exact ⟨t, o, loading_inv, by decide +kernel, h⟩
/-- The last cell, and the first address that is none. -/
theorem witness_MemoryPrimitives : Memory.wf (machine []).mem = true ∧ 47 < (machine []).cfg.memSize ∧
    (machine []).cfg.memSize ≤ 48 := by decide +kernel
theorem witness_NoTagAfterWriteback : ∃ t, loading.Inv ∧ loading.fault = none ∧ step loading = .next t ∧
    completesNext loading (LOAD 0) = true := by
  obtain ⟨t, o, h, -⟩ := loading_runs
  exact ⟨t, loading_inv, by decide +kernel, step_of_runs h, by decide +kernel⟩
/-- No budget; a budget used up in this step; one that is not. -/
theorem witness_BudgetLatchesNonTermination :
    passes (step (machine [0x03000022#32])) (fun t => decide (t.fault = none)) = true ∧
    passes (step (initState { small with maxCycles := some 1 } [0x03000022#32])) (fun t =>
      decide (1 ≤ t.cycle ∧ done t = false ∧ t.fault = some (.nonTermination 1))) = true ∧
    passes (step (initState { small with maxCycles := some 2 } [0x03000022#32])) (fun t =>
      decide (¬ 2 ≤ t.cycle ∧ t.fault = none)) = true := by decide +kernel
theorem witness_DoneMeansDrained : drained.Inv ∧ done drained = true ∧ loading.Inv ∧ done loading = false :=
  ⟨drained_inv, by decide +kernel, loading_inv, by decide +kernel⟩
/-- A done and a faulted machine, an empty program, and a run that ends before its bound. -/
theorem witness_DriverRunsUntilTermination : done drained = true ∧
    (raiseFault (machine []) (.nonTermination 1)).fault ≠ none ∧ loadMachine small [] = .ok (machine []) ∧
    passes (drive 5 fetched) (fun t => done t && decide (t.cycle = 3)) = true :=
  ⟨by decide +kernel, by decide, rfl, by decide +kernel⟩
theorem witness_StateAtDone : drained.Inv ∧ done drained = true ∧ drained.fault = none :=
  ⟨drained_inv, by decide +kernel, by decide +kernel⟩
theorem witness_TimestampsAreOrdered : ∃ t, loadMachine small [0x03000022#32] = .ok (machine [0x03000022#32]) ∧
    runSteps 3 (machine [0x03000022#32]) = .next t ∧ t.ts[0]? = some { issue := 1, exec := 3, wb := 3 } ∧
    recordAt t 0 = some (.ld (F 6) 34) := by
  have hr : passes (runSteps 3 (machine [0x03000022#32])) (fun t : State =>
      decide (t.ts[0]? = some ({ issue := 1, exec := 3, wb := 3 } : Stamp)) &&
      decide (recordAt t 0 = some (.ld (F 6) 34))) = true := by decide +kernel
  obtain ⟨t, h, hp⟩ := exists_of_passes hr
  simp only [Bool.and_eq_true, decide_eq_true_eq] at hp
  exact ⟨t, rfl, h, hp.1, hp.2⟩
theorem witness_EmptyPoolHangs : hanging.Inv ∧ hanging.fault = none ∧ hanging.cfg.maxCycles = none ∧
    recordAt hanging hanging.pc = some (.multd (F 2) (F 1) (F 1)) ∧ poolSize hanging .mul = 0 :=
  ⟨hanging_inv, by decide +kernel, rfl, by decide +kernel, by decide +kernel⟩
/-- One LD with exactly the budget of three cycles that it takes. -/
theorem witness_EveryProgramReachesDone :
    let cfg : Config := { small with maxCycles := some 3 }
    let s := initState cfg [0x03000022#32]
    loadMachine cfg [0x03000022#32] = .ok s ∧
    (∀ k i, recordAt s k = some i → 0 < poolSize s (classOf (instrOpcode i))) ∧
    ∀ m ∈ cfg.maxCycles, [0x03000022#32].length + latencySum s ≤ m := by
  refine ⟨rfl, fun k i h => ?_, ?_⟩
  · cases k with
    | zero =>
      obtain rfl : Instr.ld (F 6) 34 = i := Option.some.inj h
      decide +kernel
    | succ k => cases h
  · intro m hm
    obtain rfl : 3 = m := Option.some.inj hm
    decide +kernel
theorem witness_ReadySlotTiming : ∃ t, loading.Inv ∧
    slotView loading (LOAD 0) = some { busy := true, ready := true, timer := 1, owner := 0 } ∧
    runSteps 1 loading = .next t ∧ t.fault = none := by
  obtain ⟨t, h, hp⟩ := exists_of_passes (o := runSteps 1 loading)
    (p := fun t => decide (t.fault = none)) (by decide +kernel)
  exact ⟨t, loading_inv, by decide +kernel, h, of_decide_eq_true hp⟩
theorem witness_TagEncodingIdentifiesSlot :
    2 < max (max Config.default.nadd Config.default.nmul) (max Config.default.nload Config.default.nstore) := by
  decide

end Sys2Proof.Tests
end

section
/-! SUPPORT. The fields of a record word as numbers, and the decoder on them (R82 to R87, R94, 30_encoding). -/

namespace Sys2Proof

/-! ### The fields -/

/-- A field cut out of a word is the number of its bits. -/
theorem toNat_extractLsb'_eq_bits (w : Word) (hi lo : Nat) :
    (w.extractLsb' lo (hi - lo + 1)).toNat = Claims.bits w hi lo := by
  rw [BitVec.extractLsb'_toNat, Nat.shiftRight_eq_div_pow, Claims.bits]

theorem fieldOp_toNat (w : Word) : (fieldOp w).toNat = Claims.bits w 31 29 :=
  toNat_extractLsb'_eq_bits w 31 29

theorem fieldRd_toNat (w : Word) : (fieldRd w).toNat = Claims.bits w 28 23 :=
  toNat_extractLsb'_eq_bits w 28 23

theorem fieldRs1_toNat (w : Word) : (fieldRs1 w).toNat = Claims.bits w 22 17 :=
  toNat_extractLsb'_eq_bits w 22 17

theorem fieldRs2_toNat (w : Word) : (fieldRs2 w).toNat = Claims.bits w 16 11 :=
  toNat_extractLsb'_eq_bits w 16 11

theorem fieldZero_toNat (w : Word) : (fieldZero w).toNat = Claims.bits w 10 0 :=
  toNat_extractLsb'_eq_bits w 10 0

theorem fieldAddr_eq_bits (w : Word) : fieldAddr w = Claims.bits w 22 0 :=
  toNat_extractLsb'_eq_bits w 22 0

theorem fieldZero_eq_zero_iff {w : Word} : fieldZero w = 0#11 ↔ Claims.bits w 10 0 = 0 := by
  rw [← fieldZero_toNat, ← BitVec.toNat_inj, BitVec.toNat_ofNat, Nat.zero_mod]

/-! ### Specifiers and addresses -/

/-- The register of a specifier, read from its number. -/
theorem regOfSpec_eq_reg (f : BitVec 6) : regOfSpec f = Claims.reg f.toNat := by
  have hfile : f.extractLsb' 5 1 = 0#1 ↔ f.toNat / 32 = 0 := by
    rw [← BitVec.toNat_inj, BitVec.extractLsb'_toNat, Nat.shiftRight_eq_div_pow]
    have := f.isLt
    simp only [BitVec.toNat_ofNat]
    omega
  simp only [regOfSpec, Claims.reg, hfile, BitVec.extractLsb'_toNat, Nat.shiftRight_zero, Nat.reducePow]

@[simp] theorem regLegal_eq_true_iff {cfg : Config} {q : RegName} :
    regLegal cfg q = true ↔ q.WellFormed cfg := by
  obtain ⟨file, idx⟩ := q
  cases file <;> exact decide_eq_true_iff

theorem regLegal_eq_false_iff {cfg : Config} {q : RegName} :
    regLegal cfg q = false ↔ ¬ q.WellFormed cfg := by
  rw [← regLegal_eq_true_iff, Bool.not_eq_true]

theorem addrLegal_eq_false_iff {cfg : Config} {a : Nat} : addrLegal cfg a = false ↔ cfg.memSize ≤ a := by
  rw [addrLegal, decide_eq_false_iff_not, Nat.not_lt]

/-! ### The opcode field -/

/-- The code that names an opcode is that opcode's code. -/
theorem toNat_of_opcodeOfCode_eq_some {b : BitVec 3} {op : Opcode} :
    opcodeOfCode b = some op → b.toNat = (opcodeCode op).toNat := by
  revert b op
  decide

/-- Six and seven, and no other code, name no opcode. -/
theorem opcodeOfCode_eq_none_iff {b : BitVec 3} :
    opcodeOfCode b = none ↔ b.toNat = 6 ∨ b.toNat = 7 := by
  revert b
  decide

/-! ### The two formats and the decoder -/

/-- Format M on numbers. -/
theorem decodeM_eq (cfg : Config) (mk : RegName → Nat → Instr) (w : Word) :
    decodeM cfg mk w =
      if ¬ (Claims.reg (Claims.bits w 28 23)).WellFormed cfg then .error .malformedOperand
      else if cfg.memSize ≤ Claims.bits w 22 0 then .error .malformedOperand
      else .ok (mk (Claims.reg (Claims.bits w 28 23)) (Claims.bits w 22 0)) := by
  simp only [decodeM, regOfSpec_eq_reg, fieldRd_toNat, fieldAddr_eq_bits, regLegal_eq_false_iff,
    addrLegal_eq_false_iff]

/-- Format A on numbers. -/
theorem decodeA_eq (cfg : Config) (mk : RegName → RegName → RegName → Instr) (w : Word) :
    decodeA cfg mk w =
      if Claims.bits w 10 0 ≠ 0 then .error .malformedOperand
      else if ¬ ((Claims.reg (Claims.bits w 28 23)).WellFormed cfg ∧
          (Claims.reg (Claims.bits w 22 17)).WellFormed cfg ∧
          (Claims.reg (Claims.bits w 16 11)).WellFormed cfg) then .error .malformedOperand
      else .ok (mk (Claims.reg (Claims.bits w 28 23)) (Claims.reg (Claims.bits w 22 17))
        (Claims.reg (Claims.bits w 16 11))) := by
  simp only [decodeA, regOfSpec_eq_reg, fieldRd_toNat, fieldRs1_toNat, fieldRs2_toNat, ne_eq,
    fieldZero_eq_zero_iff, ← Bool.not_eq_true, Bool.and_eq_true, regLegal_eq_true_iff, and_assoc]

/-- The opcode names the format, and each format reads its fields. -/
theorem decode_eq_specDecode (cfg : Config) (w : Word) : decode cfg w = Claims.specDecode cfg w := by
  unfold decode Claims.specDecode
  rcases h : opcodeOfCode (fieldOp w) with _ | op
  · have hop := opcodeOfCode_eq_none_iff.1 h
    rw [fieldOp_toNat] at hop
    simp only [if_pos hop]
  · have hop := toNat_of_opcodeOfCode_eq_some h
    rw [fieldOp_toNat] at hop
    cases op <;> simp [hop, opcodeCode, decodeM_eq, decodeA_eq]

/-- Settles O3: the opcode field selects the format, whose fields are the numbers the rules name. -/
theorem decoderReadsTheFields : Obligations.DecoderReadsTheFields :=
  decode_eq_specDecode

/-! ### Unknown opcodes -/

theorem decodeM_ne_unknownOpcode (cfg : Config) (mk : RegName → Nat → Instr) (w : Word) :
    decodeM cfg mk w ≠ .error .unknownOpcode := by
  rw [decodeM_eq]
  split_ifs <;> simp

theorem decodeA_ne_unknownOpcode (cfg : Config) (mk : RegName → RegName → RegName → Instr) (w : Word) :
    decodeA cfg mk w ≠ .error .unknownOpcode := by
  rw [decodeA_eq]
  split_ifs <;> simp

/-- Only the opcode field makes a word an unknown opcode: neither format answers it. -/
theorem decode_eq_unknownOpcode_iff {cfg : Config} {w : Word} :
    decode cfg w = .error .unknownOpcode ↔ Claims.bits w 31 29 = 6 ∨ Claims.bits w 31 29 = 7 := by
  rw [← fieldOp_toNat, ← opcodeOfCode_eq_none_iff, decode]
  rcases opcodeOfCode (fieldOp w) with _ | op
  · simp
  · cases op <;> simp [decodeM_ne_unknownOpcode, decodeA_ne_unknownOpcode]

end Sys2Proof
end

section
/-! SUPPORT. Each test of the load-time check, and what the check answers where it is the first to fail (R96,
30_encoding). -/

namespace Sys2Proof.Machine

/-! ### The records -/

/-- The test of the records passes exactly where every record decodes. -/
theorem checkRecords_eq_none {cfg : Config} {k : Nat} {prog : List Word} :
    checkRecords cfg k prog = none ↔ ∀ w ∈ prog, ∃ i, decode cfg w = .ok i := by
  induction prog generalizing k with
  | nil => simp [checkRecords]
  | cons w rest ih =>
    rw [checkRecords]
    cases h : decode cfg w with
    | error e => simp [h]
    | ok i => simp [h, ih]

/-- The test of the records, counted from `k`, names the first record that does not decode. -/
theorem checkRecords_eq_some {cfg : Config} {k n : Nat} {prog : List Word} {w : Word} {e : DecodeError}
    (hw : prog[n]? = some w) (he : decode cfg w = .error e)
    (hfirst : ∀ (l : Nat) (v : Word), l < n → prog[l]? = some v → ∃ i, decode cfg v = .ok i) :
    checkRecords cfg k prog = some (recordError (k + n) e) := by
  induction prog generalizing k n with
  | nil => simp at hw
  | cons v rest ih =>
    cases n with
    | zero =>
      obtain rfl : v = w := by simpa using hw
      simp [checkRecords, he]
    | succ n =>
      obtain ⟨i, hi⟩ := hfirst 0 v n.succ_pos rfl
      have hrest := ih (k := k + 1) hw fun l u hl hu => hfirst (l + 1) u (Nat.succ_lt_succ hl) hu
      simp only [checkRecords, hi, hrest, Nat.add_right_comm k 1 n, Nat.add_assoc]

/-! ### The latencies -/

theorem latencyBad_eq_true {cfg : Config} {op : Opcode} :
    latencyBad cfg op = true ↔ ¬ LatencyWellFormed cfg.timw (latOf cfg op) := by
  rw [← latencyBad_eq_false, Bool.not_eq_false]

/-- The test of the latencies names the first opcode, in code order, whose latency is bad. -/
theorem checkLatencies_eq_some {cfg : Config} {n : Nat} {op : Opcode} (hop : allOpcodes[n]? = some op)
    (hbad : ¬ LatencyWellFormed cfg.timw (latOf cfg op))
    (hfirst : ∀ (m : Nat) (op' : Opcode), m < n → allOpcodes[m]? = some op' →
      LatencyWellFormed cfg.timw (latOf cfg op')) :
    checkLatencies cfg = some (.badLatency op) := by
  obtain ⟨hn, hget⟩ := List.getElem?_eq_some_iff.1 hop
  have hfind : allOpcodes.find? (latencyBad cfg) = some op := by
    refine List.find?_eq_some_iff_getElem.2 ⟨latencyBad_eq_true.2 hbad, n, hn, hget, fun m hm => ?_⟩
    have hgood := hfirst m _ hm (List.getElem?_eq_getElem (hm.trans hn))
    rw [latencyBad_eq_false.2 hgood]
    rfl
  rw [checkLatencies, hfind]
  rfl

/-! ### The check -/

/-- The check refuses where the records' test does, whatever the other tests say. -/
theorem loadCheck_of_checkRecords {cfg : Config} {prog : List Word} {e : ConfigError}
    (h : checkRecords cfg 0 prog = some e) : loadCheck cfg prog = some e := by
  simp only [loadCheck, h]

/-- Where the records pass, the check refuses where the latencies' test does. -/
theorem loadCheck_of_checkLatencies {cfg : Config} {prog : List Word} {e : ConfigError}
    (hrec : checkRecords cfg 0 prog = none) (h : checkLatencies cfg = some e) :
    loadCheck cfg prog = some e := by
  simp only [loadCheck, hrec, h]

/-- Where records and latencies pass, the check refuses a program of `2^PCW` or more records. -/
theorem loadCheck_of_length_ge {cfg : Config} {prog : List Word}
    (hrec : checkRecords cfg 0 prog = none) (hlat : checkLatencies cfg = none)
    (h : 2 ^ cfg.pcw ≤ prog.length) : loadCheck cfg prog = some .programTooLong := by
  simp only [loadCheck, hrec, hlat, if_pos h]

/-- Where records, latencies and length pass, the check refuses bad sizes and a budget of 0. -/
theorem loadCheck_of_sizesBad_or_budgetBad {cfg : Config} {prog : List Word}
    (hrec : checkRecords cfg 0 prog = none) (hlat : checkLatencies cfg = none)
    (hlen : prog.length < 2 ^ cfg.pcw) (h : ¬ (cfg.SizesWellFormed ∧ cfg.BudgetWellFormed)) :
    loadCheck cfg prog = some .badSize := by
  rw [← sizesBad_eq_false, ← budgetBad_eq_false] at h
  simp only [loadCheck, hrec, hlat, if_neg (Nat.not_le.2 hlen)]
  cases hs : sizesBad cfg with
  | true => rfl
  | false =>
    have hb : budgetBad cfg = true := Bool.of_not_eq_false fun hb => h ⟨hs, hb⟩
    simp [hb]

/-! ### The construction of a machine -/

theorem loadMachine_eq_error {cfg : Config} {prog : List Word} {e : ConfigError} :
    loadMachine cfg prog = .error e ↔ loadCheck cfg prog = some e := by
  unfold loadMachine
  cases loadCheck cfg prog <;> simp

/-- Every record of a program that a constructed machine holds decodes. -/
theorem decode_ok_of_loadMachine {cfg : Config} {prog : List Word} {s : State} {w : Word}
    (h : loadMachine cfg prog = .ok s) (hw : w ∈ prog) : ∃ i, decode cfg w = .ok i := by
  obtain ⟨hcheck, -⟩ := loadMachine_eq_ok.1 h
  obtain ⟨hrec, -⟩ := loadCheck_eq_none.1 hcheck
  exact checkRecords_eq_none.1 hrec w hw

/-- Settles O5: neither format answers an unknown opcode, and every record of a loaded program decodes. -/
theorem unknownOpcodeNeverLoads : Obligations.UnknownOpcodeNeverLoads := by
  intro cfg w
  refine ⟨decode_eq_unknownOpcode_iff, fun prog hw hop => ?_⟩
  cases hload : loadMachine cfg prog with
  | error e => exact ⟨e, rfl⟩
  | ok s =>
    obtain ⟨i, hi⟩ := decode_ok_of_loadMachine hload hw
    have hbad : decode cfg w = .error .unknownOpcode := decode_eq_unknownOpcode_iff.2 hop
    rw [hi] at hbad
    cases hbad

/-- Settles O7: each test answers where those before it pass. -/
theorem loadCheckOrder : Obligations.LoadCheckOrder := by
  intro cfg prog
  refine ⟨fun k w e hw he hfirst => ?_, fun hdec => ?_⟩
  · have hrec := checkRecords_eq_some (k := 0) hw he hfirst
    rw [Nat.zero_add] at hrec
    exact loadMachine_eq_error.2 (loadCheck_of_checkRecords hrec)
  have hrec : checkRecords cfg 0 prog = none := checkRecords_eq_none.2 hdec
  refine ⟨fun n op hop hbad hfirst => ?_, fun hlat => ⟨fun hlen => ?_, fun hlen => ⟨fun hbad => ?_, ?_⟩⟩⟩
  · exact loadMachine_eq_error.2 (loadCheck_of_checkLatencies hrec (checkLatencies_eq_some hop hbad hfirst))
  · exact loadMachine_eq_error.2 (loadCheck_of_length_ge hrec (checkLatencies_eq_none.2 hlat) hlen)
  · exact loadMachine_eq_error.2
      (loadCheck_of_sizesBad_or_budgetBad hrec (checkLatencies_eq_none.2 hlat) hlen hbad)
  · rintro ⟨hsizes, hbudget, hwidths⟩
    have hcfg : cfg.WellFormed := ⟨hlat, hsizes, hbudget, hwidths⟩
    exact loadMachine_eq_ok.2 ⟨loadCheck_eq_none.2 ⟨hrec, hlen, hcfg⟩, rfl⟩

end Sys2Proof.Machine
end

section
/-! SUPPORT. The issue phase: which slot it takes, what it does where the pool has one and where it has none, and
the end of the program (R111 to R121, 40_issue). -/

namespace Sys2Proof.Machine

/-! ### The free slot -/

theorem leastFree_eq_some {s : State} {p : Pool} {r : Nat} : leastFree s p = some r ↔ IsLeastFree s p r :=
  priorityEncoder_eq_some

theorem leastFree_eq_none {s : State} {p : Pool} : leastFree s p = none ↔ PoolFull s p :=
  priorityEncoder_eq_none

theorem poolFull_of_poolSize_eq_zero {s : State} {p : Pool} (h : poolSize s p = 0) : PoolFull s p := by
  have hnil : busyBits s p = [] := List.length_eq_zero_iff.1 h
  simp [hnil]

/-! ### The record at `pc` -/

theorem recordAt_eq_some {s : State} {k : Nat} {i : Instr} :
    recordAt s k = some i ↔ ∃ w, s.prog[k]? = some w ∧ decode s.cfg w = .ok i := by
  unfold recordAt
  cases hw : s.prog[k]? with
  | none => simp
  | some w => cases hi : decode s.cfg w <;> simp [hi]

theorem recordAt_eq_none_of_length_le {s : State} {k : Nat} (h : s.prog.length ≤ k) : recordAt s k = none := by
  simp only [recordAt, List.getElem?_eq_none h]

/-- The record at `pc` acts (R111, 40_issue). -/
theorem issuePhase_of_recordAt {s : State} {i : Instr} (h : recordAt s s.pc = some i) :
    issuePhase s = exec i s := by
  obtain ⟨w, hw, hi⟩ := recordAt_eq_some.1 h
  simp only [issuePhase, hw, hi]

/-- At the end of the program nothing acts (R112, 40_issue). -/
theorem issuePhase_of_length_le {s : State} (h : s.prog.length ≤ s.pc) : issuePhase s = .next s := by
  simp only [issuePhase, List.getElem?_eq_none h]

/-- The issue phase answers the same state where there is no record at `pc`, else what the record does. -/
theorem issuePhase_eq_next_recordAt {s t : State} (h : issuePhase s = .next t) :
    (recordAt s s.pc = none ∧ t = s) ∨ ∃ i, recordAt s s.pc = some i ∧ exec i s = .next t := by
  obtain ⟨hw, rfl⟩ | ⟨w, i, hw, hi, hexec⟩ := issuePhase_eq_next h
  · exact .inl ⟨recordAt_eq_none_of_length_le (List.getElem?_eq_none_iff.1 hw), rfl⟩
  · exact .inr ⟨i, recordAt_eq_some.2 ⟨w, hw, hi⟩, hexec⟩

/-! ### The issue of each class where its operands are present: a stall, or one allocation -/

theorem issueArith_eq {op : Opcode} {rd rs1 rs2 : RegName} {s : State} {j k e : Entry}
    (hj : readReg s rs1 = some j) (hk : readReg s rs2 = some k) (he : readReg s rd = some e) :
    issueArith op rd rs1 rs2 s = (leastFree s (classOf op)).elim (.next s) fun r =>
      .next (advancePc (writeReg
        (stampIssue (putArithSlot s (classOf op) r (allocatedArith s op j k)) s.pc)
        rd (.tag { pool := classOf op, rank := r }))) := by
  simp only [issueArith, hj, hk, he]
  cases leastFree s (classOf op) <;> rfl

theorem execLd_eq {rd : RegName} {addr : Nat} {s : State} {e : Entry} (he : readReg s rd = some e)
    (ha : addr < s.cfg.memSize) :
    execLd rd addr s = (leastFree s .load).elim (.next s) fun r =>
      .next (advancePc (writeReg (stampIssue (putLoadSlot s r (allocatedLoad s addr)) s.pc)
        rd (.tag { pool := .load, rank := r }))) := by
  simp only [execLd, effectiveAddr, he, if_pos ha, classOf]
  cases leastFree s .load <;> rfl

theorem execSt_eq {rs : RegName} {addr : Nat} {s : State} {j : Entry} (hj : readReg s rs = some j)
    (ha : addr < s.cfg.memSize) :
    execSt rs addr s = (leastFree s .store).elim (.next s) fun r =>
      .next (advancePc (stampIssue (putStoreSlot s r (allocatedStore s j addr)) s.pc)) := by
  simp only [execSt, effectiveAddr, hj, if_pos ha, classOf]
  cases leastFree s .store <;> rfl

/-- With no free slot in its pool an instruction changes nothing (R114, 40_issue). -/
theorem exec_of_poolFull {s : State} {i : Instr} (hops : OperandsPresent s i)
    (hfull : PoolFull s (classOf (instrOpcode i))) : exec i s = .next s := by
  have hnone := leastFree_eq_none.2 hfull
  have harith : ∀ {op rd rs1 rs2}, (readReg s rd).isSome = true ∧ (readReg s rs1).isSome = true ∧
      (readReg s rs2).isSome = true → leastFree s (classOf op) = none →
      issueArith op rd rs1 rs2 s = .next s := by
    rintro op rd rs1 rs2 ⟨hd, h1, h2⟩ hnone
    obtain ⟨e, he⟩ := Option.isSome_iff_exists.1 hd
    obtain ⟨j, hj⟩ := Option.isSome_iff_exists.1 h1
    obtain ⟨k, hk⟩ := Option.isSome_iff_exists.1 h2
    rw [issueArith_eq hj hk he, hnone, Option.elim_none]
  cases i with
  | ld rd addr =>
    obtain ⟨hd, ha⟩ := hops
    obtain ⟨e, he⟩ := Option.isSome_iff_exists.1 hd
    have hnone : leastFree s .load = none := hnone
    simp only [exec, execLd_eq he ha, hnone, Option.elim_none]
  | st rs addr =>
    obtain ⟨hs, ha⟩ := hops
    obtain ⟨j, hj⟩ := Option.isSome_iff_exists.1 hs
    have hnone : leastFree s .store = none := hnone
    simp only [exec, execSt_eq hj ha, hnone, Option.elim_none]
  | addd rd rs1 rs2 => exact harith hops hnone
  | subd rd rs1 rs2 => exact harith hops hnone
  | multd rd rs1 rs2 => exact harith hops hnone
  | divd rd rs1 rs2 => exact harith hops hnone

/-- The issue of any instruction: a stall, or an allocation that advances `pc` and stamps the owner's issue
(R114, R116, R121, 40_issue). -/
theorem exec_eq_next {i : Instr} {s t : State} (h : exec i s = .next t) :
    (leastFree s (classOf (instrOpcode i)) = none ∧ t = s) ∨
    ((leastFree s (classOf (instrOpcode i))).isSome = true ∧ t.pc = s.pc + 1 ∧
      t.ts = (stampIssue s s.pc).ts) := by
  have harith : ∀ {op rd rs1 rs2}, issueArith op rd rs1 rs2 s = .next t →
      (leastFree s (classOf op) = none ∧ t = s) ∨
      ((leastFree s (classOf op)).isSome = true ∧ t.pc = s.pc + 1 ∧ t.ts = (stampIssue s s.pc).ts) := by
    intro op rd rs1 rs2 h
    obtain ⟨j, k, e, -, -, -, hstall | ⟨r, hr, rfl⟩⟩ := issueArith_eq_next h
    · exact .inl hstall
    · exact .inr (by simp [hr])
  cases i with
  | ld rd addr =>
    obtain ⟨e, -, -, hstall | ⟨r, hr, rfl⟩⟩ := execLd_eq_next h
    · exact .inl hstall
    · exact .inr (by simp [hr, instrOpcode, classOf])
  | st rs addr =>
    obtain ⟨j, -, -, hstall | ⟨r, hr, rfl⟩⟩ := execSt_eq_next h
    · exact .inl hstall
    · exact .inr (by simp [hr, instrOpcode, classOf])
  | addd rd rs1 rs2 => exact harith h
  | subd rd rs1 rs2 => exact harith h
  | multd rd rs1 rs2 => exact harith h
  | divd rd rs1 rs2 => exact harith h

/-! ### What an allocation changes -/

theorem getElem?_stampIssue_ts (s : State) (m k : Nat) :
    (stampIssue s m).ts[k]? =
      if k = m then s.ts[k]?.map (fun y => { y with issue := s.cycle }) else s.ts[k]? := by
  rw [stampIssue_ts, List.getElem?_modify]
  by_cases hk : k = m
  · simp [hk]
  · simp [hk, Ne.symm hk]

/-- An instruction that finds a slot is issued, whatever its class. -/
theorem issued_of_exec {i : Instr} {s t : State} {r : Nat} (h : exec i s = .next t)
    (hr : leastFree s (classOf (instrOpcode i)) = some r) : Claims.Issued s t := by
  obtain ⟨hnone, -⟩ | ⟨-, hpc, hts⟩ := exec_eq_next h
  · rw [hr] at hnone
    cases hnone
  · have hkeeps := exec_keeps h
    exact {
      pc := hpc
      stamp := fun k => by rw [hts, getElem?_stampIssue_ts]
      cfg := hkeeps.cfg
      prog := hkeeps.prog
      cycle := hkeeps.cycle
      mem := hkeeps.mem
      fault := hkeeps.fault }

/-- Writing a tag to an existing register renames it, where the slots and stamps written before and the
advance of `pc` after leave the registers alone. -/
theorem renamed_of_writeReg {s w : State} {rd : RegName} {e : Entry} {u : Tag} (hf : w.freg = s.freg)
    (hr : w.ireg = s.ireg) (he : readReg s rd = some e) :
    Claims.Renamed s (advancePc (writeReg w rd (.tag u))) rd u := by
  have hread : ∀ q, readReg (advancePc (writeReg w rd (.tag u))) q = readReg (writeReg w rd (.tag u)) q :=
    readReg_congr rfl rfl
  refine ⟨?_, fun q hq => ?_⟩
  · rw [hread]
    exact readReg_writeReg_same ((readReg_congr hf hr rd).trans he)
  · rw [hread, readReg_writeReg_other _ hq, readReg_congr hf hr]

/-- Settles O14: the one allocation of `execLd`, field by field. -/
theorem ldIssues : Obligations.LdIssues := by
  intro s rd addr r hrd ha hfree
  obtain ⟨e, he⟩ := Option.isSome_iff_exists.1 hrd
  have hr : leastFree s .load = some r := leastFree_eq_some.2 hfree
  have hexec := execLd_eq he ha
  rw [hr, Option.elim_some] at hexec
  exact ⟨_, hexec, issued_of_exec (i := .ld rd addr) hexec hr, by simp [allocatedLoad, latOf], by simp, by simp,
    by simp, renamed_of_writeReg rfl rfl he⟩

/-- Settles O15: the one allocation of `execSt`, which writes neither register file. -/
theorem stIssues : Obligations.StIssues := by
  intro s rs addr r j hj ha hfree
  have hr : leastFree s .store = some r := leastFree_eq_some.2 hfree
  have hexec := execSt_eq hj ha
  rw [hr, Option.elim_some] at hexec
  exact ⟨_, hexec, issued_of_exec (i := .st rs addr) hexec hr, by simp [allocatedStore, latOf], by simp, by simp,
    by simp, readReg_congr (by simp) (by simp)⟩

end Sys2Proof.Machine
end

section
/-! SUPPORT. The issue phase within the cycle: the output `stall`, and what the phases after it leave alone
(R42, 10_state; R185, 43_cycle_driver). -/

namespace Sys2Proof.Machine

/-! ### Counting the cycle changes nothing that the issue phase looks up -/

@[simp] theorem leastFree_advanceCycle (s : State) (p : Pool) : leastFree (advanceCycle s) p = leastFree s p := rfl

@[simp] theorem recordAt_advanceCycle (s : State) (k : Nat) : recordAt (advanceCycle s) k = recordAt s k := rfl

theorem operandsPresent_advanceCycle {s : State} {i : Instr} (h : OperandsPresent s i) :
    OperandsPresent (advanceCycle s) i := by
  cases i <;> exact h

/-! ### The output `stall` -/

/-- The allocation decoder stalls a valid instruction exactly where its pool has no free slot (R126,
40_issue). -/
theorem allocOut_stall (s : State) (op : Opcode) : (allocOut s op).stall = (leastFree s (classOf op)).isNone := by
  cases op <;>
    · simp only [allocOut, allocDecoder, leastFree, classOf]
      split <;> simp [*]

theorem stallOut_of_recordAt_eq_some {s : State} {i : Instr} (h : recordAt s s.pc = some i) :
    stallOut s = (leastFree s (classOf (instrOpcode i))).isNone := by
  simp only [stallOut, h, allocOut_stall]

theorem stallOut_of_recordAt_eq_none {s : State} (h : recordAt s s.pc = none) : stallOut s = false := by
  simp only [stallOut, h]

/-! ### The cycle -/

/-- One cycle: frozen, or the issue phase and the phases after it, with the outputs of R42 (10_state). -/
theorem runCycle_eq_next {s : State} {q : State × StepOut} (h : runCycle s = .next q) :
    (s.fault.isSome = true ∧ q = (s, idleOut s)) ∨
    (s.fault = none ∧ ∃ s1 p, issuePhase (advanceCycle s) = .next s1 ∧ afterIssue s1 = .next p ∧
      q = (p.1, { stall := stallOut s, cdb := p.2, done := done p.1, fault := p.1.fault })) := by
  unfold runCycle at h
  by_cases hf : s.fault.isSome = true
  · rw [if_pos hf] at h
    cases h
    exact .inl ⟨hf, rfl⟩
  · rw [if_neg hf, andThen_eq_next] at h
    obtain ⟨s1, h1, h⟩ := h
    rw [andThen_eq_next] at h
    obtain ⟨p, hp, h⟩ := h
    cases h
    exact .inr ⟨by simpa using hf, s1, p, h1, hp, rfl⟩

theorem andThen_assoc {α β γ : Type} (o : Host.Outcome α Fault Refusal)
    (f : α → Host.Outcome β Fault Refusal) (g : β → Host.Outcome γ Fault Refusal) :
    andThen (andThen o f) g = andThen o fun a => andThen (f a) g := by
  cases o <;> rfl

/-- With no fault latched every phase of the step runs. -/
theorem step_of_fault_eq_none {s : State} (h : s.fault = none) :
    step s = andThen (issuePhase (advanceCycle s)) fun s1 => andThen (afterIssue s1) fun p => .next p.1 := by
  simp [step, dropOutputs, runCycle, h, andThen_assoc]

/-- Settles O20: a full pool makes both `exec` and the decoder's `stall` take the branch with no free rank. -/
theorem stallChangesNothing : Obligations.StallChangesNothing := by
  refine ⟨fun s i hrec hops hfull => ?_, fun s p => poolFull_of_poolSize_eq_zero⟩
  have hstall : stallOut s = true := by
    rw [stallOut_of_recordAt_eq_some hrec, leastFree_eq_none.2 hfull, Option.isNone_none]
  have hexec : exec i s = .next s := exec_of_poolFull hops hfull
  refine ⟨hexec, (issuePhase_of_recordAt hrec).trans hexec, hstall, fun hf => ?_, fun t o hf hrun => ?_⟩
  · have hissue : issuePhase (advanceCycle s) = .next (advanceCycle s) :=
      (issuePhase_of_recordAt (s := advanceCycle s) hrec).trans
        (exec_of_poolFull (operandsPresent_advanceCycle hops) hfull)
    rw [step_of_fault_eq_none hf, hissue, andThen_next]
  · obtain ⟨hsome, -⟩ | ⟨-, s1, p, -, -, hq⟩ := runCycle_eq_next hrun
    · simp [hf] at hsome
    · cases hq
      exact hstall

/-- Settles O24: past the last record there is none at `pc`. -/
theorem endOfProgramIssuesNothing : Obligations.EndOfProgramIssuesNothing := by
  intro s hpc
  have hend : s.prog.length ≤ s.pc := hpc.ge
  have hstall : stallOut s = false := stallOut_of_recordAt_eq_none (recordAt_eq_none_of_length_le hend)
  refine ⟨issuePhase_of_length_le hend, hstall, fun t o hrun => ?_⟩
  obtain ⟨-, hq⟩ | ⟨-, s1, p, -, -, hq⟩ := runCycle_eq_next hrun
  · cases hq
    rfl
  · cases hq
    exact hstall

/-! ### The phases after the issue phase keep `pc` -/

theorem countdownPhase_pc (s : State) : (countdownPhase s).1.pc = s.pc := by
  rw [countdownPhase_eq]
  simp

theorem budgetCheck_pc (s : State) : (budgetCheck s).pc = s.pc := by
  obtain h | ⟨m, -, -, -, -, h⟩ := budgetCheck_cases s <;> simp [h]

/-- Only the issue phase of a step moves `pc`. -/
theorem step_pc_eq_issuePhase_pc {s t : State} (hf : s.fault = none) (h : step s = .next t) :
    ∃ s1, issuePhase (advanceCycle s) = .next s1 ∧ t.pc = s1.pc := by
  obtain ⟨hsome, -⟩ | ⟨-, s1, p, hissue, hp, rfl⟩ := step_eq_next h
  · simp [hf] at hsome
  · refine ⟨s1, hissue, ?_⟩
    rw [budgetCheck_pc, (writebackList_keeps hp).pc, countdownPhase_pc]

/-- Settles O30: `pc` moves in the issue phase alone, which allocates, stalls or finds no record. -/
theorem pcAdvancesOnAllocation : Obligations.PcAdvancesOnAllocation := by
  intro s t hf hstep
  obtain ⟨s1, hissue, hpc⟩ := step_pc_eq_issuePhase_pc hf hstep
  rw [hpc]
  obtain ⟨hnone, rfl⟩ | ⟨i, hrec, hexec⟩ := issuePhase_eq_next_recordAt hissue
  · rw [recordAt_advanceCycle, advanceCycle_pc] at hnone
    simp [hnone]
  · rw [recordAt_advanceCycle, advanceCycle_pc] at hrec
    obtain ⟨hfree, rfl⟩ | ⟨hfree, hpc1, -⟩ := exec_eq_next hexec
    · rw [leastFree_advanceCycle] at hfree
      simp [hrec, hfree]
    · have hne : leastFree s (classOf (instrOpcode i)) ≠ none := Option.isSome_iff_ne_none.1 hfree
      simp [hrec, hne, hpc1]

end Sys2Proof.Machine
end

section
/-! SUPPORT. When a slot completes, and which records the countdown phase stamps (R141 to R145, 41_countdown). -/

namespace Sys2Proof.Machine

/-- A slot is not fresh where its owner has no record issued in this cycle (R141, 41_countdown). -/
theorem issuedIn_eq_false_iff {ts : List Stamp} {c k : Nat} :
    issuedIn ts c k = false ↔ ∀ z : Stamp, ts[k]? = some z → z.issue ≠ c := by
  unfold issuedIn
  cases ts[k]? <;> simp

theorem counts_eq_true_iff {ts : List Stamp} {c : Nat} {x : SlotView} :
    counts ts c x = true ↔
      x.busy = true ∧ (∀ z : Stamp, ts[x.owner]? = some z → z.issue ≠ c) ∧ x.ready = true ∧ 0 < x.timer := by
  simp only [counts, Bool.and_eq_true, Bool.not_eq_true', issuedIn_eq_false_iff, decide_eq_true_eq, and_assoc]

/-- A timer that is 1 is not yet 0, so the decrement needs no further premise (R144, 41_countdown). -/
theorem completes_eq_true_iff {ts : List Stamp} {c : Nat} {x : SlotView} :
    completes ts c x = true ↔
      x.busy = true ∧ (∀ z : Stamp, ts[x.owner]? = some z → z.issue ≠ c) ∧ x.ready = true ∧ x.timer = 1 := by
  rw [completes, Bool.and_eq_true, counts_eq_true_iff, decide_eq_true_eq]
  constructor
  · rintro ⟨⟨hbusy, hfresh, hready, -⟩, htimer⟩
    exact ⟨hbusy, hfresh, hready, htimer⟩
  · rintro ⟨hbusy, hfresh, hready, htimer⟩
    exact ⟨⟨hbusy, hfresh, hready, by omega⟩, htimer⟩

theorem ownerOf_eq_some_iff {s : State} {u : Tag} {k : Nat} :
    ownerOf s u = some k ↔ ∃ x ∈ slotView s u, x.owner = k :=
  Option.map_eq_some_iff

/-- The countdown phase hands on the slots that are eligible before it (R142, 41_countdown). -/
@[simp] theorem countdownPhase_eligible (s : State) : (countdownPhase s).2 = eligible s := rfl

/-- The records that the phase stamps are the owners of the eligible slots (R144, 41_countdown). -/
theorem mem_owners_eligible {s : State} {k : Nat} :
    k ∈ (eligible s).filterMap (ownerOf s) ↔ ∃ u ∈ (countdownPhase s).2, ∃ x ∈ slotView s u, x.owner = k := by
  simp only [List.mem_filterMap, ownerOf_eq_some_iff, countdownPhase_eligible]

/-- Settles O33: a slot is eligible where its view completes, and the phase stamps the owners of these slots. -/
theorem completionMarksEligible : Obligations.CompletionMarksEligible := by
  refine fun s => ⟨fun u => ?_, fun k y hy => ?_⟩
  · simp only [countdownPhase_eligible, mem_eligible, completes_eq_true_iff]
  · rw [getElem?_countdownPhase_ts, hy]
    by_cases hk : k ∈ (eligible s).filterMap (ownerOf s)
    · rw [if_pos hk, if_pos (mem_owners_eligible.1 hk), Option.map_some]
    · rw [if_neg hk, if_neg (mt mem_owners_eligible.2 hk)]

end Sys2Proof.Machine
end

section
/-! SUPPORT. The timestamps in a step: each phase stamps one of the three, with the cycle that has just been
counted, and only of records that have it unset (R28, 10_state; R186, 43_cycle_driver). -/

namespace Sys2Proof.Machine

/-! ### The issue phase (R116, 40_issue) -/

/-- The issue phase stamps at most the issue of the record at `pc`. -/
theorem issuePhase_stamp {s t : State} {k : Nat} {x : Stamp} (h : issuePhase s = .next t)
    (hx : s.ts[k]? = some x) :
    ∃ y, t.ts[k]? = some y ∧ y.exec = x.exec ∧ y.wb = x.wb ∧
      (y.issue = x.issue ∨ y.issue = s.cycle ∧ k = s.pc) := by
  have hsame : t.ts = s.ts ∨ t.ts = (stampIssue s s.pc).ts := by
    obtain ⟨-, rfl⟩ | ⟨i, -, hexec⟩ := issuePhase_eq_next_recordAt h
    · exact .inl rfl
    · obtain ⟨-, rfl⟩ | ⟨-, -, hts⟩ := exec_eq_next hexec
      · exact .inl rfl
      · exact .inr hts
  obtain hts | hts := hsame
  · exact ⟨x, hts ▸ hx, rfl, rfl, .inl rfl⟩
  · rw [hts, getElem?_stampIssue_ts, hx]
    by_cases hk : k = s.pc
    · exact ⟨_, if_pos hk, rfl, rfl, .inr ⟨rfl, hk⟩⟩
    · exact ⟨x, if_neg hk, rfl, rfl, .inl rfl⟩

/-- The view of a slot in a pool of which one slot was written: the written one's, or as before. -/
theorem map_getElem?_set {α : Type} {view : α → SlotView} {l : List α} {r n : Nat} {a : α} {x : SlotView}
    (h : (l.set r a)[n]?.map view = some x) : l[n]?.map view = some x ∨ x = view a := by
  obtain ⟨b, hb, rfl⟩ := Option.map_eq_some_iff.1 h
  by_cases hr : r = n
  · rw [hr, List.getElem?_set_self (by simpa [hr] using (List.getElem?_eq_some_iff.1 hb).1)] at hb
    cases hb
    exact .inr rfl
  · rw [List.getElem?_set_ne hr] at hb
    exact .inl (Option.map_eq_some_iff.2 ⟨b, hb, rfl⟩)

theorem slotView_putArithSlot {s : State} {p : Pool} {r : Nat} {a : ArithSlot} {u : Tag} {x : SlotView}
    (h : slotView (putArithSlot s p r a) u = some x) : slotView s u = some x ∨ x = a.view := by
  cases u with | mk pool rank =>
  cases p with
  | add =>
    cases pool with
    | add => exact map_getElem?_set h
    | mul | load | store => exact .inl h
  | mul =>
    cases pool with
    | mul => exact map_getElem?_set h
    | add | load | store => exact .inl h
  | load | store => exact .inl h

theorem slotView_putLoadSlot {s : State} {r : Nat} {a : LoadSlot} {u : Tag} {x : SlotView}
    (h : slotView (putLoadSlot s r a) u = some x) : slotView s u = some x ∨ x = a.view := by
  cases u with | mk pool rank =>
  cases pool with
  | load => exact map_getElem?_set h
  | add | mul | store => exact .inl h

theorem slotView_putStoreSlot {s : State} {r : Nat} {a : StoreSlot} {u : Tag} {x : SlotView}
    (h : slotView (putStoreSlot s r a) u = some x) : slotView s u = some x ∨ x = a.view := by
  cases u with | mk pool rank =>
  cases pool with
  | store => exact map_getElem?_set h
  | add | mul | load => exact .inl h

/-- Every slot after the issue of an instruction was there before, or its owner is the record at `pc` (R115,
40_issue). -/
theorem slotView_exec {i : Instr} {s t : State} {u : Tag} {x : SlotView} (h : exec i s = .next t)
    (hx : slotView t u = some x) : slotView s u = some x ∨ x.owner = s.pc := by
  have harith : ∀ {op rd rs1 rs2}, issueArith op rd rs1 rs2 s = .next t →
      slotView s u = some x ∨ x.owner = s.pc := by
    intro op rd rs1 rs2 h
    obtain ⟨j, k, e, -, -, -, ⟨-, rfl⟩ | ⟨r, -, rfl⟩⟩ := issueArith_eq_next h
    · exact .inl hx
    · rw [slotView_congr (s := putArithSlot s (classOf op) r (allocatedArith s op j k)) (by simp) (by simp)
        (by simp) (by simp)] at hx
      exact (slotView_putArithSlot hx).imp_right (congrArg SlotView.owner)
  cases i with
  | ld rd addr =>
    obtain ⟨e, -, -, ⟨-, rfl⟩ | ⟨r, -, rfl⟩⟩ := execLd_eq_next h
    · exact .inl hx
    · rw [slotView_congr (s := putLoadSlot s r (allocatedLoad s addr)) (by simp) (by simp) (by simp)
        (by simp)] at hx
      exact (slotView_putLoadSlot hx).imp_right (congrArg SlotView.owner)
  | st rs addr =>
    obtain ⟨j, -, -, ⟨-, rfl⟩ | ⟨r, -, rfl⟩⟩ := execSt_eq_next h
    · exact .inl hx
    · rw [slotView_congr (s := putStoreSlot s r (allocatedStore s j addr)) (by simp) (by simp) (by simp)
        (by simp)] at hx
      exact (slotView_putStoreSlot hx).imp_right (congrArg SlotView.owner)
  | addd rd rs1 rs2 => exact harith h
  | subd rd rs1 rs2 => exact harith h
  | multd rd rs1 rs2 => exact harith h
  | divd rd rs1 rs2 => exact harith h

theorem slotView_issuePhase {s t : State} {u : Tag} {x : SlotView} (h : issuePhase s = .next t)
    (hx : slotView t u = some x) : slotView s u = some x ∨ x.owner = s.pc := by
  obtain ⟨-, rfl⟩ | ⟨i, -, hexec⟩ := issuePhase_eq_next_recordAt h
  · exact .inl hx
  · exact slotView_exec hexec hx

/-! ### The countdown phase (R144, 41_countdown) -/

theorem countdownPhase_cycle (s : State) : (countdownPhase s).1.cycle = s.cycle := by
  rw [countdownPhase_eq]
  simp

theorem stampExecs_ts_length (l : List Nat) (s : State) : (stampExecs l s).ts.length = s.ts.length := by
  induction l generalizing s with
  | nil => rfl
  | cons k l ih => exact (ih (stampExec s k)).trans (by simp)

theorem countdownPhase_ts_length (s : State) : (countdownPhase s).1.ts.length = s.ts.length :=
  stampExecs_ts_length _ (decrementTimers s)

theorem ownerOf_countdownPhase (s : State) (u : Tag) : ownerOf (countdownPhase s).1 u = ownerOf s u := by
  have howner : ∀ x : SlotView, (x.countdown s.ts s.cycle).owner = x.owner := by
    intro x
    unfold SlotView.countdown
    split <;> rfl
  simp only [ownerOf, slotView_countdownPhase, Option.map_map, Function.comp_def, howner]

/-- The countdown phase stamps at most the completion of the eligible slots' owners. -/
theorem countdownPhase_stamp {s : State} {k : Nat} {x : Stamp} (hx : s.ts[k]? = some x) :
    ∃ y, (countdownPhase s).1.ts[k]? = some y ∧ y.issue = x.issue ∧ y.wb = x.wb ∧
      (y.exec = x.exec ∨ y.exec = s.cycle ∧ ∃ u ∈ eligible s, ownerOf s u = some k) := by
  rw [getElem?_countdownPhase_ts, hx]
  by_cases hk : k ∈ (eligible s).filterMap (ownerOf s)
  · exact ⟨_, if_pos hk, rfl, rfl, .inr ⟨rfl, List.mem_filterMap.1 hk⟩⟩
  · exact ⟨x, if_neg hk, rfl, rfl, .inl rfl⟩

/-! ### The write-back phase (R159, 42_writeback_broadcast) -/

/-- One write-back: no slot there, a fault latched, or the slot retired and its result on the bus or in
memory. -/
theorem writebackSlot_eq_next {t : Tag} {s : State} {p : State × List Txn} (h : writebackSlot t s = .next p) :
    p.1 = s ∨ (∃ f, p.1 = raiseFault s f) ∨
    ∃ k, ownerOf s t = some k ∧
      ((∃ v, p.1 = broadcast t v (retire t k s)) ∨ ∃ m, p.1 = { retire t k s with mem := m }) := by
  have harith : ∀ x, ownerOf s t = some x.owner → writebackArith t x s = .next p →
      (∃ f, p.1 = raiseFault s f) ∨ ∃ k, ownerOf s t = some k ∧
        ((∃ v, p.1 = broadcast t v (retire t k s)) ∨ ∃ m, p.1 = { retire t k s with mem := m }) := by
    intro x hk h
    obtain ⟨a, b, v, -, -, -, rfl⟩ | ⟨-, rfl⟩ := writebackArith_eq_next h
    · exact .inr ⟨_, hk, .inl ⟨v, rfl⟩⟩
    · exact .inl ⟨_, rfl⟩
  cases t with | mk pool rank =>
  cases pool with
  | add =>
    cases hslot : s.add[rank]? <;> simp only [writebackSlot, hslot] at h
    · cases h
      exact .inl rfl
    · exact .inr (harith _ (by simp [ownerOf, slotView, hslot, ArithSlot.view]) h)
  | mul =>
    cases hslot : s.mul[rank]? <;> simp only [writebackSlot, hslot] at h
    · cases h
      exact .inl rfl
    · exact .inr (harith _ (by simp [ownerOf, slotView, hslot, ArithSlot.view]) h)
  | load =>
    cases hslot : s.load[rank]? <;> simp only [writebackSlot, hslot] at h
    · cases h
      exact .inl rfl
    · obtain ⟨-, rfl⟩ := writebackLoad_eq_next h
      exact .inr (.inr ⟨_, by simp [ownerOf, slotView, hslot, LoadSlot.view], .inl ⟨_, rfl⟩⟩)
  | store =>
    cases hslot : s.store[rank]? <;> simp only [writebackSlot, hslot] at h
    · cases h
      exact .inl rfl
    · obtain ⟨v, -, -, rfl⟩ | ⟨-, rfl⟩ := writebackStore_eq_next h
      · exact .inr (.inr ⟨_, by simp [ownerOf, slotView, hslot, StoreSlot.view], .inr ⟨_, rfl⟩⟩)
      · exact .inr (.inl ⟨_, rfl⟩)

theorem ownerOf_retire (t : Tag) (k : Nat) (s : State) (u : Tag) : ownerOf (retire t k s) u = ownerOf s u := by
  have hfree : slotView (retire t k s) u = slotView (freeSlot s t) u := slotView_congr rfl rfl rfl rfl u
  rw [ownerOf, hfree, ownerOf]
  by_cases hu : u = t
  · rw [hu, slotView_freeSlot_same, Option.map_map]
    rfl
  · rw [slotView_freeSlot_other hu]

theorem ownerOf_broadcast (t : Tag) (v : Val) (s : State) (u : Tag) : ownerOf (broadcast t v s) u = ownerOf s u := by
  cases hy : slotView (broadcast t v s) u with
  | none =>
    have hx : slotView s u = none := by
      rw [← Option.isNone_iff_eq_none, ← Option.not_isSome, ← isSome_slotView_broadcast t v s u, hy]
      rfl
    simp [ownerOf, hx, hy]
  | some y =>
    obtain ⟨x, hx, -, -, howner⟩ := slotView_broadcast hy
    simp [ownerOf, hx, hy, howner]

/-- No write-back changes the owner of a slot (R37, 10_state). -/
theorem ownerOf_writebackSlot {t : Tag} {s : State} {p : State × List Txn} (h : writebackSlot t s = .next p)
    (u : Tag) : ownerOf p.1 u = ownerOf s u := by
  obtain hp | ⟨f, hp⟩ | ⟨k, -, ⟨v, hp⟩ | ⟨m, hp⟩⟩ := writebackSlot_eq_next h
  · rw [hp]
  · rw [hp]
    rfl
  · rw [hp, ownerOf_broadcast, ownerOf_retire]
  · rw [hp]
    exact ownerOf_retire t k s u

/-- One write-back stamps at most the write-back of the slot's owner. -/
theorem writebackSlot_stamp {t : Tag} {s : State} {p : State × List Txn} {k : Nat} {x : Stamp}
    (h : writebackSlot t s = .next p) (hx : s.ts[k]? = some x) :
    ∃ y, p.1.ts[k]? = some y ∧ y.issue = x.issue ∧ y.exec = x.exec ∧
      (y.wb = x.wb ∨ y.wb = s.cycle ∧ ownerOf s t = some k) := by
  have hretire : ∀ m, ownerOf s t = some m → p.1.ts = (retire t m s).ts →
      ∃ y, p.1.ts[k]? = some y ∧ y.issue = x.issue ∧ y.exec = x.exec ∧
        (y.wb = x.wb ∨ y.wb = s.cycle ∧ ownerOf s t = some k) := by
    intro m hm hts
    rw [hts, retire_ts]
    by_cases hk : m = k
    · subst hk
      exact ⟨{ x with wb := s.cycle }, by simp [hx], rfl, rfl, .inr ⟨rfl, hm⟩⟩
    · exact ⟨x, by simp [hk, hx], rfl, rfl, .inl rfl⟩
  obtain hp | ⟨f, hp⟩ | ⟨m, hm, ⟨v, hp⟩ | ⟨mem, hp⟩⟩ := writebackSlot_eq_next h
  · exact ⟨x, hp ▸ hx, rfl, rfl, .inl rfl⟩
  · exact ⟨x, hp ▸ hx, rfl, rfl, .inl rfl⟩
  · exact hretire m hm (by rw [hp, broadcast_ts])
  · exact hretire m hm (by rw [hp])

/-- The scan stamps at most the write-back of its slots' owners. -/
theorem writebackList_stamp {l : List Tag} {s : State} {q : State × List Txn} {k : Nat} {x : Stamp}
    (h : writebackList l s = .next q) (hx : s.ts[k]? = some x) :
    ∃ y, q.1.ts[k]? = some y ∧ y.issue = x.issue ∧ y.exec = x.exec ∧
      (y.wb = x.wb ∨ y.wb = s.cycle ∧ ∃ u ∈ l, ownerOf s u = some k) := by
  induction l generalizing s q x with
  | nil =>
    cases h
    exact ⟨x, hx, rfl, rfl, .inl rfl⟩
  | cons t l ih =>
    obtain ⟨p, hp, hrest⟩ := writebackList_cons_eq_next h
    obtain ⟨y, hy, hissue, hexec, hwb⟩ := writebackSlot_stamp hp hx
    have hhead : y.wb = x.wb ∨ y.wb = s.cycle ∧ ∃ u ∈ t :: l, ownerOf s u = some k :=
      hwb.imp_right fun ⟨hc, hk⟩ => ⟨hc, t, List.mem_cons_self, hk⟩
    obtain ⟨-, rfl⟩ | ⟨-, q', hq', rfl⟩ := hrest
    · exact ⟨y, hy, hissue, hexec, hhead⟩
    · obtain ⟨z, hz, hzissue, hzexec, hzwb⟩ := ih hq' hy
      refine ⟨z, hz, hzissue.trans hissue, hzexec.trans hexec, ?_⟩
      obtain hkept | ⟨hc, u, hu, hk⟩ := hzwb
      · rwa [hkept]
      · rw [(writebackSlot_keeps hp).cycle] at hc
        rw [ownerOf_writebackSlot hp] at hk
        exact .inr ⟨hc, u, List.mem_cons_of_mem t hu, hk⟩

/-! ### The whole step -/

theorem budgetCheck_cycle (s : State) : (budgetCheck s).cycle = s.cycle := by
  obtain h | ⟨m, -, -, -, -, h⟩ := budgetCheck_cases s <;> simp [h]

theorem budgetCheck_ts (s : State) : (budgetCheck s).ts = s.ts := by
  obtain h | ⟨m, -, -, -, -, h⟩ := budgetCheck_cases s <;> simp [h]

theorem step_cycle {s t : State} (hf : s.fault = none) (h : step s = .next t) : t.cycle = s.cycle + 1 := by
  obtain ⟨hsome, -⟩ | ⟨-, s1, p, hissue, hp, rfl⟩ := step_eq_next h
  · simp [hf] at hsome
  · rw [budgetCheck_cycle, (writebackList_keeps hp).cycle, countdownPhase_cycle, (issuePhase_keeps hissue).cycle,
      advanceCycle_cycle]

theorem step_ts_length {s t : State} (h : step s = .next t) : t.ts.length = s.ts.length := by
  obtain ⟨-, rfl⟩ | ⟨-, s1, p, hissue, hp, rfl⟩ := step_eq_next h
  · rfl
  · rw [budgetCheck_ts, (writebackList_keeps hp).ts, countdownPhase_ts_length, (issuePhase_keeps hissue).ts,
      advanceCycle_ts]

/-- The slots that complete in the next step include one owned by record `k`: eligibility is read after the
issue phase (R142, 41_countdown; R185, 43_cycle_driver). -/
def OwnerCompletesNext (s : State) (k : Nat) : Prop :=
  ∃ s1, issuePhase (advanceCycle s) = .next s1 ∧ ∃ u ∈ eligible s1, ownerOf s1 u = some k

/-- What a step can do to the timestamps of one record: each is as before, or it is the new cycle, and then
the record is the one at `pc` or owns a completing slot. -/
theorem step_stamp {s t : State} {k : Nat} {x : Stamp} (hf : s.fault = none) (h : step s = .next t)
    (hx : s.ts[k]? = some x) :
    ∃ y, t.ts[k]? = some y ∧ (y.issue = x.issue ∨ y.issue = s.cycle + 1 ∧ k = s.pc) ∧
      (y.exec = x.exec ∨ y.exec = s.cycle + 1 ∧ OwnerCompletesNext s k) ∧
      (y.wb = x.wb ∨ y.wb = s.cycle + 1 ∧ OwnerCompletesNext s k) := by
  obtain ⟨hsome, -⟩ | ⟨-, s1, p, hissue, hp, rfl⟩ := step_eq_next h
  · simp [hf] at hsome
  · have hc1 : s1.cycle = s.cycle + 1 := (issuePhase_keeps hissue).cycle
    obtain ⟨x1, hx1, he1, hw1, hi1⟩ := issuePhase_stamp hissue hx
    obtain ⟨x2, hx2, hi2, hw2, he2⟩ := countdownPhase_stamp hx1
    obtain ⟨y, hy, hi3, he3, hw3⟩ := writebackList_stamp hp hx2
    simp only [countdownPhase_cycle, ownerOf_countdownPhase] at hw3
    rw [hc1, he1] at he2
    rw [hc1, hw2, hw1] at hw3
    rw [budgetCheck_ts]
    refine ⟨y, hy, ?_⟩
    rw [hi3, hi2, he3]
    exact ⟨hi1, he2.imp_right fun ⟨hc, hk⟩ => ⟨hc, s1, hissue, hk⟩,
      hw3.imp_right fun ⟨hc, hk⟩ => ⟨hc, s1, hissue, hk⟩⟩

/-! ### Under the invariants a stamped record had the timestamp unset -/

theorem stamp_at_pc_unset {s : State} {x : Stamp} (hinv : s.Inv) (hx : s.ts[s.pc]? = some x) :
    x = { issue := 0, exec := 0, wb := 0 } := by
  have hlt : s.pc < s.ts.length := (List.getElem?_eq_some_iff.1 hx).1
  exact Option.some.inj (hx.symm.trans (hinv.unissued s.pc hlt le_rfl))

/-- A completing slot was busy before the step, and then its owner has not completed (R38 item 1, 10_state),
or it was allocated in the step, and then its owner is the record at `pc`. -/
theorem completing_stamp_unset {s : State} {k : Nat} {x : Stamp} (hinv : s.Inv) (hk : OwnerCompletesNext s k)
    (hx : s.ts[k]? = some x) : x.exec = 0 ∧ x.wb = 0 := by
  obtain ⟨s1, hissue, u, hu, hk⟩ := hk
  obtain ⟨v, hv, hcompletes⟩ := mem_eligible.1 hu
  obtain ⟨hbusy, -, -, -⟩ := completes_eq_true_iff.1 hcompletes
  have howner : v.owner = k := by simpa [ownerOf, hv] using hk
  obtain hold | hnew := slotView_issuePhase hissue hv
  · replace hold : slotView s u = some v := hold
    obtain ⟨-, y, hy, hunset⟩ := hinv.busyOwner u (mem_scanOrder.2 (hold ▸ rfl)) v hold hbusy
    rw [howner, Option.mem_def, hx] at hy
    cases hy
    exact hunset
  · have hpc : k = s.pc := howner.symm.trans hnew
    subst hpc
    cases stamp_at_pc_unset hinv hx
    exact ⟨rfl, rfl⟩

/-- Settles O28: a phase writes the counted cycle, and under the invariants only over 0. -/
theorem stampsAreTheNewCycle : Obligations.StampsAreTheNewCycle := by
  intro s t hf hstep
  refine ⟨step_cycle hf hstep, step_ts_length hstep, fun k x y hx hy => ?_⟩
  obtain ⟨y', hy', hissue, hexec, hwb⟩ := step_stamp hf hstep hx
  cases hy.symm.trans hy'
  refine ⟨hissue.imp_right And.left, hexec.imp_right And.left, hwb.imp_right And.left, fun hinv => ⟨?_, ?_, ?_⟩⟩
  · exact fun hne => hissue.resolve_right fun ⟨_, hpc⟩ =>
      hne (congrArg Stamp.issue (stamp_at_pc_unset hinv (hpc ▸ hx)))
  · exact fun hne => hexec.resolve_right fun ⟨_, hk⟩ => hne (completing_stamp_unset hinv hk hx).1
  · exact fun hne => hwb.resolve_right fun ⟨_, hk⟩ => hne (completing_stamp_unset hinv hk hx).2

end Sys2Proof.Machine
end

section
/-! SUPPORT. The fields of an encoded record, and the words that the decoder accepts (R82 to R87, 30_encoding); the
hardware encoding of a tag (R20, 10_state). -/

namespace Sys2Proof

/-! ### Opcode codes and register specifiers -/

theorem opcodeOfCode_eq_some_iff {b : BitVec 3} {op : Opcode} : opcodeOfCode b = some op ↔ b = opcodeCode op := by
  cases op <;> revert b <;> decide

theorem opcodeCode_injective : Function.Injective opcodeCode := by
  intro op op' h
  have hop := opcodeOfCode_eq_some_iff.2 h
  exact Option.some.inj (hop.symm.trans (opcodeOfCode_eq_some_iff.2 rfl)) |>.symm

/-- Every specifier is that of the register it names: no bit of it is dropped. -/
theorem specOfReg_regOfSpec (f : BitVec 6) : specOfReg (regOfSpec f) = f := by
  revert f
  decide

/-- A register of either file keeps its name through its specifier (R83, 30_encoding). -/
theorem regOfSpec_specOfReg {q : RegName} (h : q.idx < 32) : regOfSpec (specOfReg q) = q := by
  obtain ⟨file, idx⟩ := q
  have hidx : (BitVec.ofNat 5 idx).toNat = idx := Nat.mod_eq_of_lt h
  have hhigh : ∀ b : BitVec 1, (b ++ BitVec.ofNat 5 idx).extractLsb' 5 1 = b := fun _ =>
    BitVec.extractLsb'_append_eq_left
  have hlow : ∀ b : BitVec 1, (b ++ BitVec.ofNat 5 idx).extractLsb' 0 5 = BitVec.ofNat 5 idx := fun _ =>
    BitVec.extractLsb'_append_eq_right
  cases file
  · exact congrArg₂ RegName.mk (by rw [specOfReg, hhigh]; rfl) (by rw [specOfReg, hlow, hidx])
  · exact congrArg₂ RegName.mk (by rw [specOfReg, hhigh]; rfl) (by rw [specOfReg, hlow, hidx])

/-- A legal register's index fits its five bits (R7, 00_scope). -/
theorem RegName.WellFormed.idx_lt {cfg : Config} {q : RegName} (h : q.WellFormed cfg) (hsizes : cfg.SizesWellFormed) :
    q.idx < 32 := by
  obtain ⟨file, idx⟩ := q
  obtain ⟨-, hnf, hni, -, -⟩ := hsizes
  cases file
  · exact h.trans_le hnf
  · exact h.trans_le hni

/-! ### The fields of an encoded record -/

theorem fieldOp_encodeM (op : Opcode) (q : RegName) (a : Nat) : fieldOp (encodeM op q a) = opcodeCode op := by
  rw [fieldOp, encodeM, BitVec.extractLsb'_append_eq_of_le (by decide), BitVec.extractLsb'_append_eq_left]

theorem fieldRd_encodeM (op : Opcode) (q : RegName) (a : Nat) : fieldRd (encodeM op q a) = specOfReg q := by
  rw [fieldRd, encodeM, BitVec.extractLsb'_append_eq_of_le (by decide), BitVec.extractLsb'_append_eq_right]

theorem fieldAddr_encodeM (op : Opcode) (q : RegName) {a : Nat} (h : a < 2 ^ 23) : fieldAddr (encodeM op q a) = a := by
  rw [fieldAddr, encodeM, BitVec.extractLsb'_append_eq_right, BitVec.toNat_ofNat, Nat.mod_eq_of_lt h]

section
variable (op : Opcode) (rd rs1 rs2 : RegName)

theorem fieldOp_encodeA : fieldOp (encodeA op rd rs1 rs2) = opcodeCode op := by
  rw [fieldOp, encodeA, BitVec.extractLsb'_append_eq_of_le (by decide),
    BitVec.extractLsb'_append_eq_of_le (by decide), BitVec.extractLsb'_append_eq_of_le (by decide),
    BitVec.extractLsb'_append_eq_left]

theorem fieldRd_encodeA : fieldRd (encodeA op rd rs1 rs2) = specOfReg rd := by
  rw [fieldRd, encodeA, BitVec.extractLsb'_append_eq_of_le (by decide),
    BitVec.extractLsb'_append_eq_of_le (by decide), BitVec.extractLsb'_append_eq_of_le (by decide),
    BitVec.extractLsb'_append_eq_right]

theorem fieldRs1_encodeA : fieldRs1 (encodeA op rd rs1 rs2) = specOfReg rs1 := by
  rw [fieldRs1, encodeA, BitVec.extractLsb'_append_eq_of_le (by decide),
    BitVec.extractLsb'_append_eq_of_le (by decide), BitVec.extractLsb'_append_eq_right]

theorem fieldRs2_encodeA : fieldRs2 (encodeA op rd rs1 rs2) = specOfReg rs2 := by
  rw [fieldRs2, encodeA, BitVec.extractLsb'_append_eq_of_le (by decide), BitVec.extractLsb'_append_eq_right]

theorem fieldZero_encodeA : fieldZero (encodeA op rd rs1 rs2) = 0#11 := by
  rw [fieldZero, encodeA, BitVec.extractLsb'_append_eq_right]

end

/-! ### The fields of a word give the word back -/

/-- Two adjacent fields make one. -/
theorem extractLsb'_join (w : Word) (lo low high : Nat) :
    w.extractLsb' (lo + low) high ++ w.extractLsb' lo low = w.extractLsb' lo (high + low) :=
  BitVec.extractLsb'_append_extractLsb'_eq_extractLsb' rfl

theorem encodeM_fields {w : Word} {op : Opcode} (hop : fieldOp w = opcodeCode op) :
    encodeM op (regOfSpec (fieldRd w)) (fieldAddr w) = w := by
  have h1 : fieldOp w ++ fieldRd w = w.extractLsb' 23 9 := extractLsb'_join w 23 6 3
  have h0 : w.extractLsb' 23 9 ++ w.extractLsb' 0 23 = w.extractLsb' 0 32 := extractLsb'_join w 0 23 9
  rw [encodeM, ← hop, specOfReg_regOfSpec, fieldAddr, BitVec.ofNat_toNat, BitVec.setWidth_eq, h1, h0,
    BitVec.extractLsb'_eq_self]

theorem encodeA_fields {w : Word} {op : Opcode} (hop : fieldOp w = opcodeCode op) (hzero : fieldZero w = 0#11) :
    encodeA op (regOfSpec (fieldRd w)) (regOfSpec (fieldRs1 w)) (regOfSpec (fieldRs2 w)) = w := by
  have h3 : fieldOp w ++ fieldRd w = w.extractLsb' 23 9 := extractLsb'_join w 23 6 3
  have h2 : w.extractLsb' 23 9 ++ fieldRs1 w = w.extractLsb' 17 15 := extractLsb'_join w 17 6 9
  have h1 : w.extractLsb' 17 15 ++ fieldRs2 w = w.extractLsb' 11 21 := extractLsb'_join w 11 6 15
  have h0 : w.extractLsb' 11 21 ++ fieldZero w = w.extractLsb' 0 32 := extractLsb'_join w 0 11 21
  rw [encodeA, ← hop, ← hzero, specOfReg_regOfSpec, specOfReg_regOfSpec, specOfReg_regOfSpec, h3, h2, h1, h0,
    BitVec.extractLsb'_eq_self]

/-! ### What each format accepts -/

/-- Format M accepts a word exactly where its register and its address are legal. -/
theorem decodeM_eq_ok_iff {cfg : Config} {mk : RegName → Nat → Instr} {w : Word} {i : Instr} :
    decodeM cfg mk w = .ok i ↔
      (regOfSpec (fieldRd w)).WellFormed cfg ∧ AddrWellFormed cfg (fieldAddr w) ∧
        i = mk (regOfSpec (fieldRd w)) (fieldAddr w) := by
  simp only [decodeM, regLegal_eq_false_iff, addrLegal_eq_false_iff]
  by_cases hreg : (regOfSpec (fieldRd w)).WellFormed cfg
  · by_cases haddr : cfg.memSize ≤ fieldAddr w
    · simp [hreg, haddr]
    · simp [hreg, haddr, Nat.not_le.1 haddr, eq_comm]
  · simp [hreg]

/-- Format A accepts a word exactly where its zero field is zero and its three registers are legal. -/
theorem decodeA_eq_ok_iff {cfg : Config} {mk : RegName → RegName → RegName → Instr} {w : Word} {i : Instr} :
    decodeA cfg mk w = .ok i ↔ fieldZero w = 0#11 ∧
      ((regOfSpec (fieldRd w)).WellFormed cfg ∧ (regOfSpec (fieldRs1 w)).WellFormed cfg ∧
        (regOfSpec (fieldRs2 w)).WellFormed cfg) ∧
      i = mk (regOfSpec (fieldRd w)) (regOfSpec (fieldRs1 w)) (regOfSpec (fieldRs2 w)) := by
  simp only [decodeA, ← regLegal_eq_true_iff, ← Bool.and_eq_true]
  by_cases hzero : fieldZero w = 0#11
  · cases hregs : (regLegal cfg (regOfSpec (fieldRd w)) && regLegal cfg (regOfSpec (fieldRs1 w)) &&
      regLegal cfg (regOfSpec (fieldRs2 w))) <;> simp [hzero, hregs, ← Bool.and_assoc, eq_comm]
  · simp [hzero]

/-- Everything a word that decodes can be: of one of the two formats, with that format's fields. -/
theorem decode_eq_ok {cfg : Config} {w : Word} {i : Instr} (h : decode cfg w = .ok i) :
    fieldOp w = opcodeCode (instrOpcode i) ∧ i.WellFormed cfg ∧ encode i = w := by
  unfold decode at h
  cases hop : opcodeOfCode (fieldOp w) with
  | none => simp [hop] at h
  | some op =>
    have hcode := opcodeOfCode_eq_some_iff.1 hop
    rw [hop] at h
    cases op with
    | ld | st =>
      obtain ⟨hreg, haddr, rfl⟩ := decodeM_eq_ok_iff.1 h
      exact ⟨hcode, ⟨hreg, haddr⟩, encodeM_fields hcode⟩
    | addd | subd | multd | divd =>
      obtain ⟨hzero, hregs, rfl⟩ := decodeA_eq_ok_iff.1 h
      exact ⟨hcode, hregs, encodeA_fields hcode hzero⟩

/-- A word whose opcode field names an opcode decodes to it or has a malformed operand. -/
theorem decode_of_fieldOp (cfg : Config) {w : Word} {op : Opcode} (h : fieldOp w = opcodeCode op) :
    (∃ i, decode cfg w = .ok i ∧ instrOpcode i = op) ∨ decode cfg w = .error .malformedOperand := by
  cases hdec : decode cfg w with
  | ok i => exact .inl ⟨i, rfl, opcodeCode_injective ((decode_eq_ok hdec).1.symm.trans h)⟩
  | error e =>
    cases e with
    | malformedOperand => exact .inr rfl
    | unknownOpcode =>
      have hnone : opcodeOfCode (fieldOp w) = none := by
        rw [opcodeOfCode_eq_none_iff, fieldOp_toNat]
        exact decode_eq_unknownOpcode_iff.1 hdec
      rw [opcodeOfCode_eq_some_iff.2 h] at hnone
      cases hnone

/-! ### The round trips -/

/-- Settles O1: each field of the encoded word is read back, and a legal operand fits its field. -/
theorem decodeInvertsEncode : Obligations.DecodeInvertsEncode := by
  intro cfg i hsizes hi
  have hmem : cfg.memSize ≤ 2 ^ 23 := hsizes.2.2.2.2
  have hreg : ∀ q : RegName, q.WellFormed cfg → regOfSpec (specOfReg q) = q :=
    fun q hq => regOfSpec_specOfReg (hq.idx_lt hsizes)
  have hM : ∀ (mk : RegName → Nat → Instr) (op : Opcode) (q : RegName) (a : Nat),
      q.WellFormed cfg ∧ AddrWellFormed cfg a → decodeM cfg mk (encodeM op q a) = .ok (mk q a) := by
    rintro mk op q a ⟨hq, ha⟩
    rw [decodeM_eq_ok_iff, fieldRd_encodeM, fieldAddr_encodeM op q (ha.trans_le hmem), hreg q hq]
    exact ⟨hq, ha, rfl⟩
  have hA : ∀ (mk : RegName → RegName → RegName → Instr) (op : Opcode) (rd rs1 rs2 : RegName),
      rd.WellFormed cfg ∧ rs1.WellFormed cfg ∧ rs2.WellFormed cfg →
      decodeA cfg mk (encodeA op rd rs1 rs2) = .ok (mk rd rs1 rs2) := by
    rintro mk op rd rs1 rs2 ⟨hd, h1, h2⟩
    rw [decodeA_eq_ok_iff, fieldZero_encodeA, fieldRd_encodeA, fieldRs1_encodeA, fieldRs2_encodeA, hreg rd hd,
      hreg rs1 h1, hreg rs2 h2]
    exact ⟨rfl, ⟨hd, h1, h2⟩, rfl⟩
  have hop : ∀ op : Opcode, opcodeOfCode (opcodeCode op) = some op := fun op => opcodeOfCode_eq_some_iff.2 rfl
  cases i with
  | ld q a => rw [encode, decode, fieldOp_encodeM, hop]; exact hM .ld .ld q a hi
  | st q a => rw [encode, decode, fieldOp_encodeM, hop]; exact hM .st .st q a hi
  | addd rd rs1 rs2 => rw [encode, decode, fieldOp_encodeA, hop]; exact hA .addd .addd rd rs1 rs2 hi
  | subd rd rs1 rs2 => rw [encode, decode, fieldOp_encodeA, hop]; exact hA .subd .subd rd rs1 rs2 hi
  | multd rd rs1 rs2 => rw [encode, decode, fieldOp_encodeA, hop]; exact hA .multd .multd rd rs1 rs2 hi
  | divd rd rs1 rs2 => rw [encode, decode, fieldOp_encodeA, hop]; exact hA .divd .divd rd rs1 rs2 hi

/-- Settles O2: the fields that a format reads make up the whole word. -/
theorem encodeInvertsDecode : Obligations.EncodeInvertsDecode := by
  intro cfg w i h
  obtain ⟨-, -, hw⟩ := decode_eq_ok h
  exact hw

/-! ### The mask and match table (R86, 30_encoding) -/

/-- Every encoded record matches its row of the table. -/
theorem encode_matches (i : Instr) : Laws.Encoding.Statement i := by
  cases i with
  | ld q a => exact Laws.Encoding.ld q a
  | st q a => exact Laws.Encoding.st q a
  | addd rd rs1 rs2 => exact Laws.Encoding.addd rd rs1 rs2
  | subd rd rs1 rs2 => exact Laws.Encoding.subd rd rs1 rs2
  | multd rd rs1 rs2 => exact Laws.Encoding.multd rd rs1 rs2
  | divd rd rs1 rs2 => exact Laws.Encoding.divd rd rs1 rs2

/-- A mask keeps the whole opcode field, so a matching word has the opcode's code in it. -/
theorem fieldOp_of_matches {w : Word} {op : Opcode} (h : w &&& instrMask op = instrMatch op) :
    fieldOp w = opcodeCode op := by
  have hmask : fieldOp (instrMask op) = BitVec.allOnes 3 := by cases op <;> rfl
  have hmatch : fieldOp (instrMatch op) = opcodeCode op := by cases op <;> rfl
  calc fieldOp w = fieldOp w &&& fieldOp (instrMask op) := by rw [hmask, BitVec.and_allOnes]
    _ = fieldOp (w &&& instrMask op) := BitVec.extractLsb'_and.symm
    _ = opcodeCode op := by rw [h, hmatch]

/-- Settles O4: a word that decodes is the encoding of its record, and a word that matches a row has that row's
code in its opcode field. -/
theorem tablePatternsSelectOpcode : Obligations.TablePatternsSelectOpcode := by
  refine ⟨fun cfg w i h => ?_, fun cfg w op h => decode_of_fieldOp cfg (fieldOp_of_matches h), fun w op op' h h' => ?_⟩
  · obtain ⟨-, -, rfl⟩ := decode_eq_ok h
    exact encode_matches i
  · exact opcodeCode_injective ((fieldOp_of_matches h).symm.trans (fieldOp_of_matches h'))

/-- Settles O6: the examples are evaluated. -/
theorem workedEncodings : Obligations.WorkedEncodings := by
  unfold Obligations.WorkedEncodings
  decide

/-! ### The hardware encoding of a tag (R20, 10_state) -/

theorem poolCode_injective : Function.Injective Machine.poolCode := by
  intro p p'
  cases p <;> cases p' <;> decide

/-- The width of a rank holds every number below the size it is computed from. -/
theorem lt_two_pow_bitsFor {r n : Nat} (h : r < n) : r < 2 ^ Machine.bitsFor (n - 1) := by
  have hr : r ≤ n - 1 := Nat.le_sub_one_of_lt h
  unfold Machine.bitsFor
  split
  · omega
  · exact hr.trans_lt Nat.lt_log2_self

/-- Settles O60: pool code and rank are cut out of the encoding again, and the rank fits its width. -/
theorem tagEncodingIdentifiesSlot : Obligations.TagEncodingIdentifiesSlot := by
  refine ⟨fun cfg t u ht hu h => ?_, by decide, by decide⟩
  obtain ⟨p, r⟩ := t
  obtain ⟨p', r'⟩ := u
  have hpool : Machine.poolCode p = Machine.poolCode p' := by
    have hcut := congrArg (BitVec.extractLsb' (Machine.rankWidth cfg) 2) h
    simpa only [Machine.tagBits, BitVec.extractLsb'_append_eq_left] using hcut
  have hrank : BitVec.ofNat (Machine.rankWidth cfg) r = BitVec.ofNat (Machine.rankWidth cfg) r' := by
    have hcut := congrArg (BitVec.extractLsb' 0 (Machine.rankWidth cfg)) h
    simpa only [Machine.tagBits, BitVec.extractLsb'_append_eq_right] using hcut
  have hnum := congrArg BitVec.toNat hrank
  have hfits : ∀ n < max (max cfg.nadd cfg.nmul) (max cfg.nload cfg.nstore), n % 2 ^ Machine.rankWidth cfg = n :=
    fun n hn => Nat.mod_eq_of_lt (lt_two_pow_bitsFor hn)
  rw [BitVec.toNat_ofNat, BitVec.toNat_ofNat, hfits r ht, hfits r' hu] at hnum
  exact congrArg₂ Tag.mk (poolCode_injective hpool) hnum

end Sys2Proof
end

section
/-! SUPPORT. What a constructed machine and a reset machine hold (R7, 00_scope; R96, 30_encoding; R265,
70_reset_and_hazards). -/

namespace Sys2Proof.Machine

/-! ### The parameters of a constructed machine -/

/-- Where records, latencies and length pass, the check refuses a width of 0. -/
theorem loadCheck_of_widthsBad {cfg : Config} {prog : List Word} (hrec : checkRecords cfg 0 prog = none)
    (hlat : checkLatencies cfg = none) (hlen : prog.length < 2 ^ cfg.pcw) (h : ¬ cfg.WidthsWellFormed) :
    loadCheck cfg prog = some .badSize := by
  by_cases hsizes : cfg.SizesWellFormed ∧ cfg.BudgetWellFormed
  · rw [← widthsBad_eq_false, Bool.not_eq_false] at h
    simp [loadCheck, hrec, hlat, Nat.not_le.2 hlen, sizesBad_eq_false.2 hsizes.1, budgetBad_eq_false.2 hsizes.2, h]
  · exact loadCheck_of_sizesBad_or_budgetBad hrec hlat hlen hsizes

theorem latencyWellFormed_latOf {cfg : Config} (h : cfg.LatenciesWellFormed) (op : Opcode) :
    LatencyWellFormed cfg.timw (latOf cfg op) := by
  obtain ⟨hld, hst, hadd, hsub, hmul, hdiv⟩ := h
  cases op <;> assumption

theorem not_widthsWellFormed {cfg : Config} (h : cfg.pcw = 0 ∨ cfg.vlen = some 0) : ¬ cfg.WidthsWellFormed := by
  rintro ⟨hpcw, hvlen⟩
  obtain h | h := h
  · omega
  · exact hvlen h

/-- Settles O8: the load-time check passes exactly the legal configurations. -/
theorem loadedParametersAreInRange : Obligations.LoadedParametersAreInRange := by
  refine fun cfg prog => ⟨fun s hload => ?_, fun hzero => ?_, fun hdec hlat hlen hzero => ?_⟩
  · obtain ⟨hcheck, rfl⟩ := loadMachine_eq_ok.1 hload
    obtain ⟨-, hlen, hlat, ⟨hnf, hnf32, hni, hmem, hmem23⟩, hbudget, hpcw, hvlen⟩ := loadCheck_eq_none.1 hcheck
    have htimw : 1 ≤ cfg.timw := by
      obtain ⟨⟨hlo, hhi⟩, -⟩ := hlat
      rcases Nat.eq_zero_or_pos cfg.timw with hz | hpos
      · simp [hz] at hhi
        omega
      · exact hpos
    refine ⟨latencyWellFormed_latOf hlat, htimw, hnf, hnf32, hni, hmem, hmem23, hpcw, hlen, ?_, ?_⟩
    · rintro m hm
      exact Nat.one_le_iff_ne_zero.2 fun h0 => hbudget (h0 ▸ hm)
    · rintro n hn
      exact Nat.one_le_iff_ne_zero.2 fun h0 => hvlen (h0 ▸ hn)
  · cases hload : loadMachine cfg prog with
    | error e => exact ⟨e, rfl⟩
    | ok s =>
      obtain ⟨hcheck, -⟩ := loadMachine_eq_ok.1 hload
      obtain ⟨-, -, -, -, -, hwidths⟩ := loadCheck_eq_none.1 hcheck
      exact absurd hwidths (not_widthsWellFormed hzero)
  · exact loadMachine_eq_error.2 (loadCheck_of_widthsBad (checkRecords_eq_none.2 hdec)
      (checkLatencies_eq_none.2 hlat) hlen (not_widthsWellFormed hzero))

/-! ### The reset state of a configuration -/

theorem readReg_initState (cfg : Config) (prog : List Word) (q : RegName) :
    readReg (initState cfg prog) q = if q.WellFormed cfg then some (.value (regInit cfg q)) else none := by
  obtain ⟨file, idx⟩ := q
  cases file <;>
    · simp only [readReg, initState, RegName.WellFormed, List.getElem?_map]
      split
      · simp [*]
      · simp_all

/-- Of two pairs of `MEM_INIT` for one cell the later counts, and an unnamed cell keeps what it had. -/
theorem read_foldl_memInit (n : Nat) {a : Nat} (ha : a < n) (l : List (Nat × Val)) {m : Memory}
    (hm : Memory.wf m = true) :
    Memory.read (l.foldl (fun m c => if c.1 < n then Memory.write m c.1 c.2 else m) m) a =
      (l.reverse.lookup a).getD (Memory.read m a) := by
  induction l generalizing m with
  | nil => rfl
  | cons c l ih =>
    obtain ⟨b, v⟩ := c
    have hwf : Memory.wf (if b < n then Memory.write m b v else m) = true := by
      split
      · exact Memory.wf_write b v hm
      · exact hm
    have hread : Memory.read (if b < n then Memory.write m b v else m) a =
        (List.lookup a [(b, v)]).getD (Memory.read m a) := by
      by_cases hab : a = b
      · subst hab
        simp [ha, Memory.read_write_same a v hm, List.lookup]
      · have hne : (a == b) = false := by simpa using hab
        split <;> simp [List.lookup, hne, Memory.read_write_other v hab]
    rw [List.foldl_cons, ih hwf, hread, List.reverse_cons, List.lookup_append]
    cases l.reverse.lookup a <;> rfl

theorem read_memInitArray {cfg : Config} {a : Nat} (ha : a < cfg.memSize) :
    Memory.read (memInitArray cfg) a = (cfg.memInit.reverse.lookup a).getD 0 :=
  read_foldl_memInit cfg.memSize ha cfg.memInit rfl

/-- Settles O9: `rst = 1` answers the reset state of the machine's own parameters and program. -/
theorem resetPutsEveryFieldAtItsValue : Obligations.ResetPutsEveryFieldAtItsValue := by
  intro s
  refine ⟨initState s.cfg s.prog, idleOut (initState s.cfg s.prog), rfl, rfl, rfl, rfl, rfl, rfl, rfl, rfl,
    readReg_initState s.cfg s.prog, List.length_replicate, fun y => List.eq_of_mem_replicate,
    List.length_replicate, List.length_replicate, ?_, List.length_replicate, fun x => List.eq_of_mem_replicate,
    List.length_replicate, ?_, fun a => read_memInitArray⟩
  · rintro x (hx | hx) <;>
      · rw [List.eq_of_mem_replicate hx]
        exact ⟨rfl, rfl, rfl, rfl, rfl, rfl⟩
  · intro x hx
    rw [List.eq_of_mem_replicate hx]
    exact ⟨rfl, rfl, rfl, rfl, rfl⟩

/-! ### The invariants at reset -/

/-- After reset every slot is free (R37, 10_state). -/
theorem slotView_initState {cfg : Config} {prog : List Word} {t : Tag} {x : SlotView}
    (h : slotView (initState cfg prog) t = some x) : x.busy = false := by
  obtain ⟨p, r⟩ := t
  cases p <;>
    · simp only [slotView, initState, Option.map_eq_some_iff] at h
      obtain ⟨y, hy, rfl⟩ := h
      rw [List.eq_of_mem_replicate (List.mem_of_getElem? hy)]
      rfl

/-- After reset every operand register holds a value. -/
theorem slotOperands_initState {cfg : Config} {prog : List Word} {t : Tag} {e : Entry}
    (h : e ∈ slotOperands (initState cfg prog) t) : e.isVal = true := by
  obtain ⟨p, r⟩ := t
  cases p <;> simp only [slotOperands, initState] at h
  case load => simp at h
  all_goals
    split at h
    next x hx =>
      rw [List.eq_of_mem_replicate (List.mem_of_getElem? hx)] at h
      simp at h
      rw [h]
      rfl
    next => simp at h

theorem initState_inv {cfg : Config} {prog : List Word} (h : loadCheck cfg prog = none) :
    (initState cfg prog).Inv := by
  obtain ⟨hrec, hlen, hcfg⟩ := loadCheck_eq_none.1 h
  have hts : ∀ k, k < prog.length →
      (initState cfg prog).ts[k]? = some { issue := 0, exec := 0, wb := 0 } := fun k hk => by
    simp [initState, hk]
  have hidle : ∀ {t x}, x ∈ slotView (initState cfg prog) t → x.busy ≠ true := fun hx =>
    Bool.eq_false_iff.1 (slotView_initState hx)
  exact {
    shape := by constructor <;> simp [initState]
    config := hcfg
    records := fun k hk => by
      obtain ⟨i, hi⟩ := checkRecords_eq_none.1 hrec _ (List.getElem_mem hk)
      rw [recordAt_eq_some.2 ⟨_, List.getElem?_eq_getElem hk, hi⟩]
      rfl
    programFits := hlen
    pcRange := Nat.zero_le _
    memoryWf := memInitArray_wf cfg
    memoryInside := memInitArray_inside cfg
    unissued := fun k hk _ => hts k (by simpa [initState] using hk)
    issued := fun k hk => absurd hk (Nat.not_lt_zero k)
    issueOrder := fun l hl => absurd hl (Nat.not_lt_zero l)
    busyOwner := fun t _ x hx hb => absurd hb (hidle hx)
    ownersDiffer := fun t _ u _ x hx y _ hb => absurd hb (hidle hx)
    registerTags := fun q _ e he t ht => by
      rw [readReg_initState] at he
      split at he <;> cases he
      cases ht
    operandTags := fun t _ x hx hb => absurd hb (hidle hx)
    freeSlots := fun t _ x _ _ e he => slotOperands_initState he
    busyTimer := fun t _ x hx hb => absurd hb (hidle hx)
    busyElapsed := fun t _ x hx hb => absurd hb (hidle hx)
    retired := fun k hk y hy hwb => by
      rw [hts k (by simpa [initState] using hk)] at hy
      cases hy
      exact absurd rfl hwb
    inFlight := fun k hk => absurd hk (Nat.not_lt_zero k)
    noBreach := fun f hf => by cases hf }

/-- Settles O11: the machine is in its reset state, and the check has passed the parameters and the records. -/
theorem loadedMachineMeetsInvariants : Obligations.LoadedMachineMeetsInvariants := by
  intro cfg prog s h
  obtain ⟨hcheck, rfl⟩ := loadMachine_eq_ok.1 h
  exact initState_inv hcheck

/-- Settles O10: the model's reset state is that of the default parameters and the empty program. -/
theorem resetStateMeetsInvariants : Obligations.ResetStateMeetsInvariants := by
  have hreset : State.reset = initState Config.default [] := by decide
  unfold Obligations.ResetStateMeetsInvariants
  rw [hreset]
  exact initState_inv (by decide)

end Sys2Proof.Machine
end

section
/-! SUPPORT. Slots of all pools as one type, and what each operation of a step does to the slot a tag names (R30 to R37,
10_state). `slotView` and `slotOperands` are its view and its operand registers. -/

namespace Sys2Proof.Machine

/-- A slot of any pool (R31 to R33, 10_state). -/
inductive Slot where
  | arith (x : ArithSlot)
  | load (x : LoadSlot)
  | store (x : StoreSlot)

/-- The slot a tag names, none where the pool has no such rank. -/
def slotAt (s : State) (u : Tag) : Option Slot :=
  match u.pool with
  | .add => s.add[u.rank]?.map .arith
  | .mul => s.mul[u.rank]?.map .arith
  | .load => s.load[u.rank]?.map .load
  | .store => s.store[u.rank]?.map .store

namespace Slot

/-- What the countdown phase reads of the slot. -/
def view : Slot → SlotView
  | arith x => x.view
  | load x => x.view
  | store x => x.view

/-- The slot's operand registers (R34, 10_state). -/
def operands : Slot → List Entry
  | arith x => [x.j, x.k]
  | load _ => []
  | store x => [x.j]

/-- What the slot keeps of its instruction: the opcode, or the literal address. -/
def label : Slot → Opcode ⊕ Nat
  | arith x => .inl x.op
  | load x => .inr x.addr
  | store x => .inr x.addr

/-- The countdown of the slot. -/
def countdown (ts : List Stamp) (c : Nat) : Slot → Slot
  | arith x => arith (x.countdown ts c)
  | load x => load (x.countdown ts c)
  | store x => store (x.countdown ts c)

/-- Match-and-forward in the slot. -/
def forward (t : Tag) (v : Val) : Slot → Slot
  | arith x => arith (x.forward t v)
  | load x => load x
  | store x => store (x.forward t v)

/-- The slot with its `busy` cleared (R159, 42_writeback_broadcast). -/
def free : Slot → Slot
  | arith x => arith { x with busy := false }
  | load x => load { x with busy := false }
  | store x => store { x with busy := false }

@[simp] theorem view_arith (x : ArithSlot) : (arith x).view = x.view := rfl

@[simp] theorem view_load (x : LoadSlot) : (load x).view = x.view := rfl

@[simp] theorem view_store (x : StoreSlot) : (store x).view = x.view := rfl

@[simp] theorem operands_arith (x : ArithSlot) : (arith x).operands = [x.j, x.k] := rfl

@[simp] theorem operands_load (x : LoadSlot) : (load x).operands = [] := rfl

@[simp] theorem operands_store (x : StoreSlot) : (store x).operands = [x.j] := rfl

@[simp] theorem label_arith (x : ArithSlot) : (arith x).label = .inl x.op := rfl

@[simp] theorem label_load (x : LoadSlot) : (load x).label = .inr x.addr := rfl

@[simp] theorem label_store (x : StoreSlot) : (store x).label = .inr x.addr := rfl

/-! ### Each update, read by view, operand registers and label -/

theorem view_ready (x : Slot) : x.view.ready = x.operands.all Entry.isVal := by
  cases x with
  | arith x => simp [view, operands, ArithSlot.view, ArithSlot.ready]
  | load x => rfl
  | store x => simp [view, operands, StoreSlot.view, StoreSlot.ready]

theorem countdown_reads (ts : List Stamp) (c : Nat) (x : Slot) :
    (x.countdown ts c).view = x.view.countdown ts c ∧ (x.countdown ts c).operands = x.operands ∧
      (x.countdown ts c).label = x.label := by
  cases x with
  | arith x =>
    cases h : counts ts c x.view
    · simp [countdown, view, operands, label, ArithSlot.countdown, SlotView.countdown, h]
    · simp [countdown, view, operands, label, ArithSlot.countdown, SlotView.countdown, h]
      rfl
  | load x =>
    cases h : counts ts c x.view
    · simp [countdown, view, operands, label, LoadSlot.countdown, SlotView.countdown, h]
    · simp [countdown, view, operands, label, LoadSlot.countdown, SlotView.countdown, h]
      rfl
  | store x =>
    cases h : counts ts c x.view
    · simp [countdown, view, operands, label, StoreSlot.countdown, SlotView.countdown, h]
    · simp [countdown, view, operands, label, StoreSlot.countdown, SlotView.countdown, h]
      rfl

@[simp] theorem view_countdown (ts : List Stamp) (c : Nat) (x : Slot) :
    (x.countdown ts c).view = x.view.countdown ts c :=
  (countdown_reads ts c x).1

@[simp] theorem operands_countdown (ts : List Stamp) (c : Nat) (x : Slot) :
    (x.countdown ts c).operands = x.operands :=
  (countdown_reads ts c x).2.1

@[simp] theorem label_countdown (ts : List Stamp) (c : Nat) (x : Slot) : (x.countdown ts c).label = x.label :=
  (countdown_reads ts c x).2.2

@[simp] theorem view_free (x : Slot) : x.free.view = { x.view with busy := false } := by
  cases x <;> rfl

@[simp] theorem operands_free (x : Slot) : x.free.operands = x.operands := by
  cases x <;> rfl

@[simp] theorem label_free (x : Slot) : x.free.label = x.label := by
  cases x <;> rfl

/-- A transaction leaves of a slot all but its operand registers, and with them whether it is ready. -/
theorem forward_reads (t : Tag) (v : Val) (x : Slot) :
    (x.forward t v).view.busy = x.view.busy ∧ (x.forward t v).view.timer = x.view.timer ∧
      (x.forward t v).view.owner = x.view.owner ∧ (x.forward t v).label = x.label := by
  cases x with
  | arith x =>
    simp only [forward, ArithSlot.forward]
    split_ifs <;> exact ⟨rfl, rfl, rfl, rfl⟩
  | load x => exact ⟨rfl, rfl, rfl, rfl⟩
  | store x =>
    simp only [forward, StoreSlot.forward]
    split_ifs <;> exact ⟨rfl, rfl, rfl, rfl⟩

@[simp] theorem busy_forward (t : Tag) (v : Val) (x : Slot) : (x.forward t v).view.busy = x.view.busy :=
  (forward_reads t v x).1

@[simp] theorem timer_forward (t : Tag) (v : Val) (x : Slot) : (x.forward t v).view.timer = x.view.timer :=
  (forward_reads t v x).2.1

@[simp] theorem owner_forward (t : Tag) (v : Val) (x : Slot) : (x.forward t v).view.owner = x.view.owner :=
  (forward_reads t v x).2.2.1

@[simp] theorem label_forward (t : Tag) (v : Val) (x : Slot) : (x.forward t v).label = x.label :=
  (forward_reads t v x).2.2.2

theorem operands_forward (t : Tag) (v : Val) (x : Slot) :
    (x.forward t v).operands = if x.view.busy then x.operands.map (Entry.forward t v) else x.operands := by
  cases x with
  | arith x => cases h : x.busy <;> simp [forward, operands, view, ArithSlot.view, ArithSlot.forward, h]
  | load x => simp [forward, operands]
  | store x => cases h : x.busy <;> simp [forward, operands, view, StoreSlot.view, StoreSlot.forward, h]

/-- A slot is known by its view, its operand registers and its label. -/
theorem ext_of_reads {x y : Slot} (hv : x.view = y.view) (ho : x.operands = y.operands) (hl : x.label = y.label) :
    x = y := by
  cases x with
  | arith x =>
    cases y with
    | arith y =>
      cases x
      cases y
      simp_all [view, operands, label, ArithSlot.view]
    | load y => simp [operands] at ho
    | store y => simp [operands] at ho
  | load x =>
    cases y with
    | arith y => simp [operands] at ho
    | load y =>
      cases x
      cases y
      simp_all [view, label, LoadSlot.view]
    | store y => simp [operands] at ho
  | store x =>
    cases y with
    | arith y => simp [operands] at ho
    | load y => simp [operands] at ho
    | store y =>
      cases x
      cases y
      simp_all [view, operands, label, StoreSlot.view]

end Slot

/-! ### The slot of a tag -/

theorem slotView_eq (s : State) (u : Tag) : slotView s u = (slotAt s u).map Slot.view := by
  obtain ⟨p, r⟩ := u
  cases p <;> simp only [slotView, slotAt, Option.map_map] <;> rfl

theorem slotOperands_eq (s : State) (u : Tag) : slotOperands s u = ((slotAt s u).map Slot.operands).getD [] := by
  obtain ⟨p, r⟩ := u
  cases p <;> simp only [slotOperands, slotAt]
  case add => cases s.add[r]? <;> rfl
  case mul => cases s.mul[r]? <;> rfl
  case load => cases s.load[r]? <;> rfl
  case store => cases s.store[r]? <;> rfl

theorem slotView_eq_some_iff {s : State} {u : Tag} {x : SlotView} :
    slotView s u = some x ↔ ∃ y, slotAt s u = some y ∧ y.view = x := by
  rw [slotView_eq, Option.map_eq_some_iff]

theorem slotView_of_slotAt {s : State} {u : Tag} {y : Slot} (h : slotAt s u = some y) : slotView s u = some y.view := by
  rw [slotView_eq, h, Option.map_some]

theorem slotOperands_of_slotAt {s : State} {u : Tag} {y : Slot} (h : slotAt s u = some y) :
    slotOperands s u = y.operands := by
  rw [slotOperands_eq, h, Option.map_some, Option.getD_some]

theorem mem_scanOrder_of_slotAt {s : State} {u : Tag} {y : Slot} (h : slotAt s u = some y) : u ∈ scanOrder s := by
  rw [mem_scanOrder, slotView_of_slotAt h, Option.isSome_some]

theorem slotAt_load {s : State} {r : Nat} {x : LoadSlot} :
    slotAt s { pool := .load, rank := r } = some (.load x) ↔ s.load[r]? = some x := by
  simp [slotAt]

theorem slotAt_store {s : State} {r : Nat} {x : StoreSlot} :
    slotAt s { pool := .store, rank := r } = some (.store x) ↔ s.store[r]? = some x := by
  simp [slotAt]

theorem slotAt_arith {s : State} {u : Tag} {x : ArithSlot} :
    slotAt s u = some (.arith x) ↔ (arithSlots s u.pool)[u.rank]? = some x := by
  obtain ⟨p, r⟩ := u
  cases p <;> simp [slotAt, arithSlots]

/-- The slots depend on the pools alone. -/
theorem slotAt_congr {s t : State} (ha : t.add = s.add) (hm : t.mul = s.mul) (hl : t.load = s.load)
    (hs : t.store = s.store) (u : Tag) : slotAt t u = slotAt s u := by
  simp [slotAt, ha, hm, hl, hs]

/-- The busy bits of a pool are those of its slots (R126, 40_issue). -/
theorem getElem?_busyBits (s : State) (p : Pool) (r : Nat) :
    (busyBits s p)[r]? = (slotAt s { pool := p, rank := r }).map fun x => x.view.busy := by
  cases p <;> simp only [busyBits, slotAt, List.getElem?_map, Option.map_map] <;> rfl

/-- A store slot is one of pool STORE, a load slot one of pool LOAD. -/
theorem pool_of_slotAt_store {s : State} {u : Tag} {x : StoreSlot} (h : slotAt s u = some (.store x)) :
    u.pool = .store := by
  obtain ⟨p, r⟩ := u
  cases p <;> simp [slotAt] at h ⊢

theorem pool_of_slotAt_load {s : State} {u : Tag} {x : LoadSlot} (h : slotAt s u = some (.load x)) :
    u.pool = .load := by
  obtain ⟨p, r⟩ := u
  cases p <;> simp [slotAt] at h ⊢

theorem pool_of_slotAt_arith {s : State} {u : Tag} {x : ArithSlot} (h : slotAt s u = some (.arith x)) :
    u.pool ≠ .load ∧ u.pool ≠ .store := by
  obtain ⟨p, r⟩ := u
  cases p <;> simp [slotAt] at h ⊢

/-! ### The operations of a step -/

/-- Freeing a slot clears its `busy` and leaves every other slot alone (R159, 42_writeback_broadcast). -/
theorem slotAt_freeSlot (s : State) (t u : Tag) :
    slotAt (freeSlot s t) u = (slotAt s u).map fun x => if u = t then x.free else x := by
  by_cases hut : u = t
  · subst hut
    obtain ⟨p, r⟩ := u
    cases p <;> simp only [slotAt, freeSlot, List.getElem?_modify_eq, Option.map_eq_map, Option.map_map, if_true] <;> rfl
  · simp only [if_neg hut, Option.map_id']
    obtain ⟨p, r⟩ := t
    obtain ⟨p', r'⟩ := u
    have hr : p' = p → r ≠ r' := by
      rintro rfl rfl
      exact hut rfl
    cases p <;> cases p' <;> simp_all [slotAt, freeSlot]

theorem slotAt_retire (t : Tag) (k : Nat) (s : State) (u : Tag) :
    slotAt (retire t k s) u = (slotAt s u).map fun x => if u = t then x.free else x :=
  slotAt_freeSlot s t u

theorem slotAt_broadcast (t : Tag) (v : Val) (s : State) (u : Tag) :
    slotAt (broadcast t v s) u = (slotAt s u).map (Slot.forward t v) := by
  obtain ⟨p, r⟩ := u
  cases p <;> simp only [slotAt, broadcast_add, broadcast_mul, broadcast_load, broadcast_store, List.getElem?_map,
    Option.map_map] <;> rfl

/-- The slots after the countdown phase (R143, 41_countdown). -/
theorem slotAt_countdownPhase (s : State) (u : Tag) :
    slotAt (countdownPhase s).1 u = (slotAt s u).map (Slot.countdown s.ts s.cycle) := by
  have hdec : slotAt (countdownPhase s).1 u = slotAt (decrementTimers s) u := by
    rw [countdownPhase_eq]
    exact slotAt_congr rfl rfl rfl rfl u
  rw [hdec]
  obtain ⟨p, r⟩ := u
  cases p <;> simp only [slotAt, decrementTimers_add, decrementTimers_mul, decrementTimers_load,
    decrementTimers_store, List.getElem?_map, Option.map_map] <;> rfl

/-- What the issue of a record puts in a slot: its opcode, or its literal address. -/
def instrLabel : Instr → Opcode ⊕ Nat
  | .ld _ addr => .inr addr
  | .st _ addr => .inr addr
  | .addd _ _ _ => .inl .addd
  | .subd _ _ _ => .inl .subd
  | .multd _ _ _ => .inl .multd
  | .divd _ _ _ => .inl .divd

/-- A slot holds a record where its pool is that of the record's class and its label is the record's. -/
theorem slotHolds_iff {s : State} {u : Tag} {i : Instr} :
    slotHolds s u i = true ↔ classOf (instrOpcode i) = u.pool ∧ ∃ x, slotAt s u = some x ∧ x.label = instrLabel i := by
  obtain ⟨p, r⟩ := u
  cases i <;> cases p <;>
    simp [slotHolds, classOf, instrOpcode, slotAt, instrLabel, Slot.label]

end Sys2Proof.Machine
end

section
/-! SUPPORT. One allocation: the slot filled, the register renamed, the stamp set (R113 to R121, 40_issue). -/

namespace Sys2Proof.Machine

/-! ### The arithmetic instructions, field by field -/

/-- The issue of an instruction of class ADD. -/
theorem issuedAdd_of_exec {i : Instr} {op : Opcode} {rd rs1 rs2 : RegName} {s : State} {r : Nat} {j k : Entry}
    (hi : exec i s = issueArith op rd rs1 rs2 s) (hop : instrOpcode i = op) (hclass : classOf op = .add)
    (hrd : (readReg s rd).isSome = true) (hj : readReg s rs1 = some j) (hk : readReg s rs2 = some k)
    (hfree : IsLeastFree s .add r) :
    ∃ t, exec i s = .next t ∧ Claims.IssuedAdd s t op (latOf s.cfg op) r rd j k := by
  obtain ⟨e, he⟩ := Option.isSome_iff_exists.1 hrd
  have hr : leastFree s .add = some r := leastFree_eq_some.2 hfree
  have hexec := hi.trans (issueArith_eq hj hk he)
  rw [hclass, hr, Option.elim_some] at hexec
  exact ⟨_, hexec, {
    issued := issued_of_exec hexec (by rw [hop, hclass, hr])
    slot := by simp [allocatedArith]
    mul := by simp
    load := by simp
    store := by simp
    renamed := renamed_of_writeReg rfl rfl he }⟩

/-- The issue of an instruction of class MUL. -/
theorem issuedMul_of_exec {i : Instr} {op : Opcode} {rd rs1 rs2 : RegName} {s : State} {r : Nat} {j k : Entry}
    (hi : exec i s = issueArith op rd rs1 rs2 s) (hop : instrOpcode i = op) (hclass : classOf op = .mul)
    (hrd : (readReg s rd).isSome = true) (hj : readReg s rs1 = some j) (hk : readReg s rs2 = some k)
    (hfree : IsLeastFree s .mul r) :
    ∃ t, exec i s = .next t ∧ Claims.IssuedMul s t op (latOf s.cfg op) r rd j k := by
  obtain ⟨e, he⟩ := Option.isSome_iff_exists.1 hrd
  have hr : leastFree s .mul = some r := leastFree_eq_some.2 hfree
  have hexec := hi.trans (issueArith_eq hj hk he)
  rw [hclass, hr, Option.elim_some] at hexec
  exact ⟨_, hexec, {
    issued := issued_of_exec hexec (by rw [hop, hclass, hr])
    slot := by simp [allocatedArith]
    add := by simp
    load := by simp
    store := by simp
    renamed := renamed_of_writeReg rfl rfl he }⟩

/-- Settles O16: ADDD is of class ADD. -/
theorem adddIssues : Obligations.AdddIssues :=
  fun _ _ _ _ _ _ _ => issuedAdd_of_exec rfl rfl rfl

/-- Settles O17: SUBD is of class ADD. -/
theorem subdIssues : Obligations.SubdIssues :=
  fun _ _ _ _ _ _ _ => issuedAdd_of_exec rfl rfl rfl

/-- Settles O18: MULTD is of class MUL. -/
theorem multdIssues : Obligations.MultdIssues :=
  fun _ _ _ _ _ _ _ => issuedMul_of_exec rfl rfl rfl

/-- Settles O19: DIVD is of class MUL. -/
theorem divdIssues : Obligations.DivdIssues :=
  fun _ _ _ _ _ _ _ => issuedMul_of_exec rfl rfl rfl

/-! ### Malformed operands -/

theorem issueArith_refused {op : Opcode} {rd rs1 rs2 : RegName} {s : State}
    (h : ¬ ((readReg s rd).isSome = true ∧ (readReg s rs1).isSome = true ∧ (readReg s rs2).isSome = true)) :
    issueArith op rd rs1 rs2 s = .refused (.configError (.malformedOperand s.pc)) := by
  unfold issueArith
  split
  next hj hk he => exact absurd ⟨he ▸ rfl, hj ▸ rfl, hk ▸ rfl⟩ h
  next => rfl

/-- Settles O21: every instruction reads its operands before it looks at its pool. -/
theorem malformedOperandIsRefused : Obligations.MalformedOperandIsRefused := by
  intro s i h
  cases i with
  | ld rd addr =>
    show execLd rd addr s = _
    unfold execLd effectiveAddr
    split
    next he ha =>
      split at ha
      next hlt => exact absurd ⟨he ▸ rfl, hlt⟩ h
      next => cases ha
    next => rfl
  | st rs addr =>
    show execSt rs addr s = _
    unfold execSt effectiveAddr
    split
    next hj ha =>
      split at ha
      next hlt => exact absurd ⟨hj ▸ rfl, hlt⟩ h
      next => cases ha
    next => rfl
  | addd rd rs1 rs2 => exact issueArith_refused h
  | subd rd rs1 rs2 => exact issueArith_refused h
  | multd rd rs1 rs2 => exact issueArith_refused h
  | divd rd rs1 rs2 => exact issueArith_refused h

/-! ### The slot-allocation decoder -/

/-- The busy vector of a pool among the decoder's four inputs. -/
def poolVector (ba bm bl bs : List Bool) : Pool → List Bool
  | .add => ba
  | .mul => bm
  | .load => bl
  | .store => bs

/-- The decoder answers by the priority encoder of its class's busy vector. -/
theorem allocDecoder_eq (valid : Bool) (op : Opcode) (ba bm bl bs : List Bool) :
    allocDecoder valid op ba bm bl bs = (priorityEncoder (poolVector ba bm bl bs (classOf op))).elim
      { pool := classOf op, found := false, rank := 0, stall := valid }
      fun r => { pool := classOf op, found := true, rank := r, stall := false } := by
  unfold allocDecoder
  cases classOf op with
  | add => cases h : priorityEncoder ba <;> simp only [poolVector, h, Option.elim]
  | mul => cases h : priorityEncoder bm <;> simp only [poolVector, h, Option.elim]
  | load => cases h : priorityEncoder bl <;> simp only [poolVector, h, Option.elim]
  | store => cases h : priorityEncoder bs <;> simp only [poolVector, h, Option.elim]

/-- Settles O22: the outputs read off the priority encoder's two cases. -/
theorem allocationDecoderOutputs : Obligations.AllocationDecoderOutputs := by
  intro valid op ba bm bl bs bits a
  have ha : a = (priorityEncoder bits).elim { pool := classOf op, found := false, rank := 0, stall := valid }
      fun r => { pool := classOf op, found := true, rank := r, stall := false } :=
    allocDecoder_eq valid op ba bm bl bs
  rw [ha]
  cases hp : priorityEncoder bits with
  | none =>
    have hfull := priorityEncoder_eq_none.1 hp
    have hno : false ∉ bits := fun h => by simpa using hfull false h
    simp [hno, allocEnable]
  | some r =>
    obtain ⟨hfree, hbelow⟩ := priorityEncoder_eq_some.1 hp
    refine ⟨rfl, by simp [List.mem_of_getElem? hfree], fun _ => ⟨hfree, hbelow⟩, by simp, fun p n => ?_⟩
    rw [eq_comm (a := p), eq_comm (a := n)]
    simp only [allocEnable, Bool.and_eq_true, and_assoc, Option.elim_some]
    exact and_congr_right fun _ => and_congr_right fun _ => and_congr decide_eq_true_iff decide_eq_true_iff

/-- Settles O23: the rows are evaluated. -/
theorem priorityEncoderTruthTable : Obligations.PriorityEncoderTruthTable := by
  unfold Obligations.PriorityEncoderTruthTable
  decide

/-! ### The slot an issue fills -/

/-- The entry a source register gives the slot that captures it (R117, R119, 40_issue). -/
def captured (s : State) (q : RegName) : Entry := (readReg s q).getD (.value 0)

/-- The slot that the issue of a record fills (R115, R117 to R119, 40_issue). -/
def freshSlot (s : State) : Instr → Slot
  | .ld _ addr => .load (allocatedLoad s addr)
  | .st rs addr => .store (allocatedStore s (captured s rs) addr)
  | .addd _ rs1 rs2 => .arith (allocatedArith s .addd (captured s rs1) (captured s rs2))
  | .subd _ rs1 rs2 => .arith (allocatedArith s .subd (captured s rs1) (captured s rs2))
  | .multd _ rs1 rs2 => .arith (allocatedArith s .multd (captured s rs1) (captured s rs2))
  | .divd _ rs1 rs2 => .arith (allocatedArith s .divd (captured s rs1) (captured s rs2))

@[simp] theorem operands_freshSlot (s : State) (i : Instr) :
    (freshSlot s i).operands = (Claims.sources i).map (captured s) := by
  cases i <;> rfl

@[simp] theorem label_freshSlot (s : State) (i : Instr) : (freshSlot s i).label = instrLabel i := by
  cases i <;> rfl

@[simp] theorem busy_freshSlot (s : State) (i : Instr) : (freshSlot s i).view.busy = true := by
  cases i <;> rfl

@[simp] theorem timer_freshSlot (s : State) (i : Instr) :
    (freshSlot s i).view.timer = latOf s.cfg (instrOpcode i) := by
  cases i <;> rfl

@[simp] theorem owner_freshSlot (s : State) (i : Instr) : (freshSlot s i).view.owner = s.pc := by
  cases i <;> rfl

/-- The tag of the slot of rank `r` in a record's pool. -/
abbrev instrTag (i : Instr) (r : Nat) : Tag := { pool := classOf (instrOpcode i), rank := r }

/-- The slot that the priority encoder answers is there and is free (R113, 40_issue). -/
theorem slotAt_leastFree {s : State} {p : Pool} {r : Nat} (h : leastFree s p = some r) :
    ∃ x, slotAt s { pool := p, rank := r } = some x ∧ x.view.busy = false := by
  obtain ⟨hfree, -⟩ := leastFree_eq_some.1 h
  rwa [getElem?_busyBits, Option.map_eq_some_iff] at hfree

/-- Everything the issue of an instruction does where its pool has a free slot. -/
structure Allocated (s t : State) (i : Instr) (r : Nat) : Prop where
  issued : Claims.Issued s t
  operands : OperandsPresent s i
  slots : ∀ u, slotAt t u = if u = instrTag i r then some (freshSlot s i) else slotAt s u
  registers : ∀ q, readReg t q = if instrDest i = some q then some (.tag (instrTag i r)) else readReg s q

section
variable {s : State} {r : Nat} {y : Slot}

theorem getElem?_map_set {α : Type} (f : α → Slot) {l : List α} {z : Slot} (h : l[r]?.map f = some z) (x : α) (n : Nat) :
    (l.set r x)[n]?.map f = if n = r then some (f x) else l[n]?.map f := by
  obtain ⟨w, hw, -⟩ := Option.map_eq_some_iff.1 h
  obtain ⟨hlt, -⟩ := List.getElem?_eq_some_iff.1 hw
  by_cases hn : n = r
  · rw [hn, List.getElem?_set_self hlt, if_pos rfl, Option.map_some]
  · rw [List.getElem?_set_ne (Ne.symm hn), if_neg hn]

/-- Filling a slot that is there. -/
theorem slotAt_putArithSlot {p : Pool} (x : ArithSlot) (hp : p = .add ∨ p = .mul)
    (h : slotAt s { pool := p, rank := r } = some y) (u : Tag) :
    slotAt (putArithSlot s p r x) u = if u = { pool := p, rank := r } then some (.arith x) else slotAt s u := by
  obtain ⟨p', n⟩ := u
  obtain rfl | rfl := hp
  · cases p' with
    | add =>
      simp only [Tag.mk.injEq, true_and]
      exact getElem?_map_set Slot.arith h x n
    | mul | load | store => exact (if_neg (by simp)).symm
  · cases p' with
    | mul =>
      simp only [Tag.mk.injEq, true_and]
      exact getElem?_map_set Slot.arith h x n
    | add | load | store => exact (if_neg (by simp)).symm

theorem slotAt_putLoadSlot (x : LoadSlot) (h : slotAt s { pool := .load, rank := r } = some y) (u : Tag) :
    slotAt (putLoadSlot s r x) u = if u = { pool := .load, rank := r } then some (.load x) else slotAt s u := by
  obtain ⟨p, n⟩ := u
  cases p with
  | load =>
    simp only [Tag.mk.injEq, true_and]
    exact getElem?_map_set Slot.load h x n
  | add | mul | store => exact (if_neg (by simp)).symm

theorem slotAt_putStoreSlot (x : StoreSlot) (h : slotAt s { pool := .store, rank := r } = some y) (u : Tag) :
    slotAt (putStoreSlot s r x) u = if u = { pool := .store, rank := r } then some (.store x) else slotAt s u := by
  obtain ⟨p, n⟩ := u
  cases p with
  | store =>
    simp only [Tag.mk.injEq, true_and]
    exact getElem?_map_set Slot.store h x n
  | add | mul | load => exact (if_neg (by simp)).symm

end

theorem captured_of_readReg {s : State} {q : RegName} {e : Entry} (h : readReg s q = some e) : captured s q = e := by
  rw [captured, h, Option.getD_some]

theorem readReg_of_renamed {s t : State} {rd : RegName} {u : Tag} (h : Claims.Renamed s t rd u) (q : RegName) :
    readReg t q = if some rd = some q then some (.tag u) else readReg s q := by
  by_cases hq : q = rd
  · simp [hq, h.dest]
  · simp [h.others q hq, Ne.symm hq]

/-- What the four arithmetic issues write where their pool has a free slot. -/
theorem allocates_of_issueArith {op : Opcode} {rd rs1 rs2 : RegName} {s t : State} {r : Nat} {y : Slot}
    (h : issueArith op rd rs1 rs2 s = .next t) (hp : classOf op = .add ∨ classOf op = .mul)
    (hr : leastFree s (classOf op) = some r) (hy : slotAt s { pool := classOf op, rank := r } = some y) :
    ((readReg s rd).isSome = true ∧ (readReg s rs1).isSome = true ∧ (readReg s rs2).isSome = true) ∧
    (∀ u, slotAt t u = if u = { pool := classOf op, rank := r }
      then some (.arith (allocatedArith s op (captured s rs1) (captured s rs2))) else slotAt s u) ∧
    Claims.Renamed s t rd { pool := classOf op, rank := r } := by
  obtain ⟨j, k, e, hj, hk, he, ⟨hnone, -⟩ | ⟨r', hr', rfl⟩⟩ := issueArith_eq_next h
  · rw [hr] at hnone
    cases hnone
  · cases hr.symm.trans hr'
    refine ⟨⟨he ▸ rfl, hj ▸ rfl, hk ▸ rfl⟩, fun u => ?_, renamed_of_writeReg (by simp) (by simp) he⟩
    rw [captured_of_readReg hj, captured_of_readReg hk, ← slotAt_putArithSlot _ hp hy]
    exact slotAt_congr (by simp) (by simp) (by simp) (by simp) u

/-- The allocation of every instruction. -/
theorem allocated_of_exec {i : Instr} {s t : State} {r : Nat} (h : exec i s = .next t)
    (hr : leastFree s (classOf (instrOpcode i)) = some r) : Allocated s t i r := by
  have hissued := issued_of_exec h hr
  obtain ⟨y, hy, -⟩ := slotAt_leastFree hr
  cases i with
  | ld rd addr =>
    obtain ⟨e, he, ha, ⟨hnone, -⟩ | ⟨r', hr', rfl⟩⟩ := execLd_eq_next h
    · cases hnone.symm.trans hr
    · cases hr'.symm.trans hr
      refine ⟨hissued, ⟨he ▸ rfl, ha⟩, fun u => ?_, readReg_of_renamed (renamed_of_writeReg (by simp) (by simp) he)⟩
      exact (slotAt_congr (by simp) (by simp) (by simp) (by simp) u).trans (slotAt_putLoadSlot _ hy u)
  | st rs addr =>
    obtain ⟨j, hj, ha, ⟨hnone, -⟩ | ⟨r', hr', rfl⟩⟩ := execSt_eq_next h
    · cases hnone.symm.trans hr
    · cases hr'.symm.trans hr
      refine ⟨hissued, ⟨hj ▸ rfl, ha⟩, fun u => ?_, fun q => readReg_congr (by simp) (by simp) q⟩
      rw [freshSlot, captured_of_readReg hj]
      exact (slotAt_congr (by simp) (by simp) (by simp) (by simp) u).trans (slotAt_putStoreSlot _ hy u)
  | addd rd rs1 rs2 =>
    obtain ⟨hops, hslots, hren⟩ := allocates_of_issueArith h (.inl rfl) hr hy
    exact ⟨hissued, hops, hslots, readReg_of_renamed hren⟩
  | subd rd rs1 rs2 =>
    obtain ⟨hops, hslots, hren⟩ := allocates_of_issueArith h (.inl rfl) hr hy
    exact ⟨hissued, hops, hslots, readReg_of_renamed hren⟩
  | multd rd rs1 rs2 =>
    obtain ⟨hops, hslots, hren⟩ := allocates_of_issueArith h (.inr rfl) hr hy
    exact ⟨hissued, hops, hslots, readReg_of_renamed hren⟩
  | divd rd rs1 rs2 =>
    obtain ⟨hops, hslots, hren⟩ := allocates_of_issueArith h (.inr rfl) hr hy
    exact ⟨hissued, hops, hslots, readReg_of_renamed hren⟩

/-- Everything the issue of an instruction can do: a stall, or the allocation of the least free slot. -/
theorem exec_stalls_or_allocates {i : Instr} {s t : State} (h : exec i s = .next t) :
    (leastFree s (classOf (instrOpcode i)) = none ∧ t = s) ∨
    ∃ r, leastFree s (classOf (instrOpcode i)) = some r ∧ Allocated s t i r := by
  obtain hstall | ⟨hsome, -⟩ := exec_eq_next h
  · exact .inl hstall
  · obtain ⟨r, hr⟩ := Option.isSome_iff_exists.1 hsome
    exact .inr ⟨r, hr, allocated_of_exec h hr⟩

/-- Settles O25: the renamed register holds the tag of a slot that was free, so not the busy one's. -/
theorem lastIssuedWins : Obligations.LastIssuedWins := by
  rintro s t i q u v hexec hpc hdest ⟨x, hx, hbusy⟩
  obtain ⟨-, rfl⟩ | ⟨r, hr, halloc⟩ := exec_stalls_or_allocates hexec
  · omega
  have hread : readReg t q = some (.tag (instrTag i r)) := by rw [halloc.registers, if_pos hdest]
  have hne : instrTag i r ≠ u := by
    rintro rfl
    obtain ⟨y, hy, hfree⟩ := slotAt_leastFree hr
    cases hx.symm.trans (slotView_of_slotAt hy)
    exact Bool.false_ne_true (hfree.symm.trans hbusy)
  refine ⟨instrTag i r, hread, hne, ?_⟩
  rw [readReg_broadcast, hread, Option.map_some, Entry.forward, if_neg hne]

end Sys2Proof.Machine
end

section
/-! SUPPORT. The parts of a cycle one by one: the outputs, the countdown phase, the results, one bus transaction, one
access to the memory. -/

namespace Sys2Proof.Machine

/-! ### The cycle (R185, R188, 43_cycle_driver) -/

/-- Settles O26: a word at `pc` that decodes is executed, and one that does not is refused. -/
theorem stepRunsDecodedRecord : Obligations.StepRunsDecodedRecord := by
  refine fun s w hf hw => ⟨fun i hi => ?_, fun e he => ?_⟩
  · have hissue : issuePhase (advanceCycle s) = exec i (advanceCycle s) :=
      issuePhase_of_recordAt (s := advanceCycle s) (recordAt_eq_some.2 ⟨w, hw, hi⟩)
    rw [step_of_fault_eq_none hf, hissue]
  · have hissue : issuePhase (advanceCycle s) = .refused (.configError (recordError s.pc e)) := by
      simp [issuePhase, hw, he]
    rw [step_of_fault_eq_none hf, hissue, andThen_refused]

theorem step_of_fault_ne_none {s : State} (h : s.fault ≠ none) : step s = .next s := by
  simp [step, dropOutputs, runCycle, Option.isSome_iff_ne_none.2 h]

/-- Settles O27: a latched fault is tested before any phase. -/
theorem faultFreezesTheMachine : Obligations.FaultFreezesTheMachine :=
  fun _ => step_of_fault_ne_none

/-- With no fault latched a cycle's outputs are those of R42 (10_state). -/
theorem runCycle_outputs {s t : State} {o : StepOut} (hf : s.fault = none) (h : runCycle s = .next (t, o)) :
    o.stall = stallOut s ∧ o.done = done t ∧ o.fault = t.fault := by
  obtain ⟨hsome, -⟩ | ⟨-, s1, p, -, -, hq⟩ := runCycle_eq_next h
  · simp [hf] at hsome
  · cases hq
    exact ⟨rfl, rfl, rfl⟩

theorem stallOut_eq_true_iff {s : State} :
    stallOut s = true ↔ ∃ i, recordAt s s.pc = some i ∧ leastFree s (classOf (instrOpcode i)) = none := by
  cases hrec : recordAt s s.pc with
  | none => simp [stallOut_of_recordAt_eq_none hrec]
  | some i => simp [stallOut_of_recordAt_eq_some hrec]

theorem done_eq_true_iff {s : State} : done s = true ↔ ∀ y ∈ s.ts, y.wb ≠ 0 := by
  simp [done]

/-- Settles O31: the three outputs, each read by what it tests. -/
theorem cycleOutputs : Obligations.CycleOutputs := by
  intro s t o hf hrun
  obtain ⟨hstall, hdone, hfault⟩ := runCycle_outputs hf hrun
  rw [hstall, hdone]
  exact ⟨stallOut_eq_true_iff, done_eq_true_iff, hfault⟩

/-! ### The countdown phase (R140 to R145, 41_countdown) -/

/-- Settles O32: the condition of `counts` on the slot's view. -/
theorem timerCountsWhenReady : Obligations.TimerCountsWhenReady := by
  intro s u x hx
  refine ⟨x.countdown s.ts s.cycle, by rw [slotView_countdownPhase, hx, Option.map_some], ?_⟩
  rw [← counts_eq_true_iff]
  unfold SlotView.countdown
  split
  next hc =>
    obtain ⟨-, -, -, hpos⟩ := counts_eq_true_iff.1 hc
    exact ⟨rfl, rfl, rfl, fun _ => Nat.sub_add_cancel hpos, fun hno => absurd hc hno⟩
  next hno => exact ⟨rfl, rfl, rfl, fun hc => absurd hc hno, fun _ => rfl⟩

/-- The stamps after the phase differ in the execute-complete stamp alone. -/
theorem countdownPhase_ts_map (s : State) :
    (countdownPhase s).1.ts.map (fun y => { y with exec := 0 }) = s.ts.map (fun y => { y with exec := 0 }) := by
  refine List.ext_getElem? fun k => ?_
  rw [List.getElem?_map, List.getElem?_map, getElem?_countdownPhase_ts]
  split
  · rw [Option.map_map]
    rfl
  · rfl

/-- Settles O34: the phase maps every slot to one that differs in its timer alone. -/
theorem countdownWritesNothingElse : Obligations.CountdownWritesNothingElse := by
  intro s t
  have harith : ∀ l : List ArithSlot, (l.map (ArithSlot.countdown s.ts s.cycle)).map (fun x => { x with timer := 0 }) =
      l.map (fun x => { x with timer := 0 }) := fun l => by
    rw [List.map_map]
    refine List.map_congr_left fun x _ => ?_
    simp only [Function.comp, ArithSlot.countdown]
    split <;> rfl
  have hload : ∀ l : List LoadSlot, (l.map (LoadSlot.countdown s.ts s.cycle)).map (fun x => { x with timer := 0 }) =
      l.map (fun x => { x with timer := 0 }) := fun l => by
    rw [List.map_map]
    refine List.map_congr_left fun x _ => ?_
    simp only [Function.comp, LoadSlot.countdown]
    split <;> rfl
  have hstore : ∀ l : List StoreSlot, (l.map (StoreSlot.countdown s.ts s.cycle)).map (fun x => { x with timer := 0 }) =
      l.map (fun x => { x with timer := 0 }) := fun l => by
    rw [List.map_map]
    refine List.map_congr_left fun x _ => ?_
    simp only [Function.comp, StoreSlot.countdown]
    split <;> rfl
  have ht : t = { decrementTimers s with ts := t.ts } := countdownPhase_eq s
  rw [ht]
  exact ⟨rfl, rfl, rfl, rfl, rfl, rfl, rfl, rfl, harith s.add, harith s.mul, hload s.load, hstore s.store,
    countdownPhase_ts_map s⟩

/-! ### The results (R160, 42_writeback_broadcast; R200 to R203, 44_arith_instructions) -/

/-- Settles O35: the row of DIVD by its test for a zero divisor. -/
theorem aluRows : Obligations.AluRows := by
  refine fun n a b => ⟨rfl, rfl, rfl, fun hz => ?_, fun hz => ?_⟩ <;> simp [alu, resultDivd, hz]

/-- The rows that every domain fixes (R11, 00_scope). -/
theorem alu_fixed_results (n : Num) :
    alu n .subd 6 3 = some 3 ∧ alu n .multd 6 3 = some 18 ∧ alu n .divd 6 3 = some 2 ∧ alu n .divd 6 0 = some 0 := by
  cases n with
  | q =>
    simp only [alu, resultSubd, resultMultd, resultDivd, numSub, numMul, numDiv, numIsZero]
    norm_num
  | other d => simp [alu, resultSubd, resultMultd, resultDivd, numSub, numMul, numDiv, numIsZero]

/-- Settles O36: under `NUM_Q` the quotient by a non-zero divisor is the rational one. -/
theorem numericResults : Obligations.NumericResults := by
  refine ⟨alu_fixed_results, fun a b => ⟨rfl, rfl, rfl, fun hb => ⟨a / b, ?_, div_mul_cancel₀ a hb⟩, ?_⟩⟩ <;>
    simp [alu, resultDivd, numIsZero, numDiv, *]

/-! ### One transaction (R164 to R168, R170, 42_writeback_broadcast) -/

@[simp] theorem Entry.forward_value (t : Tag) (v w : Val) : Entry.forward t v (.value w) = .value w := rfl

@[simp] theorem Entry.forward_tag_self (t : Tag) (v : Val) : Entry.forward t v (.tag t) = .value v := if_pos rfl

theorem Entry.forward_tag_of_ne {t u : Tag} (v : Val) (h : u ≠ t) : Entry.forward t v (.tag u) = .tag u := if_neg h

/-- A comparator whose tag is not held changes nothing. -/
theorem Entry.forward_of_ne {t : Tag} {e : Entry} (v : Val) (h : e ≠ .tag t) : e.forward t v = e := by
  cases e with
  | value w => rfl
  | tag u => exact Entry.forward_tag_of_ne v fun hu => h (hu ▸ rfl)

theorem ArithSlot.forward_of_not_busy {x : ArithSlot} (t : Tag) (v : Val) (h : x.busy = false) : x.forward t v = x := by
  simp [ArithSlot.forward, h]

theorem StoreSlot.forward_of_not_busy {x : StoreSlot} (t : Tag) (v : Val) (h : x.busy = false) : x.forward t v = x := by
  simp [StoreSlot.forward, h]

/-- Settles O37: one case for each row. -/
theorem comparatorTruthTable : Obligations.ComparatorTruthTable :=
  fun t v => ⟨Entry.forward_value t v, Entry.forward_tag_self t v, fun _ => Entry.forward_tag_of_ne v,
    fun _ => ArithSlot.forward_of_not_busy t v, fun _ => StoreSlot.forward_of_not_busy t v⟩

/-- Settles O38: a register is forwarded, and so is each operand register of a busy slot. -/
theorem broadcastReachesEveryHolder : Obligations.BroadcastReachesEveryHolder := by
  intro t v s
  have harith : ∀ l : List ArithSlot, (l.map (ArithSlot.forward t v)).map (fun x => { x with j := .value 0, k := .value 0 }) =
      l.map (fun x => { x with j := .value 0, k := .value 0 }) := fun l => by
    rw [List.map_map]
    refine List.map_congr_left fun x _ => ?_
    simp only [Function.comp, ArithSlot.forward]
    split <;> rfl
  have hstore : ∀ l : List StoreSlot, (l.map (StoreSlot.forward t v)).map (fun x => { x with j := .value 0 }) =
      l.map (fun x => { x with j := .value 0 }) := fun l => by
    rw [List.map_map]
    refine List.map_congr_left fun x _ => ?_
    simp only [Function.comp, StoreSlot.forward]
    split <;> rfl
  refine ⟨fun q hq => ?_, fun q hq => ?_, fun u x hx n e he => ⟨?_, fun hno => ?_⟩, harith s.add, harith s.mul,
    hstore s.store, List.length_map _, List.length_map _, rfl, rfl, rfl, rfl, rfl, rfl, rfl, rfl⟩
  · rw [readReg_broadcast, hq, Option.map_some, Entry.forward_tag_self]
  · rw [readReg_broadcast]
    cases he : readReg s q with
    | none => rfl
    | some e => rw [Option.map_some, Entry.forward_of_ne v fun h => hq (he.trans (congrArg some h))]
  · rintro ⟨hbusy, rfl⟩
    rw [slotOperands_broadcast hx, if_pos hbusy, List.getElem?_map, he, Option.map_some, Entry.forward_tag_self]
  · rw [slotOperands_broadcast hx]
    split
    next hbusy => rw [List.getElem?_map, he, Option.map_some, Entry.forward_of_ne v fun h => hno ⟨hbusy, h⟩]
    next => exact he

/-- Two comparators of different tags commute: an entry holds at most one of them. -/
theorem Entry.forward_comm {t u : Tag} (v w : Val) (h : t ≠ u) (e : Entry) :
    (e.forward u w).forward t v = (e.forward t v).forward u w := by
  cases e with
  | value a => rfl
  | tag r =>
    by_cases hr : r = u
    · subst hr
      simp [Entry.forward_tag_of_ne v h.symm]
    · rw [Entry.forward_tag_of_ne w hr]
      exact (Entry.forward_of_ne w (by by_cases hrt : r = t <;> simp [Entry.forward, hrt, hr])).symm

theorem ArithSlot.forward_comm {t u : Tag} (v w : Val) (h : t ≠ u) (x : ArithSlot) :
    (x.forward u w).forward t v = (x.forward t v).forward u w := by
  cases hb : x.busy <;> simp [ArithSlot.forward, hb, Entry.forward_comm v w h]

theorem StoreSlot.forward_comm {t u : Tag} (v w : Val) (h : t ≠ u) (x : StoreSlot) :
    (x.forward u w).forward t v = (x.forward t v).forward u w := by
  cases hb : x.busy <;> simp [StoreSlot.forward, hb, Entry.forward_comm v w h]

/-- Settles O39: the comparators of each register and each operand register commute. -/
theorem transactionsCommute : Obligations.TransactionsCommute := by
  intro t u v w s h
  simp only [broadcast, List.map_map, Function.comp_def, Entry.forward_comm v w h, ArithSlot.forward_comm v w h,
    StoreSlot.forward_comm v w h]

/-! ### One access to the memory (R63, 20_memory) -/

/-- Settles O50: the laws of reads after writes, inside the array. -/
theorem memoryPrimitives : Obligations.MemoryPrimitives := by
  refine fun s a v hwf => ⟨fun ha => ?_, fun ha => ?_⟩
  · refine ⟨if_pos ha, { s with mem := Memory.write s.mem a v }, if_pos ha, ?_, fun b hb => ?_, rfl,
      Memory.wf_write a v hwf⟩
    · simp [memRead, ha, Memory.read_write_same a v hwf]
    · simp [memRead, Memory.read_write_other v hb]
  · simp [memRead, memWrite, Nat.not_lt.2 ha]

/-! ### The parameters (R29, R41, 10_state) -/

theorem budgetCheck_cfg (s : State) : (budgetCheck s).cfg = s.cfg := by
  obtain h | ⟨m, -, -, -, -, h⟩ := budgetCheck_cases s <;> simp [h]

theorem budgetCheck_prog (s : State) : (budgetCheck s).prog = s.prog := by
  obtain h | ⟨m, -, -, -, -, h⟩ := budgetCheck_cases s <;> simp [h]

theorem countdownPhase_cfg (s : State) : (countdownPhase s).1.cfg = s.cfg := by
  rw [countdownPhase_eq]
  rfl

theorem countdownPhase_prog (s : State) : (countdownPhase s).1.prog = s.prog := by
  rw [countdownPhase_eq]
  rfl

/-- Settles O29: no phase of a step writes either. -/
theorem stepKeepsParameters : Obligations.StepKeepsParameters := by
  intro s t h
  obtain ⟨-, rfl⟩ | ⟨-, s1, p, hissue, hp, rfl⟩ := step_eq_next h
  · exact ⟨rfl, rfl⟩
  · have hi := issuePhase_keeps hissue
    have hw := writebackList_keeps hp
    rw [budgetCheck_cfg, budgetCheck_prog, hw.cfg, hw.prog, countdownPhase_cfg, countdownPhase_prog, hi.cfg, hi.prog]
    exact ⟨rfl, rfl⟩

end Sys2Proof.Machine
end

section
/-! SUPPORT. The write-back scan in closed form (R156 to R166, 42_writeback_broadcast): what it puts on the bus, what it
stores, and every field after it. -/

namespace Sys2Proof.Machine

/-! ### Several transactions, one after the other -/

/-- An entry after the transactions of a bus trace (R164 to R166, 42_writeback_broadcast). -/
def Entry.settle (cdb : List Txn) (e : Entry) : Entry := cdb.foldl (fun e p => e.forward p.1 p.2) e

/-- A slot after the transactions of a bus trace. -/
def Slot.settle (cdb : List Txn) (x : Slot) : Slot := cdb.foldl (fun x p => x.forward p.1 p.2) x

theorem Entry.settle_append (c d : List Txn) (e : Entry) : e.settle (c ++ d) = (e.settle c).settle d :=
  List.foldl_append

theorem Slot.settle_append (c d : List Txn) (x : Slot) : x.settle (c ++ d) = (x.settle c).settle d :=
  List.foldl_append

@[simp] theorem Entry.settle_value (cdb : List Txn) (v : Val) : Entry.settle cdb (.value v) = .value v := by
  induction cdb with
  | nil => rfl
  | cons p cdb ih => exact ih

/-- Only an entry that held a tag holds one afterwards, and the tag was not on the bus. -/
theorem Entry.settle_eq_tag {cdb : List Txn} {e : Entry} {u : Tag} (h : e.settle cdb = .tag u) :
    e = .tag u ∧ u ∉ cdb.map Prod.fst := by
  induction cdb generalizing e with
  | nil => exact ⟨h, List.not_mem_nil⟩
  | cons p cdb ih =>
    obtain ⟨hfwd, hno⟩ := ih h
    dsimp only at hfwd
    cases e with
    | value v => cases hfwd
    | tag w =>
      by_cases hw : w = p.1
      · simp [Entry.forward, hw] at hfwd
      · rw [Entry.forward_tag_of_ne _ hw] at hfwd
        cases hfwd
        exact ⟨rfl, by simp [hw, hno]⟩

theorem Entry.settle_tag_of_notMem {cdb : List Txn} {u : Tag} (h : u ∉ cdb.map Prod.fst) :
    Entry.settle cdb (.tag u) = .tag u := by
  induction cdb with
  | nil => rfl
  | cons p cdb ih =>
    simp only [List.map_cons, List.mem_cons, not_or] at h
    show Entry.settle cdb ((Entry.tag u).forward p.1 p.2) = .tag u
    rw [Entry.forward_tag_of_ne _ h.1, ih h.2]

/-- A tag that is on the bus once is resolved to its value. -/
theorem Entry.settle_tag_of_mem {cdb : List Txn} {u : Tag} {v : Val} (hnodup : (cdb.map Prod.fst).Nodup)
    (h : (u, v) ∈ cdb) : Entry.settle cdb (.tag u) = .value v := by
  induction cdb with
  | nil => cases h
  | cons p cdb ih =>
    obtain ⟨hp, hnodup⟩ := List.nodup_cons.1 hnodup
    show Entry.settle cdb ((Entry.tag u).forward p.1 p.2) = .value v
    obtain rfl | h := List.mem_cons.1 h
    · rw [Entry.forward_tag_self, Entry.settle_value]
    · have hne : u ≠ p.1 := by
        rintro rfl
        exact hp (List.mem_map.2 ⟨_, h, rfl⟩)
      rw [Entry.forward_tag_of_ne _ hne, ih hnodup h]

theorem SlotView.eq_of_fields {x y : SlotView} (hb : x.busy = y.busy) (hr : x.ready = y.ready) (ht : x.timer = y.timer)
    (ho : x.owner = y.owner) : x = y := by
  cases x
  cases y
  simp_all

namespace Slot

theorem settle_reads (cdb : List Txn) (x : Slot) :
    (x.settle cdb).view.busy = x.view.busy ∧ (x.settle cdb).view.timer = x.view.timer ∧
      (x.settle cdb).view.owner = x.view.owner ∧ (x.settle cdb).label = x.label ∧
      (x.settle cdb).operands = if x.view.busy then x.operands.map (Entry.settle cdb) else x.operands := by
  induction cdb generalizing x with
  | nil =>
    have hid : Entry.settle [] = id := rfl
    simp [settle, hid]
  | cons p cdb ih =>
    obtain ⟨hb, ht, ho, hl, hops⟩ := ih (x.forward p.1 p.2)
    rw [busy_forward] at hb hops
    rw [timer_forward] at ht
    rw [owner_forward] at ho
    rw [label_forward] at hl
    refine ⟨hb, ht, ho, hl, hops.trans ?_⟩
    cases hbusy : x.view.busy <;> simp [operands_forward, hbusy, Entry.settle]

@[simp] theorem busy_settle (cdb : List Txn) (x : Slot) : (x.settle cdb).view.busy = x.view.busy :=
  (settle_reads cdb x).1

@[simp] theorem timer_settle (cdb : List Txn) (x : Slot) : (x.settle cdb).view.timer = x.view.timer :=
  (settle_reads cdb x).2.1

@[simp] theorem owner_settle (cdb : List Txn) (x : Slot) : (x.settle cdb).view.owner = x.view.owner :=
  (settle_reads cdb x).2.2.1

@[simp] theorem label_settle (cdb : List Txn) (x : Slot) : (x.settle cdb).label = x.label :=
  (settle_reads cdb x).2.2.2.1

theorem operands_settle (cdb : List Txn) (x : Slot) :
    (x.settle cdb).operands = if x.view.busy then x.operands.map (Entry.settle cdb) else x.operands :=
  (settle_reads cdb x).2.2.2.2

/-- A slot that is free, or whose operand registers all hold values, takes nothing off the bus. -/
theorem settle_eq_self (cdb : List Txn) {x : Slot} (h : x.view.busy = false ∨ x.view.ready = true) :
    x.settle cdb = x := by
  have hops : (x.settle cdb).operands = x.operands := by
    rw [operands_settle]
    split
    next hb =>
      have hready := h.resolve_left (by simp [hb])
      rw [view_ready, List.all_eq_true] at hready
      refine (List.map_congr_left fun e he => ?_).trans (List.map_id _)
      cases e with
      | value v => exact Entry.settle_value cdb v
      | tag u => cases hready _ he
    next => rfl
  refine ext_of_reads ?_ hops (label_settle cdb x)
  have hready : (x.settle cdb).view.ready = x.view.ready := by rw [view_ready, view_ready, hops]
  exact SlotView.eq_of_fields (busy_settle cdb x) hready (timer_settle cdb x) (owner_settle cdb x)

/-! ### What a slot writes back -/

/-- What the write-back of the slot puts on the bus (R160, R161, 42_writeback_broadcast); none for a store slot. -/
def result (n : Num) (m : Memory) : Slot → Option Val
  | arith x => match x.j, x.k with
    | .value a, .value b => alu n x.op a b
    | _, _ => none
  | load x => some (Memory.read m x.addr)
  | store _ => none

/-- The cell that the write-back of the slot sets (R162, 42_writeback_broadcast); none but for a store slot. -/
def stored : Slot → Option (Nat × Val)
  | store x => match x.j with
    | .value v => some (x.addr, v)
    | .tag _ => none
  | arith _ => none
  | load _ => none

/-- The write-back of the slot stops for no reason: its operands are values, its opcode has a row in `alu`, its
address is one of the array. -/
def WritesBack (cfg : Config) : Slot → Prop
  | arith x => ∃ a b v, x.j = .value a ∧ x.k = .value b ∧ alu cfg.num x.op a b = some v
  | load x => x.addr < cfg.memSize
  | store x => ∃ v, x.j = .value v ∧ x.addr < cfg.memSize

theorem WritesBack.ready {cfg : Config} {x : Slot} (h : x.WritesBack cfg) : x.view.ready = true := by
  cases x with
  | arith x =>
    obtain ⟨a, b, v, hj, hk, -⟩ := h
    simp [view, ArithSlot.view, ArithSlot.ready, hj, hk, Entry.isVal]
  | load x => rfl
  | store x =>
    obtain ⟨v, hj, -⟩ := h
    simp [view, StoreSlot.view, StoreSlot.ready, hj, Entry.isVal]

/-- The write-back of the slot with tag `u`. -/
def writeback (u : Tag) (s : State) : Slot → Host.Outcome (State × List Txn) Fault Refusal
  | arith x => writebackArith u x s
  | load x => writebackLoad u x s
  | store x => writebackStore u x s

end Slot

theorem writebackSlot_of_slotAt {s : State} {u : Tag} {x : Slot} (h : slotAt s u = some x) :
    writebackSlot u s = x.writeback u s := by
  obtain ⟨p, r⟩ := u
  cases p <;>
    · simp only [slotAt, Option.map_eq_some_iff] at h
      obtain ⟨y, hy, rfl⟩ := h
      simp only [writebackSlot, hy]
      rfl

/-- The transaction of the slot of a tag. -/
def busOf (s : State) (u : Tag) : Option Txn :=
  (slotAt s u).bind fun x => (x.result s.cfg.num s.mem).map fun v => (u, v)

/-- The cell and value that the slot of a tag stores. -/
def storedOf (s : State) (u : Tag) : Option (Nat × Val) := (slotAt s u).bind Slot.stored

/-- The memory after several writes. -/
def Memory.writes (m : Memory) (l : List (Nat × Val)) : Memory := l.foldl (fun m c => Memory.write m c.1 c.2) m

/-- Everything the scan of the slots `l` does: each of them freed, its owner stamped, its transaction on the bus and
in every other holder, its value in its cell. -/
structure Scanned (l : List Tag) (s t : State) (cdb : List Txn) : Prop where
  slots : ∀ u, slotAt t u = (slotAt s u).map fun x => if u ∈ l then x.free else x.settle cdb
  registers : ∀ q, readReg t q = (readReg s q).map (Entry.settle cdb)
  stamps : ∀ k, t.ts[k]? =
    if ∃ u ∈ l, ownerOf s u = some k then s.ts[k]?.map (fun y => { y with wb := s.cycle }) else s.ts[k]?
  mem : t.mem = Memory.writes s.mem (l.filterMap (storedOf s))
  bus : cdb = l.filterMap (busOf s)
  fault : t.fault = s.fault

/-! ### One write-back -/

theorem getElem?_retire_ts (u : Tag) (m k : Nat) (s : State) :
    (retire u m s).ts[k]? = if m = k then s.ts[k]?.map (fun y => { y with wb := s.cycle }) else s.ts[k]? := by
  rw [retire_ts, List.getElem?_modify]
  split <;> simp

theorem ownerOf_of_slotAt {s : State} {u : Tag} {x : Slot} (h : slotAt s u = some x) :
    ownerOf s u = some x.view.owner := by
  rw [ownerOf, slotView_of_slotAt h, Option.map_some]

/-- The scan of one slot whose result goes on the bus. -/
theorem scanned_broadcast {s : State} {u : Tag} {x : Slot} {v : Val} (hx : slotAt s u = some x)
    (hres : x.result s.cfg.num s.mem = some v) (hst : x.stored = none) :
    Scanned [u] s (broadcast u v (retire u x.view.owner s)) [(u, v)] where
  slots w := by
    rw [slotAt_broadcast, slotAt_retire, Option.map_map]
    refine congrArg (Option.map · (slotAt s w)) (funext fun y => ?_)
    by_cases hw : w = u
    · have hfree : y.free.forward u v = y.free := y.free.settle_eq_self [(u, v)] (.inl (by simp))
      simp [hw, hfree]
    · simp [hw, Slot.settle]
  registers q := by
    rw [readReg_broadcast, readReg_congr (s := s) (by simp) (by simp)]
    rfl
  stamps k := by simp [-retire_ts, getElem?_retire_ts, ownerOf_of_slotAt hx]
  mem := by simp [storedOf, hx, hst, Memory.writes]
  bus := by simp [busOf, hx, hres]
  fault := by simp

/-- The scan of one slot that stores. -/
theorem scanned_store {s : State} {u : Tag} {x : Slot} {c : Nat × Val} (hx : slotAt s u = some x)
    (hres : x.result s.cfg.num s.mem = none) (hst : x.stored = some c) :
    Scanned [u] s { retire u x.view.owner s with mem := Memory.write s.mem c.1 c.2 } [] where
  slots w := by
    have hmem : slotAt { retire u x.view.owner s with mem := Memory.write s.mem c.1 c.2 } w =
        slotAt (retire u x.view.owner s) w := slotAt_congr rfl rfl rfl rfl w
    rw [hmem, slotAt_retire]
    simp [Slot.settle]
  registers q := by
    rw [readReg_congr (s := s) (by simp) (by simp)]
    exact Option.map_id'.symm
  stamps k := by simp [-retire_ts, getElem?_retire_ts, ownerOf_of_slotAt hx]
  mem := by simp [storedOf, hx, hst, Memory.writes]
  bus := by simp [busOf, hx, hres]
  fault := by simp

/-- A slot that can write back does. -/
theorem writebackSlot_of_writesBack {s : State} {u : Tag} {x : Slot} (hx : slotAt s u = some x)
    (h : x.WritesBack s.cfg) : ∃ p, writebackSlot u s = .next p ∧ Scanned [u] s p.1 p.2 := by
  rw [writebackSlot_of_slotAt hx]
  cases x with
  | arith x =>
    obtain ⟨a, b, v, hj, hk, hv⟩ := h
    have hw : writebackArith u x s = .next (broadcast u v (retire u x.owner s), [(u, v)]) := by
      simp only [writebackArith, hj, hk, hv]
    exact ⟨_, hw, scanned_broadcast hx (by simp [Slot.result, hj, hk, hv]) rfl⟩
  | load x =>
    have ha : x.addr < s.cfg.memSize := h
    have hw : writebackLoad u x s = .next (broadcast u (Memory.read s.mem x.addr) (retire u x.owner s),
        [(u, Memory.read s.mem x.addr)]) := by
      simp only [writebackLoad, memRead, retire_cfg, retire_mem, if_pos ha]
    exact ⟨_, hw, scanned_broadcast hx rfl rfl⟩
  | store x =>
    obtain ⟨v, hj, ha⟩ := h
    have hw : writebackStore u x s = .next ({ retire u x.owner s with mem := Memory.write s.mem x.addr v }, []) := by
      simp only [writebackStore, memWrite, hj, retire_cfg, retire_mem, if_pos ha]
    exact ⟨_, hw, scanned_store (c := (x.addr, v)) hx rfl (by simp [Slot.stored, hj])⟩

/-- A ready slot whose write-back does not stop can write back. -/
theorem writesBack_of_writebackSlot {s : State} {u : Tag} {x : Slot} {p : State × List Txn} (hx : slotAt s u = some x)
    (hready : x.view.ready = true) (h : writebackSlot u s = .next p) : x.WritesBack s.cfg := by
  rw [writebackSlot_of_slotAt hx] at h
  cases x with
  | arith x =>
    obtain ⟨a, b, v, hj, hk, hv, -⟩ | ⟨hno, -⟩ := writebackArith_eq_next h
    · exact ⟨a, b, v, hj, hk, hv⟩
    · exact absurd (hno.symm.trans hready) Bool.false_ne_true
  | load x => exact (writebackLoad_eq_next h).1
  | store x =>
    obtain ⟨v, hj, ha, -⟩ | ⟨hno, -⟩ := writebackStore_eq_next h
    · exact ⟨v, hj, ha⟩
    · exact absurd (hno.symm.trans hready) Bool.false_ne_true

/-- A slot that is not ready latches the operand-kind violation, and nothing else happens (R158,
42_writeback_broadcast). -/
theorem writebackSlot_of_not_ready {s : State} {u : Tag} {x : Slot} (hx : slotAt s u = some x)
    (h : x.view.ready = false) : writebackSlot u s = .next (raiseFault s (.operandKind u x.view.owner), []) := by
  rw [writebackSlot_of_slotAt hx]
  cases x with
  | arith x =>
    simp only [Slot.writeback, writebackArith]
    split
    next hj hk => simp [Slot.view, ArithSlot.view, ArithSlot.ready, hj, hk, Entry.isVal] at h
    next => rfl
  | load x => cases h
  | store x =>
    simp only [Slot.writeback, writebackStore]
    split
    next hj => simp [Slot.view, StoreSlot.view, StoreSlot.ready, hj, Entry.isVal] at h
    next => rfl

/-- Settles O40: the fault is latched by the first slot of the scan, which ends it. -/
theorem operandKindCheckLatches : Obligations.OperandKindCheckLatches := by
  intro s u x rest hx hready
  obtain ⟨y, hy, rfl⟩ := slotView_eq_some_iff.1 hx
  rw [writebackList, writebackSlot_of_not_ready hy hready, andThen_next]
  exact if_pos rfl

/-! ### The scan -/

/-- The write-backs of loads come before those of stores, as in the scan order (R157, 42_writeback_broadcast). -/
def LoadsFirst (l : List Tag) : Prop := l.Pairwise fun u w => u.pool = .store → w.pool ≠ .load

theorem busOf_congr {s t : State} {u : Tag} (hslot : slotAt t u = slotAt s u) (hcfg : t.cfg = s.cfg)
    (hmem : u.pool = .load → t.mem = s.mem) : busOf t u = busOf s u := by
  rw [busOf, busOf, hslot, hcfg]
  cases hx : slotAt s u with
  | none => rfl
  | some x =>
    cases x with
    | arith x => rfl
    | load x => rw [hmem (pool_of_slotAt_load hx)]
    | store x => rfl

theorem storedOf_eq_none_of_pool_ne {s : State} {u : Tag} (h : u.pool ≠ .store) : storedOf s u = none := by
  rw [storedOf]
  cases hx : slotAt s u with
  | none => rfl
  | some x =>
    cases x with
    | arith x => rfl
    | load x => rfl
    | store x => exact absurd (pool_of_slotAt_store hx) h

/-- The other slots of the scan are as before after the first one's write-back: they are ready. -/
theorem Scanned.slotAt_of_ready {s t : State} {u w : Tag} {cdb : List Txn} {x : Slot} (h : Scanned [u] s t cdb)
    (hne : w ≠ u) (hx : slotAt s w = some x) (hready : x.view.ready = true) : slotAt t w = some x := by
  rw [h.slots, hx, Option.map_some, if_neg (by simpa using hne), x.settle_eq_self cdb (.inr hready)]

/-- The scan of a first slot and of the others make the scan of all. -/
theorem Scanned.cons {s t r : State} {u : Tag} {l : List Tag} {c d : List Txn} (hu : u ∉ l)
    (hready : ∀ w ∈ l, ∃ x, slotAt s w = some x ∧ x.view.ready = true)
    (hload : ∀ w ∈ l, u.pool = .store → w.pool ≠ .load) (hkeeps : WritebackKeeps s t) (howner : ∀ w, ownerOf t w = ownerOf s w)
    (h : Scanned [u] s t c) (g : Scanned l t r d) : Scanned (u :: l) s r (c ++ d) := by
  have hslot : ∀ w ∈ l, slotAt t w = slotAt s w := fun w hw => by
    obtain ⟨x, hx, hr⟩ := hready w hw
    rw [hx]
    exact h.slotAt_of_ready (fun he => hu (he ▸ hw)) hx hr
  have hmem : ∀ w ∈ l, w.pool = .load → t.mem = s.mem := fun w hw hl => by
    have hns : storedOf s u = none := storedOf_eq_none_of_pool_ne fun hs => hload w hw hs hl
    simp [h.mem, hns, Memory.writes]
  have hbus : l.filterMap (busOf t) = l.filterMap (busOf s) :=
    List.filterMap_congr fun w hw => busOf_congr (hslot w hw) hkeeps.cfg (hmem w hw)
  have hst : l.filterMap (storedOf t) = l.filterMap (storedOf s) :=
    List.filterMap_congr fun w hw => by rw [storedOf, storedOf, hslot w hw]
  exact {
    slots := fun w => by
      rw [g.slots, h.slots, Option.map_map]
      refine Option.map_congr fun x hx => ?_
      by_cases hwu : w = u
      · subst hwu
        simpa [hu] using x.free.settle_eq_self d (.inl (by simp))
      · by_cases hwl : w ∈ l
        · obtain ⟨y, hy, hr⟩ := hready w hwl
          cases hy.symm.trans hx
          simp [hwu, hwl, x.settle_eq_self c (.inr hr)]
        · simp [hwu, hwl, Slot.settle_append]
    registers := fun q => by
      rw [g.registers, h.registers, Option.map_map]
      refine Option.map_congr fun e _ => (Entry.settle_append c d e).symm
    stamps := fun k => by
      rw [g.stamps, h.stamps, hkeeps.cycle]
      simp only [howner, List.mem_cons, List.not_mem_nil, or_false, exists_eq_left, exists_eq_or_imp]
      by_cases h1 : ownerOf s u = some k <;> by_cases h2 : ∃ w ∈ l, ownerOf s w = some k <;>
        simp [h1, h2, Function.comp_def]
    mem := by
      have hsplit : (u :: l).filterMap (storedOf s) = [u].filterMap (storedOf s) ++ l.filterMap (storedOf s) :=
        List.filterMap_append (l := [u])
      rw [g.mem, h.mem, hst, hsplit]
      exact List.foldl_append.symm
    bus := by
      rw [h.bus, g.bus, hbus]
      exact (List.filterMap_append (l := [u])).symm
    fault := g.fault.trans h.fault }

/-- The scan of slots that can write back does not stop. -/
theorem writebackList_of_writesBack {l : List Tag} {s : State} (hnodup : l.Nodup) (hord : LoadsFirst l)
    (hf : s.fault = none) (h : ∀ u ∈ l, ∃ x, slotAt s u = some x ∧ x.WritesBack s.cfg) :
    ∃ q, writebackList l s = .next q ∧ Scanned l s q.1 q.2 := by
  induction l generalizing s with
  | nil =>
    refine ⟨(s, []), rfl, ⟨fun u => ?_, fun q => ?_, fun k => by simp, rfl, rfl, rfl⟩⟩
    · simp [Slot.settle]
    · exact Option.map_id'.symm
  | cons u l ih =>
    obtain ⟨hu, hnodup⟩ := List.nodup_cons.1 hnodup
    obtain ⟨hload, hord⟩ := List.pairwise_cons.1 hord
    obtain ⟨x, hx, hwb⟩ := h u List.mem_cons_self
    obtain ⟨p, hp, hscan⟩ := writebackSlot_of_writesBack hx hwb
    have hkeeps := writebackSlot_keeps hp
    have hpf : p.1.fault = none := hscan.fault.trans hf
    have hrest : ∀ w ∈ l, ∃ y, slotAt s w = some y ∧ y.WritesBack s.cfg := fun w hw => h w (List.mem_cons_of_mem u hw)
    obtain ⟨q, hq, hscan'⟩ := ih hnodup hord hpf fun w hw => by
      obtain ⟨y, hy, hwb⟩ := hrest w hw
      exact ⟨y, hscan.slotAt_of_ready (fun he => hu (he ▸ hw)) hy hwb.ready, hkeeps.cfg ▸ hwb⟩
    refine ⟨(q.1, p.2 ++ q.2), by simp [writebackList, hp, hpf, hq], ?_⟩
    exact hscan.cons hu (fun w hw => (hrest w hw).imp fun y hy => ⟨hy.1, hy.2.ready⟩) hload hkeeps
      (ownerOf_writebackSlot hp) hscan'

/-- The scan of ready slots that does not stop is one of slots that can write back. -/
theorem writesBack_of_writebackList {l : List Tag} {s : State} {q : State × List Txn} (hnodup : l.Nodup)
    (hf : s.fault = none) (hready : ∀ u ∈ l, ∃ x, slotAt s u = some x ∧ x.view.ready = true)
    (h : writebackList l s = .next q) : ∀ u ∈ l, ∃ x, slotAt s u = some x ∧ x.WritesBack s.cfg := by
  induction l generalizing s q with
  | nil => exact fun u hu => absurd hu List.not_mem_nil
  | cons u l ih =>
    obtain ⟨hu, hnodup⟩ := List.nodup_cons.1 hnodup
    obtain ⟨x, hx, hr⟩ := hready u List.mem_cons_self
    obtain ⟨p, hp, hrest⟩ := writebackList_cons_eq_next h
    have hwb := writesBack_of_writebackSlot hx hr hp
    obtain ⟨p', hp', hscan⟩ := writebackSlot_of_writesBack hx hwb
    cases hp.symm.trans hp'
    have hpf : p.1.fault = none := hscan.fault.trans hf
    obtain ⟨hsome, -⟩ | ⟨-, q', hq', -⟩ := hrest
    · simp [hpf] at hsome
    have hslot : ∀ w ∈ l, ∃ y, slotAt s w = some y ∧ slotAt p.1 w = some y ∧ y.view.ready = true := fun w hw => by
      obtain ⟨y, hy, hr⟩ := hready w (List.mem_cons_of_mem u hw)
      exact ⟨y, hy, hscan.slotAt_of_ready (fun he => hu (he ▸ hw)) hy hr, hr⟩
    have htail := ih hnodup hpf (fun w hw => (hslot w hw).imp fun y hy => hy.2) hq'
    intro w hw
    obtain rfl | hw := List.mem_cons.1 hw
    · exact ⟨x, hx, hwb⟩
    · obtain ⟨y, hy, hy', -⟩ := hslot w hw
      obtain ⟨z, hz, hwbz⟩ := htail w hw
      cases hz.symm.trans hy'
      exact ⟨y, hy, (writebackSlot_keeps hp).cfg ▸ hwbz⟩

/-! ### The eligible slots -/

theorem nodup_eligible (s : State) : (eligible s).Nodup := (nodup_scanOrder s).filter _

/-- The store slots come last in the scan order, by increasing rank (R157, 42_writeback_broadcast). -/
theorem storesLast_scanOrder (s : State) :
    (scanOrder s).Pairwise fun u w => u.pool = .store → w.pool = .store ∧ u.rank < w.rank := by
  have hpool : ∀ {p : Pool} {n : Nat}, ∀ u ∈ (List.range n).map (fun i => ({ pool := p, rank := i } : Tag)), u.pool = p := by
    intro p n u hu
    obtain ⟨i, -, rfl⟩ := List.mem_map.1 hu
    rfl
  have hsame : ∀ (p : Pool) (n : Nat), ((List.range n).map (fun i => ({ pool := p, rank := i } : Tag))).Pairwise
      fun u w => u.pool = .store → w.pool = .store ∧ u.rank < w.rank := fun p n =>
    List.pairwise_map.2 (List.pairwise_lt_range.imp fun hlt hp => ⟨hp, hlt⟩)
  unfold scanOrder
  simp only [List.pairwise_append, List.mem_append]
  refine ⟨⟨⟨hsame .add _, hsame .mul _, ?_⟩, hsame .load _, ?_⟩, hsame .store _, ?_⟩
  · intro u hu w _ hs
    simp [hpool u hu] at hs
  · rintro u (hu | hu) w _ hs <;> simp [hpool u hu] at hs
  · rintro u ((hu | hu) | hu) w _ hs <;> simp [hpool u hu] at hs

theorem loadsFirst_scanOrder (s : State) : LoadsFirst (scanOrder s) :=
  (storesLast_scanOrder s).imp fun h hs => by simp [(h hs).1]

theorem loadsFirst_eligible (s : State) : LoadsFirst (eligible s) := (loadsFirst_scanOrder s).filter _

/-- An eligible slot is ready, and the countdown leaves it so. -/
theorem ready_of_mem_eligible {s : State} {u : Tag} (h : u ∈ eligible s) :
    ∃ x, slotAt (countdownPhase s).1 u = some x ∧ x.view.ready = true := by
  obtain ⟨v, hv, hc⟩ := mem_eligible.1 h
  obtain ⟨x, hx, rfl⟩ := slotView_eq_some_iff.1 hv
  obtain ⟨-, -, hready, -⟩ := completes_eq_true_iff.1 hc
  refine ⟨x.countdown s.ts s.cycle, by rw [slotAt_countdownPhase, hx, Option.map_some], ?_⟩
  rw [Slot.view_ready, Slot.operands_countdown, ← Slot.view_ready, hready]

theorem countdownPhase_fault (s : State) : (countdownPhase s).1.fault = s.fault := by
  rw [countdownPhase_eq]
  rfl

/-- The write-back phase of a step (R156, 42_writeback_broadcast): its slots can write back, and it is their scan. -/
theorem scanned_of_writebackList {s : State} {q : State × List Txn} (hf : s.fault = none)
    (h : writebackList (eligible s) (countdownPhase s).1 = .next q) :
    Scanned (eligible s) (countdownPhase s).1 q.1 q.2 ∧
      ∀ u ∈ eligible s, ∃ x, slotAt (countdownPhase s).1 u = some x ∧ x.WritesBack s.cfg := by
  have hcf := (countdownPhase_fault s).trans hf
  have hwb := writesBack_of_writebackList (nodup_eligible s) hcf (fun u => ready_of_mem_eligible) h
  obtain ⟨q', hq', hscan⟩ := writebackList_of_writesBack (nodup_eligible s) (loadsFirst_eligible s) hcf hwb
  cases h.symm.trans hq'
  exact ⟨hscan, countdownPhase_cfg s ▸ hwb⟩

end Sys2Proof.Machine
end

section
/-! SUPPORT. One step as a whole (R185, 43_cycle_driver): the fault it can latch, and, under the invariants, every field
after it in terms of the state before. -/

namespace Sys2Proof.Machine

/-! ### From any state -/

/-- One cycle with no fault latched: the issue phase, the countdown, the scan of the eligible slots, the budget test. -/
theorem runCycle_scans {s t : State} {o : StepOut} (hf : s.fault = none) (h : runCycle s = .next (t, o)) :
    ∃ s1 s2, issuePhase (advanceCycle s) = .next s1 ∧ s1.fault = none ∧
      WritebackKeeps (countdownPhase s1).1 s2 ∧ Scanned (eligible s1) (countdownPhase s1).1 s2 o.cdb ∧
      (∀ u ∈ eligible s1, ∃ x, slotAt (countdownPhase s1).1 u = some x ∧ x.WritesBack s1.cfg) ∧ t = budgetCheck s2 := by
  obtain ⟨hsome, -⟩ | ⟨-, s1, p, hissue, hafter, hq⟩ := runCycle_eq_next h
  · simp [hf] at hsome
  · obtain ⟨q, hlist, rfl⟩ := afterIssue_eq_next hafter
    cases hq
    have hf1 : s1.fault = none := (issuePhase_keeps hissue).fault.trans hf
    obtain ⟨hscan, hwb⟩ := scanned_of_writebackList hf1 hlist
    exact ⟨s1, q.1, hissue, hf1, writebackList_keeps hlist, hscan, hwb, rfl⟩

theorem step_eq_next_iff {s t : State} : step s = .next t ↔ ∃ o, runCycle s = .next (t, o) := by
  rw [step, dropOutputs, andThen_eq_next]
  constructor
  · rintro ⟨⟨t', o⟩, h, ht⟩
    cases ht
    exact ⟨o, h⟩
  · rintro ⟨o, h⟩
    exact ⟨_, h, rfl⟩

theorem done_budgetCheck (s : State) : done (budgetCheck s) = done s := by
  rw [done, budgetCheck_ts, done]

/-- The fault of a step is the budget's (R189, 43_cycle_driver). -/
theorem step_fault {s t : State} (hf : s.fault = none) (h : step s = .next t) :
    t.fault = s.cfg.maxCycles.elim none fun m =>
      if m ≤ s.cycle + 1 ∧ done t = false then some (.nonTermination (s.cycle + 1)) else none := by
  obtain ⟨o, hrun⟩ := step_eq_next_iff.1 h
  obtain ⟨s1, s2, hissue, hf1, hkeeps, hscan, -, rfl⟩ := runCycle_scans hf hrun
  have hi := issuePhase_keeps hissue
  have hf2 : s2.fault = none := hscan.fault.trans ((countdownPhase_fault s1).trans hf1)
  have hcfg : s2.cfg = s.cfg := hkeeps.cfg.trans ((countdownPhase_cfg s1).trans hi.cfg)
  have hcycle : s2.cycle = s.cycle + 1 := hkeeps.cycle.trans ((countdownPhase_cycle s1).trans hi.cycle)
  rw [done_budgetCheck, budgetCheck, hcfg, hcycle]
  cases s.cfg.maxCycles with
  | none => exact hf2
  | some m =>
    simp only [hf2, true_and, Option.elim_some]
    split
    · simp
    · exact hf2

/-- Settles O52: the two branches of the budget test. -/
theorem budgetLatchesNonTermination : Obligations.BudgetLatchesNonTermination := by
  intro s t hf hstep
  have hfault := step_fault hf hstep
  refine ⟨fun hm => ?_, fun m hm => ⟨fun hlatch => ?_, fun hno => ?_⟩⟩
  · rw [hfault, hm, Option.elim_none]
  · rw [hfault, hm, Option.elim_some, if_pos hlatch]
  · rw [hfault, hm, Option.elim_some, if_neg hno]

/-- Settles O41: only ready slots are scanned, so the one fault a step can latch is the budget's. -/
theorem noStepRaisesOperandKind : Obligations.NoStepRaisesOperandKind := by
  intro s t u k hf hstep
  rw [step_fault hf hstep]
  cases s.cfg.maxCycles with
  | none => simp
  | some m =>
    rw [Option.elim_some]
    split <;> simp

/-! ### The slot that the next step allocates -/

/-- The record at `pc` and the rank its issue takes, where there are both (R113, 40_issue). -/
def allocNext (s : State) : Option (Instr × Nat) :=
  (recordAt s s.pc).bind fun i => (leastFree s (classOf (instrOpcode i))).map fun r => (i, r)

theorem allocNext_eq_some {s : State} {i : Instr} {r : Nat} :
    allocNext s = some (i, r) ↔ recordAt s s.pc = some i ∧ leastFree s (classOf (instrOpcode i)) = some r := by
  simp [allocNext, Option.bind_eq_some_iff]

theorem allocNext_of_recordAt {s : State} {i : Instr} (h : recordAt s s.pc = some i) :
    allocNext s = (leastFree s (classOf (instrOpcode i))).map fun r => (i, r) := by
  rw [allocNext, h, Option.bind_some]

theorem notRenamedNext_iff {s : State} {q : RegName} :
    NotRenamedNext s q ↔ ∀ i r, allocNext s = some (i, r) → instrDest i ≠ some q := by
  constructor
  · intro h i r hir
    obtain ⟨hi, hr⟩ := allocNext_eq_some.1 hir
    exact h i hi (Option.isSome_of_eq_some hr)
  · intro h i hi hsome
    obtain ⟨r, hr⟩ := Option.isSome_iff_exists.1 hsome
    exact h i r (allocNext_eq_some.2 ⟨hi, hr⟩)

/-- The next step's issue does not take the slot of tag `u`. -/
abbrev NotAllocNext (s : State) (u : Tag) : Prop := ∀ i r, allocNext s = some (i, r) → u ≠ instrTag i r

theorem notAllocNext_iff {s : State} {u : Tag} : NotAllocNext s u ↔ ¬ Claims.AllocatedNext s u := by
  constructor
  · rintro h ⟨i, hi, hp, hr⟩
    exact h i u.rank (allocNext_eq_some.2 ⟨hi, hp ▸ hr⟩) (by rw [instrTag, hp])
  · rintro h i r hir rfl
    obtain ⟨hi, hr⟩ := allocNext_eq_some.1 hir
    exact h ⟨i, hi, rfl, hr⟩

/-- A busy slot is not the one that is taken. -/
theorem notAllocNext_of_busy {s : State} {u : Tag} {x : Slot} (hx : slotAt s u = some x) (hb : x.view.busy = true) :
    NotAllocNext s u := by
  rintro i r hir rfl
  obtain ⟨-, hr⟩ := allocNext_eq_some.1 hir
  obtain ⟨y, hy, hfree⟩ := slotAt_leastFree hr
  cases hx.symm.trans hy
  exact Bool.false_ne_true (hfree.symm.trans hb)

theorem pc_lt_of_allocNext {s : State} {i : Instr} {r : Nat} (h : allocNext s = some (i, r)) : s.pc < s.prog.length := by
  obtain ⟨hi, -⟩ := allocNext_eq_some.1 h
  obtain ⟨w, hw, -⟩ := recordAt_eq_some.1 hi
  exact (List.getElem?_eq_some_iff.1 hw).1

/-- The issue phase of a step: nothing, or the allocation of `allocNext`. -/
theorem issuePhase_allocNext {s s1 : State} (h : issuePhase (advanceCycle s) = .next s1) :
    (allocNext s = none ∧ s1 = advanceCycle s) ∨
    ∃ i r, allocNext s = some (i, r) ∧ Allocated (advanceCycle s) s1 i r := by
  obtain ⟨hnone, rfl⟩ | ⟨i, hi, hexec⟩ := issuePhase_eq_next_recordAt h
  · rw [recordAt_advanceCycle, advanceCycle_pc] at hnone
    exact .inl ⟨by rw [allocNext, hnone, Option.bind_none], rfl⟩
  · rw [recordAt_advanceCycle, advanceCycle_pc] at hi
    obtain ⟨hfull, rfl⟩ | ⟨r, hr, halloc⟩ := exec_stalls_or_allocates hexec
    · rw [leastFree_advanceCycle] at hfull
      exact .inl ⟨by rw [allocNext_of_recordAt hi, hfull, Option.map_none], rfl⟩
    · exact .inr ⟨i, r, allocNext_eq_some.2 ⟨hi, hr⟩, halloc⟩

theorem slotAt_advanceCycle (s : State) (u : Tag) : slotAt (advanceCycle s) u = slotAt s u := rfl

theorem freshSlot_advanceCycle (s : State) (i : Instr) : freshSlot (advanceCycle s) i = freshSlot s i := by
  cases i <;> rfl

/-! ### The countdown where no slot is fresh -/

/-- The countdown of a slot that was not issued in this cycle (R143, 41_countdown). -/
def Slot.tick (x : Slot) : Slot := x.countdown [] 0

theorem Slot.countdown_of_not_counts {ts : List Stamp} {c : Nat} {x : Slot} (h : counts ts c x.view = false) :
    x.countdown ts c = x :=
  Slot.ext_of_reads (by simp [SlotView.countdown, h]) (by simp) (by simp)

theorem Slot.countdown_eq_tick {ts : List Stamp} {c : Nat} {x : Slot}
    (h : x.view.busy = true → issuedIn ts c x.view.owner = false) : x.countdown ts c = x.tick := by
  have hcounts : counts ts c x.view = counts [] 0 x.view := by
    cases hb : x.view.busy with
    | false => simp [counts, hb]
    | true =>
      have hnil : issuedIn [] 0 x.view.owner = false := by simp [issuedIn]
      simp [counts, h hb, hnil]
  exact Slot.ext_of_reads (by simp [Slot.tick, SlotView.countdown, hcounts]) (by simp [Slot.tick]) (by simp [Slot.tick])

@[simp] theorem Slot.operands_tick (x : Slot) : x.tick.operands = x.operands := Slot.operands_countdown [] 0 x

@[simp] theorem Slot.label_tick (x : Slot) : x.tick.label = x.label := Slot.label_countdown [] 0 x

/-- The view of a slot that counts, or waits. -/
theorem Slot.view_tick (x : Slot) : x.tick.view = { x.view with timer := Claims.timerNext x.view } := by
  have hnil : issuedIn [] 0 x.view.owner = false := by simp [issuedIn]
  rw [Slot.tick, Slot.view_countdown, SlotView.countdown, Claims.timerNext]
  rcases Nat.eq_zero_or_pos x.view.timer with hz | hpos
  · simp [counts, hz]
    rw [← hz]
  · simp only [counts, hnil, decide_eq_true hpos, Bool.not_false, Bool.and_true, Bool.and_eq_true]
    split <;> rfl

@[simp] theorem Slot.busy_tick (x : Slot) : x.tick.view.busy = x.view.busy := by rw [Slot.view_tick]

@[simp] theorem Slot.ready_tick (x : Slot) : x.tick.view.ready = x.view.ready := by rw [Slot.view_tick]

@[simp] theorem Slot.owner_tick (x : Slot) : x.tick.view.owner = x.view.owner := by rw [Slot.view_tick]

@[simp] theorem Slot.timer_tick (x : Slot) : x.tick.view.timer = Claims.timerNext x.view := by rw [Slot.view_tick]

/-- The countdown of an arithmetic slot leaves all but its timer, which nothing that the write-back does reads. -/
theorem Slot.result_countdown (ts : List Stamp) (c : Nat) (n : Num) (m : Memory) (x : Slot) :
    (x.countdown ts c).result n m = x.result n m := by
  cases x with
  | arith x => simp only [Slot.countdown, ArithSlot.countdown]; split <;> rfl
  | load x => simp only [Slot.countdown, LoadSlot.countdown]; split <;> rfl
  | store x => rfl

theorem Slot.stored_countdown (ts : List Stamp) (c : Nat) (x : Slot) : (x.countdown ts c).stored = x.stored := by
  cases x with
  | arith x => rfl
  | load x => rfl
  | store x => simp only [Slot.countdown, StoreSlot.countdown]; split <;> rfl

theorem Slot.writesBack_countdown {ts : List Stamp} {c : Nat} {cfg : Config} {x : Slot} :
    (x.countdown ts c).WritesBack cfg ↔ x.WritesBack cfg := by
  cases x with
  | arith x => simp only [Slot.countdown, ArithSlot.countdown]; split <;> rfl
  | load x => simp only [Slot.countdown, LoadSlot.countdown]; split <;> rfl
  | store x => simp only [Slot.countdown, StoreSlot.countdown]; split <;> rfl

/-! ### The slots that complete -/

/-- The slots that complete in the next step, in the scan order. -/
def completing (s : State) : List Tag := (scanOrder s).filter (completesNext s)

theorem completesNext_of_slotAt {s : State} {u : Tag} {x : Slot} (h : slotAt s u = some x) :
    completesNext s u = (x.view.busy && x.view.ready && decide (x.view.timer = 1)) := by
  rw [completesNext, slotView_of_slotAt h]

theorem completesNext_eq_true_iff {s : State} {u : Tag} : completesNext s u = true ↔
    ∃ x, slotAt s u = some x ∧ x.view.busy = true ∧ x.view.ready = true ∧ x.view.timer = 1 := by
  constructor
  · intro h
    unfold completesNext at h
    split at h
    next v hv =>
      obtain ⟨x, hx, rfl⟩ := slotView_eq_some_iff.1 hv
      exact ⟨x, hx, by simpa [and_assoc] using h⟩
    next => cases h
  · rintro ⟨x, hx, hb, hr, ht⟩
    simp [completesNext_of_slotAt hx, hb, hr, ht]

theorem mem_completing {s : State} {u : Tag} : u ∈ completing s ↔ completesNext s u = true := by
  rw [completing, List.mem_filter, and_iff_right_iff_imp]
  intro h
  obtain ⟨x, hx, -⟩ := completesNext_eq_true_iff.1 h
  exact mem_scanOrder_of_slotAt hx

theorem notAllocNext_of_completesNext {s : State} {u : Tag} (h : completesNext s u = true) : NotAllocNext s u := by
  obtain ⟨x, hx, hb, -, -⟩ := completesNext_eq_true_iff.1 h
  exact notAllocNext_of_busy hx hb

/-- Record `k` owns a slot that completes in the next step. -/
def ownerCompletes (s : State) (k : Nat) : Bool := (completing s).any fun u => decide (ownerOf s u = some k)

theorem ownerCompletes_eq_true_iff {s : State} {k : Nat} :
    ownerCompletes s k = true ↔ ∃ u, completesNext s u = true ∧ ownerOf s u = some k := by
  simp [ownerCompletes, mem_completing]

/-- The timestamps of record `k` after a step that does not issue it (R144, 41_countdown; R159,
42_writeback_broadcast). -/
def stampNext (s : State) (k : Nat) (y : Stamp) : Stamp :=
  if ownerCompletes s k then { y with exec := s.cycle + 1, wb := s.cycle + 1 } else y

/-- A slot after a step that does not allocate it (R143, 41_countdown; R159, R164, 42_writeback_broadcast). -/
def slotNext (s : State) (cdb : List Txn) (u : Tag) (x : Slot) : Slot :=
  if completesNext s u then x.tick.free else x.tick.settle cdb

/-- Every field after a step from a state that meets the invariants. -/
structure Stepped (s t : State) (cdb : List Txn) : Prop where
  cfg : t.cfg = s.cfg
  prog : t.prog = s.prog
  cycle : t.cycle = s.cycle + 1
  shape : t.Shape
  pcStall : allocNext s = none → t.pc = s.pc
  pcAlloc : ∀ i r, allocNext s = some (i, r) → t.pc = s.pc + 1
  slotFresh : ∀ i r, allocNext s = some (i, r) → slotAt t (instrTag i r) = some ((freshSlot s i).settle cdb)
  slots : ∀ u, NotAllocNext s u → slotAt t u = (slotAt s u).map (slotNext s cdb u)
  renamed : ∀ i r q, allocNext s = some (i, r) → instrDest i = some q → readReg t q = some (.tag (instrTag i r))
  registers : ∀ q, NotRenamedNext s q → readReg t q = (readReg s q).map (Entry.settle cdb)
  freshStamp : ∀ i r, allocNext s = some (i, r) → t.ts[s.pc]? = some { issue := s.cycle + 1, exec := 0, wb := 0 }
  stamps : ∀ k, (∀ i r, allocNext s = some (i, r) → k ≠ s.pc) → t.ts[k]? = s.ts[k]?.map (stampNext s k)
  mem : t.mem = Memory.writes s.mem ((completing s).filterMap (storedOf s))
  bus : cdb = (completing s).filterMap (busOf s)
  writesBack : ∀ u, completesNext s u = true → ∃ x, slotAt s u = some x ∧ x.WritesBack s.cfg

/-! ### The invariants, slot by slot -/

section
variable {s : State} (hinv : s.Inv) {u : Tag} {x : Slot} (hx : slotAt s u = some x)
include hinv hx

theorem busyOwner_of_inv (hb : x.view.busy = true) :
    x.view.owner < s.pc ∧ ∃ y, s.ts[x.view.owner]? = some y ∧ y.exec = 0 ∧ y.wb = 0 :=
  hinv.busyOwner u (mem_scanOrder_of_slotAt hx) x.view (slotView_of_slotAt hx) hb

theorem ownersDiffer_of_inv (hb : x.view.busy = true) {w : Tag} {y : Slot} (hy : slotAt s w = some y)
    (hyb : y.view.busy = true) (h : x.view.owner = y.view.owner) : u = w :=
  hinv.ownersDiffer u (mem_scanOrder_of_slotAt hx) w (mem_scanOrder_of_slotAt hy) x.view (slotView_of_slotAt hx) y.view
    (slotView_of_slotAt hy) hb hyb h

theorem operandTags_of_inv (hb : x.view.busy = true) {w : Tag} (h : .tag w ∈ x.operands) :
    w.pool ≠ .store ∧ ∃ y, slotAt s w = some y ∧ y.view.busy = true ∧ y.view.owner < x.view.owner := by
  obtain ⟨hp, v, hv, hvb, hlt⟩ := hinv.operandTags u (mem_scanOrder_of_slotAt hx) x.view (slotView_of_slotAt hx) hb
    (.tag w) (slotOperands_of_slotAt hx ▸ h) w rfl
  obtain ⟨y, hy, rfl⟩ := slotView_eq_some_iff.1 hv
  exact ⟨hp, y, hy, hvb, hlt⟩

theorem freeSlots_of_inv (hb : x.view.busy = false) : x.view.ready = true := by
  rw [Slot.view_ready, List.all_eq_true]
  exact fun e he => hinv.freeSlots u (mem_scanOrder_of_slotAt hx) x.view (slotView_of_slotAt hx) hb e
    (slotOperands_of_slotAt hx ▸ he)

theorem busyTimer_of_inv (hb : x.view.busy = true) :
    1 ≤ x.view.timer ∧ ∃ i, recordAt s x.view.owner = some i ∧ x.view.timer ≤ latOf s.cfg (instrOpcode i) ∧
      classOf (instrOpcode i) = u.pool ∧ x.label = instrLabel i := by
  obtain ⟨hpos, i, hi, hle, hholds⟩ := hinv.busyTimer u (mem_scanOrder_of_slotAt hx) x.view (slotView_of_slotAt hx) hb
  obtain ⟨hclass, y, hy, hlabel⟩ := slotHolds_iff.1 hholds
  cases hx.symm.trans hy
  exact ⟨hpos, i, hi, hle, hclass, hlabel⟩

theorem busyElapsed_of_inv (hb : x.view.busy = true) :
    ∃ i, recordAt s x.view.owner = some i ∧ ∃ y, s.ts[x.view.owner]? = some y ∧
      y.issue + latOf s.cfg (instrOpcode i) ≤ s.cycle + x.view.timer :=
  hinv.busyElapsed u (mem_scanOrder_of_slotAt hx) x.view (slotView_of_slotAt hx) hb

end

theorem registerTags_of_inv {s : State} (hinv : s.Inv) {q : RegName} {w : Tag} (h : readReg s q = some (.tag w)) :
    w.pool ≠ .store ∧ ∃ x, slotAt s w = some x ∧ x.view.busy = true ∧
      (∃ i, recordAt s x.view.owner = some i ∧ instrDest i = some q) ∧
      ∀ l, l < s.pc → x.view.owner < l → ∃ i, recordAt s l = some i ∧ instrDest i ≠ some q := by
  have hq : q ∈ regNames s := mem_regNames.2 (h ▸ rfl)
  obtain ⟨hp, v, hv, hb, hdest, hlater⟩ := hinv.registerTags q hq (.tag w) h w rfl
  obtain ⟨x, hx, rfl⟩ := slotView_eq_some_iff.1 hv
  exact ⟨hp, x, hx, hb, hdest, hlater⟩

theorem inFlight_of_inv {s : State} (hinv : s.Inv) {k : Nat} {y : Stamp} (hk : k < s.pc) (hy : s.ts[k]? = some y)
    (hwb : y.wb = 0) : ∃ u x, slotAt s u = some x ∧ x.view.busy = true ∧ x.view.owner = k := by
  obtain ⟨u, -, v, hv, hb, howner⟩ := hinv.inFlight k hk y hy hwb
  obtain ⟨x, hx, rfl⟩ := slotView_eq_some_iff.1 hv
  exact ⟨u, x, hx, hb, howner⟩

/-! ### The step under the invariants -/

section
variable {s s1 : State} (hinv : s.Inv) (hissue : issuePhase (advanceCycle s) = .next s1)
include hissue

theorem slotAt_issuePhase_fresh {i : Instr} {r : Nat} (h : allocNext s = some (i, r)) :
    slotAt s1 (instrTag i r) = some (freshSlot s i) := by
  obtain ⟨hnone, -⟩ | ⟨i', r', hir, halloc⟩ := issuePhase_allocNext hissue
  · cases hnone.symm.trans h
  · cases hir.symm.trans h
    rw [halloc.slots, if_pos rfl, freshSlot_advanceCycle]

theorem slotAt_issuePhase_of_not {u : Tag} (h : NotAllocNext s u) : slotAt s1 u = slotAt s u := by
  obtain ⟨-, rfl⟩ | ⟨i, r, hir, halloc⟩ := issuePhase_allocNext hissue
  · rfl
  · rw [halloc.slots, if_neg (h i r hir), slotAt_advanceCycle]

theorem ts_issuePhase_of_not {k : Nat} (h : ∀ i r, allocNext s = some (i, r) → k ≠ s.pc) :
    s1.ts[k]? = s.ts[k]? := by
  obtain ⟨-, rfl⟩ | ⟨i, r, hir, halloc⟩ := issuePhase_allocNext hissue
  · rfl
  · rw [halloc.issued.stamp, advanceCycle_pc, if_neg (h i r hir), advanceCycle_ts]

theorem scanOrder_issuePhase : scanOrder s1 = scanOrder s := by
  have hi := issuePhase_keeps hissue
  simp [scanOrder, hi.add, hi.mul, hi.load, hi.store]

include hinv

theorem ts_issuePhase_fresh {i : Instr} {r : Nat} (h : allocNext s = some (i, r)) :
    s1.ts[s.pc]? = some { issue := s.cycle + 1, exec := 0, wb := 0 } := by
  obtain ⟨hnone, -⟩ | ⟨i', r', hir, halloc⟩ := issuePhase_allocNext hissue
  · cases hnone.symm.trans h
  · have hlt : s.pc < s.ts.length := hinv.shape.ts ▸ pc_lt_of_allocNext h
    rw [halloc.issued.stamp, advanceCycle_pc, if_pos rfl, advanceCycle_ts, hinv.unissued s.pc hlt le_rfl]
    rfl

/-- The slot that is allocated does not count in this cycle. -/
theorem counts_fresh {i : Instr} {r : Nat} (h : allocNext s = some (i, r)) :
    counts s1.ts s1.cycle (freshSlot s i).view = false := by
  have hissued : issuedIn s1.ts s1.cycle s.pc = true := by
    simp [issuedIn, ts_issuePhase_fresh hinv hissue h, (issuePhase_keeps hissue).cycle]
  simp [counts, hissued]

/-- A slot that was busy before the step is not fresh. -/
theorem issuedIn_of_busy {u : Tag} {x : Slot} (hx : slotAt s u = some x) (hb : x.view.busy = true) :
    issuedIn s1.ts s1.cycle x.view.owner = false := by
  obtain ⟨hlt, -⟩ := busyOwner_of_inv hinv hx hb
  obtain ⟨y, hy, -, hle⟩ := hinv.issued x.view.owner hlt
  have hcycle : s1.cycle = s.cycle + 1 := (issuePhase_keeps hissue).cycle
  rw [issuedIn_eq_false_iff]
  intro z hz
  rw [ts_issuePhase_of_not hissue fun _ _ _ => hlt.ne] at hz
  cases hz.symm.trans hy
  omega

theorem eligibleIn_issuePhase (u : Tag) : eligibleIn s1 u = completesNext s u := by
  by_cases hu : NotAllocNext s u
  · have hslot := slotAt_issuePhase_of_not hissue hu
    cases hx : slotAt s u with
    | none =>
      have hview : slotView s u = none := by rw [slotView_eq, hx, Option.map_none]
      have hview1 : slotView s1 u = none := by rw [slotView_eq, hslot, hx, Option.map_none]
      simp [eligibleIn, completesNext, hview, hview1]
    | some x =>
      rw [eligibleIn, slotView_of_slotAt (hslot.trans hx), completesNext_of_slotAt hx, Bool.eq_iff_iff,
        completes_eq_true_iff, ← issuedIn_eq_false_iff]
      cases hb : x.view.busy with
      | false => simp
      | true => simp [issuedIn_of_busy hinv hissue hx hb]
  · simp only [NotAllocNext, not_forall, not_not] at hu
    obtain ⟨i, r, hir, rfl⟩ := hu
    have hslot := slotAt_issuePhase_fresh hissue hir
    obtain ⟨-, hr⟩ := allocNext_eq_some.1 hir
    obtain ⟨y, hy, hfree⟩ := slotAt_leastFree hr
    have hno : completesNext s (instrTag i r) = false := by rw [completesNext_of_slotAt hy, hfree]; rfl
    rw [hno, eligibleIn, slotView_of_slotAt hslot]
    simp [completes, counts_fresh hinv hissue hir]

theorem eligible_issuePhase : eligible s1 = completing s := by
  rw [eligible, scanOrder_issuePhase hissue, completing]
  exact List.filter_congr fun u _ => eligibleIn_issuePhase hinv hissue u

/-- The slots after issue and countdown: the fresh one as it was filled, every other one counted. -/
theorem slotAt_counted_fresh {i : Instr} {r : Nat} (h : allocNext s = some (i, r)) :
    slotAt (countdownPhase s1).1 (instrTag i r) = some (freshSlot s i) := by
  rw [slotAt_countdownPhase, slotAt_issuePhase_fresh hissue h, Option.map_some,
    Slot.countdown_of_not_counts (counts_fresh hinv hissue h)]

theorem slotAt_counted_of_not {u : Tag} (h : NotAllocNext s u) :
    slotAt (countdownPhase s1).1 u = (slotAt s u).map Slot.tick := by
  rw [slotAt_countdownPhase, slotAt_issuePhase_of_not hissue h]
  exact Option.map_congr fun x hx => Slot.countdown_eq_tick (issuedIn_of_busy hinv hissue hx)

end

theorem readReg_countdownPhase (s : State) (q : RegName) : readReg (countdownPhase s).1 q = readReg s q := by
  rw [countdownPhase_eq]
  rfl

/-- The budget test changes at most the fault latch. -/
theorem budgetCheck_eq (s : State) : budgetCheck s = { s with fault := (budgetCheck s).fault } := by
  obtain h | ⟨m, -, -, -, -, h⟩ := budgetCheck_cases s <;> rw [h]
  rfl

theorem State.Shape.of_lengths {s t : State} (h : s.Shape) (hcfg : t.cfg = s.cfg) (hprog : t.prog = s.prog)
    (hadd : t.add.length = s.add.length) (hmul : t.mul.length = s.mul.length) (hload : t.load.length = s.load.length)
    (hstore : t.store.length = s.store.length) (hfreg : t.freg.length = s.freg.length)
    (hireg : t.ireg.length = s.ireg.length) (hts : t.ts.length = s.ts.length) : t.Shape where
  add := by rw [hadd, hcfg, h.add]
  mul := by rw [hmul, hcfg, h.mul]
  load := by rw [hload, hcfg, h.load]
  store := by rw [hstore, hcfg, h.store]
  freg := by rw [hfreg, hcfg, h.freg]
  ireg := by rw [hireg, hcfg, h.ireg]
  ts := by rw [hts, hprog, h.ts]

theorem shape_of_step {s s1 s2 : State} (h : s.Shape) (hissue : issuePhase (advanceCycle s) = .next s1)
    (hkeeps : WritebackKeeps (countdownPhase s1).1 s2) : (budgetCheck s2).Shape := by
  have hi := issuePhase_keeps hissue
  rw [budgetCheck_eq]
  rw [countdownPhase_eq] at hkeeps
  refine h.of_lengths (hkeeps.cfg.trans hi.cfg) (hkeeps.prog.trans hi.prog) ?_ ?_ ?_ ?_ (hkeeps.freg.trans hi.freg)
    (hkeeps.ireg.trans hi.ireg) ?_
  · exact hkeeps.add.trans ((List.length_map _).trans hi.add)
  · exact hkeeps.mul.trans ((List.length_map _).trans hi.mul)
  · exact hkeeps.load.trans ((List.length_map _).trans hi.load)
  · exact hkeeps.store.trans ((List.length_map _).trans hi.store)
  · exact hkeeps.ts.trans ((countdownPhase_ts_length s1).trans hi.ts)

section
variable {s s1 : State} (hinv : s.Inv) (hissue : issuePhase (advanceCycle s) = .next s1)
include hinv

theorem ownerCompletes_of_pc_le {k : Nat} (hk : s.pc ≤ k) : ownerCompletes s k = false := by
  refine Bool.eq_false_iff.2 fun hc => ?_
  obtain ⟨u, hu, howner⟩ := ownerCompletes_eq_true_iff.1 hc
  obtain ⟨x, hx, hb, -, -⟩ := completesNext_eq_true_iff.1 hu
  have hlt := (busyOwner_of_inv hinv hx hb).1
  have : x.view.owner = k := Option.some.inj ((ownerOf_of_slotAt hx).symm.trans howner)
  omega

include hissue

/-- A completing slot after issue and countdown is the one before, counted. -/
theorem slotAt_counted_of_completesNext {u : Tag} (h : completesNext s u = true) :
    slotAt (countdownPhase s1).1 u = (slotAt s u).map Slot.tick :=
  slotAt_counted_of_not hinv hissue (notAllocNext_of_completesNext h)

theorem ownerOf_counted_of_completesNext {u : Tag} (h : completesNext s u = true) :
    ownerOf (countdownPhase s1).1 u = ownerOf s u := by
  rw [ownerOf, slotView_eq, slotAt_counted_of_completesNext hinv hissue h, ownerOf, slotView_eq]
  simp [Function.comp_def]

theorem exists_completing_ownerOf_iff (k : Nat) :
    (∃ u ∈ completing s, ownerOf (countdownPhase s1).1 u = some k) ↔ ownerCompletes s k = true := by
  rw [ownerCompletes_eq_true_iff]
  refine exists_congr fun u => ?_
  rw [mem_completing]
  exact and_congr_right fun hu => by rw [ownerOf_counted_of_completesNext hinv hissue hu]

theorem storedOf_counted_of_completesNext {u : Tag} (h : completesNext s u = true) :
    storedOf (countdownPhase s1).1 u = storedOf s u := by
  rw [storedOf, slotAt_counted_of_completesNext hinv hissue h, storedOf]
  simp [Option.bind_map, Slot.tick, Function.comp_def, Slot.stored_countdown]

theorem busOf_counted_of_completesNext {u : Tag} (h : completesNext s u = true) :
    busOf (countdownPhase s1).1 u = busOf s u := by
  have hi := issuePhase_keeps hissue
  have hcfg : (countdownPhase s1).1.cfg = s.cfg := (countdownPhase_cfg s1).trans hi.cfg
  have hmem : (countdownPhase s1).1.mem = s.mem := by
    rw [countdownPhase_eq]
    exact hi.mem
  rw [busOf, slotAt_counted_of_completesNext hinv hissue h, hcfg, hmem, busOf]
  simp [Option.bind_map, Slot.tick, Slot.result_countdown]

/-- Countdown and write-back stamp the same records: the owners of the completing slots. -/
theorem getElem?_ts_of_scanned {s2 : State} {cdb : List Txn}
    (hscan : Scanned (completing s) (countdownPhase s1).1 s2 cdb) (k : Nat) :
    s2.ts[k]? = if ownerCompletes s k = true
      then s1.ts[k]?.map fun y => { y with exec := s.cycle + 1, wb := s.cycle + 1 } else s1.ts[k]? := by
  have hstamped := exists_completing_ownerOf_iff hinv hissue k
  have hexec : k ∈ (eligible s1).filterMap (ownerOf s1) ↔ ownerCompletes s k = true := by
    rw [eligible_issuePhase hinv hissue, ← hstamped, List.mem_filterMap]
    simp only [ownerOf_countdownPhase]
  rw [hscan.stamps, getElem?_countdownPhase_ts, countdownPhase_cycle, (issuePhase_keeps hissue).cycle,
    advanceCycle_cycle]
  simp only [hstamped, hexec]
  split
  · rw [Option.map_map]
    rfl
  · rfl

end

/-- The slot that is allocated does not complete in the same step. -/
theorem instrTag_notMem_completing {s : State} {i : Instr} {r : Nat} (h : allocNext s = some (i, r)) :
    instrTag i r ∉ completing s := fun hmem =>
  notAllocNext_of_completesNext (mem_completing.1 hmem) i r h rfl

theorem Scanned.bus_tags_subset {l : List Tag} {s t : State} {cdb : List Txn} (h : Scanned l s t cdb) :
    cdb.map Prod.fst ⊆ l := fun w hw => by
  rw [h.bus, List.map_filterMap] at hw
  obtain ⟨u, hu, hfst⟩ := List.mem_filterMap.1 hw
  simp only [busOf, Option.map_eq_some_iff, Option.bind_eq_some_iff] at hfst
  obtain ⟨-, ⟨x, -, v, -, rfl⟩, rfl⟩ := hfst
  exact hu

/-- The step under the invariants. -/
theorem stepped_of_runCycle {s t : State} {o : StepOut} (hinv : s.Inv) (hf : s.fault = none)
    (h : runCycle s = .next (t, o)) : Stepped s t o.cdb := by
  obtain ⟨s1, s2, hissue, -, hkeeps, hscan, hwb, rfl⟩ := runCycle_scans hf h
  rw [eligible_issuePhase hinv hissue] at hscan hwb
  have hi := issuePhase_keeps hissue
  have halloc : ∀ {i r}, allocNext s = some (i, r) → Allocated (advanceCycle s) s1 i r := fun {i r} hir => by
    obtain ⟨hnone, -⟩ | ⟨i', r', hir', ha⟩ := issuePhase_allocNext hissue
    · cases hnone.symm.trans hir
    · cases hir.symm.trans hir'
      exact ha
  have hslot2 : ∀ u, slotAt (budgetCheck s2) u = slotAt s2 u := fun u => by rw [budgetCheck_eq]; rfl
  have hreg2 : ∀ q, readReg (budgetCheck s2) q = (readReg s1 q).map (Entry.settle o.cdb) := fun q => by
    rw [← readReg_countdownPhase s1, ← hscan.registers, budgetCheck_eq]; rfl
  have hpc : (budgetCheck s2).pc = s1.pc := by rw [budgetCheck_pc, hkeeps.pc, countdownPhase_pc]
  exact {
    cfg := by rw [budgetCheck_cfg, hkeeps.cfg, countdownPhase_cfg, hi.cfg, advanceCycle_cfg]
    prog := by rw [budgetCheck_prog, hkeeps.prog, countdownPhase_prog, hi.prog, advanceCycle_prog]
    cycle := by rw [budgetCheck_cycle, hkeeps.cycle, countdownPhase_cycle, hi.cycle, advanceCycle_cycle]
    shape := shape_of_step hinv.shape hissue hkeeps
    pcStall := fun hnone => by
      obtain ⟨-, rfl⟩ | ⟨i, r, hir, -⟩ := issuePhase_allocNext hissue
      · exact hpc
      · cases hnone.symm.trans hir
    pcAlloc := fun i r hir => hpc.trans (halloc hir).issued.pc
    slotFresh := fun i r hir => by
      rw [hslot2, hscan.slots, slotAt_counted_fresh hinv hissue hir, Option.map_some,
        if_neg (instrTag_notMem_completing hir)]
    slots := fun u hu => by
      rw [hslot2, hscan.slots, slotAt_counted_of_not hinv hissue hu, Option.map_map]
      refine Option.map_congr fun x _ => ?_
      simp only [Function.comp, slotNext, mem_completing]
    renamed := fun i r q hir hq => by
      rw [hreg2, (halloc hir).registers, if_pos hq, Option.map_some,
        Entry.settle_tag_of_notMem fun hmem => instrTag_notMem_completing hir (hscan.bus_tags_subset hmem)]
    registers := fun q hq => by
      rw [hreg2]
      obtain ⟨-, rfl⟩ | ⟨i, r, hir, ha⟩ := issuePhase_allocNext hissue
      · rfl
      · rw [ha.registers, if_neg (notRenamedNext_iff.1 hq i r hir)]
        rfl
    freshStamp := fun i r hir => by
      rw [budgetCheck_ts, getElem?_ts_of_scanned hinv hissue hscan, ownerCompletes_of_pc_le hinv le_rfl,
        if_neg Bool.false_ne_true, ts_issuePhase_fresh hinv hissue hir]
    stamps := fun k hk => by
      rw [budgetCheck_ts, getElem?_ts_of_scanned hinv hissue hscan, ts_issuePhase_of_not hissue hk]
      unfold stampNext
      split
      · rfl
      · exact Option.map_id'.symm
    mem := by
      have hmem : (countdownPhase s1).1.mem = s.mem := by
        rw [countdownPhase_eq]
        exact hi.mem
      rw [budgetCheck_eq]
      show s2.mem = _
      rw [hscan.mem, hmem]
      exact congrArg (Memory.writes s.mem) (List.filterMap_congr fun u hu =>
        storedOf_counted_of_completesNext hinv hissue (mem_completing.1 hu))
    bus := hscan.bus.trans (List.filterMap_congr fun u hu =>
      busOf_counted_of_completesNext hinv hissue (mem_completing.1 hu))
    writesBack := fun u hu => by
      obtain ⟨y, hy, hyw⟩ := hwb u (mem_completing.2 hu)
      rw [slotAt_counted_of_completesNext hinv hissue hu, Option.map_eq_some_iff] at hy
      obtain ⟨x, hx, rfl⟩ := hy
      exact ⟨x, hx, hi.cfg ▸ Slot.writesBack_countdown.1 hyw⟩ }

end Sys2Proof.Machine
end

section
/-! SUPPORT. The invariants of R38 (10_state) along a step: a step answers a next state, and every item holds of it. -/

namespace Sys2Proof.Machine

/-! ### A step does not stop (R187, 43_cycle_driver) -/

theorem wellFormed_of_recordAt {s : State} {k : Nat} {i : Instr} (h : recordAt s k = some i) : i.WellFormed s.cfg := by
  obtain ⟨w, -, hw⟩ := recordAt_eq_some.1 h
  obtain ⟨-, hwf, -⟩ := decode_eq_ok hw
  exact hwf

theorem isSome_readReg_of_wellFormed {s : State} (h : s.Shape) {q : RegName} (hq : q.WellFormed s.cfg) :
    (readReg s q).isSome = true := by
  obtain ⟨file, idx⟩ := q
  cases file with
  | f => simpa [readReg, h.freg] using hq
  | r => simpa [readReg, h.ireg] using hq

theorem operandsPresent_of_wellFormed {s : State} (h : s.Shape) {i : Instr} (hi : i.WellFormed s.cfg) :
    OperandsPresent s i := by
  have hreg := fun q => isSome_readReg_of_wellFormed (s := s) (q := q) h
  cases i with
  | ld rd addr => exact ⟨hreg rd hi.1, hi.2⟩
  | st rs addr => exact ⟨hreg rs hi.1, hi.2⟩
  | addd rd rs1 rs2 => exact ⟨hreg rd hi.1, hreg rs1 hi.2.1, hreg rs2 hi.2.2⟩
  | subd rd rs1 rs2 => exact ⟨hreg rd hi.1, hreg rs1 hi.2.1, hreg rs2 hi.2.2⟩
  | multd rd rs1 rs2 => exact ⟨hreg rd hi.1, hreg rs1 hi.2.1, hreg rs2 hi.2.2⟩
  | divd rd rs1 rs2 => exact ⟨hreg rd hi.1, hreg rs1 hi.2.1, hreg rs2 hi.2.2⟩

/-- An instruction whose operands are present answers a next state, whatever the pools hold. -/
theorem exec_of_operandsPresent {s : State} {i : Instr} (h : OperandsPresent s i) : ∃ t, exec i s = .next t := by
  have helim : ∀ {o : Option Nat} {f : Nat → State}, ∃ t, o.elim (.next s) (fun r => .next (f r)) =
      (.next t : Host.Outcome State Fault Refusal) := fun {o f} => by
    cases o with
    | none => exact ⟨s, rfl⟩
    | some r => exact ⟨f r, rfl⟩
  have harith : ∀ {op rd rs1 rs2}, (readReg s rd).isSome = true ∧ (readReg s rs1).isSome = true ∧
      (readReg s rs2).isSome = true → ∃ t, issueArith op rd rs1 rs2 s = .next t := by
    rintro op rd rs1 rs2 ⟨hd, h1, h2⟩
    obtain ⟨e, he⟩ := Option.isSome_iff_exists.1 hd
    obtain ⟨j, hj⟩ := Option.isSome_iff_exists.1 h1
    obtain ⟨k, hk⟩ := Option.isSome_iff_exists.1 h2
    rw [issueArith_eq hj hk he]
    exact helim
  cases i with
  | ld rd addr =>
    obtain ⟨hd, ha⟩ := h
    obtain ⟨e, he⟩ := Option.isSome_iff_exists.1 hd
    rw [exec, execLd_eq he ha]
    exact helim
  | st rs addr =>
    obtain ⟨hs, ha⟩ := h
    obtain ⟨j, hj⟩ := Option.isSome_iff_exists.1 hs
    rw [exec, execSt_eq hj ha]
    exact helim
  | addd rd rs1 rs2 => exact harith h
  | subd rd rs1 rs2 => exact harith h
  | multd rd rs1 rs2 => exact harith h
  | divd rd rs1 rs2 => exact harith h

theorem issuePhase_of_inv {s : State} (hinv : s.Inv) : ∃ s1, issuePhase (advanceCycle s) = .next s1 := by
  obtain hlt | heq := Nat.lt_or_eq_of_le hinv.pcRange
  · obtain ⟨i, hi⟩ := Option.isSome_iff_exists.1 (hinv.records s.pc hlt)
    have hops : OperandsPresent s i := operandsPresent_of_wellFormed hinv.shape (wellFormed_of_recordAt hi)
    rw [issuePhase_of_recordAt (s := advanceCycle s) hi]
    exact exec_of_operandsPresent (operandsPresent_advanceCycle hops)
  · exact ⟨advanceCycle s, issuePhase_of_length_le (s := advanceCycle s) heq.ge⟩

/-- The values of a ready arithmetic slot. -/
theorem values_of_ready {x : ArithSlot} (h : (Slot.arith x).view.ready = true) :
    ∃ a b, x.j = .value a ∧ x.k = .value b := by
  simp only [Slot.view, ArithSlot.view, ArithSlot.ready, Bool.and_eq_true] at h
  cases hj : x.j with
  | tag u => simp [hj, Entry.isVal] at h
  | value a =>
    cases hk : x.k with
    | tag u => simp [hk, Entry.isVal] at h
    | value b => exact ⟨a, b, rfl, rfl⟩

/-- The write-back of a completing slot does not stop: it holds the legal record of its owner. -/
theorem writesBack_of_inv {s : State} (hinv : s.Inv) {u : Tag} {x : Slot} (hx : slotAt s u = some x)
    (hb : x.view.busy = true) (hr : x.view.ready = true) : x.WritesBack s.cfg := by
  obtain ⟨-, i, hi, -, hclass, hlabel⟩ := busyTimer_of_inv hinv hx hb
  have hwf := wellFormed_of_recordAt hi
  cases x with
  | arith x =>
    obtain ⟨a, b, hj, hk⟩ := values_of_ready hr
    have halu : ∃ v, alu s.cfg.num x.op a b = some v := by
      cases i <;> simp only [Slot.label, instrLabel, reduceCtorEq, Sum.inl.injEq] at hlabel <;> rw [hlabel] <;>
        exact ⟨_, rfl⟩
    obtain ⟨v, hv⟩ := halu
    exact ⟨a, b, v, hj, hk, hv⟩
  | load x =>
    show x.addr < s.cfg.memSize
    cases i <;> simp only [Slot.label, instrLabel, reduceCtorEq, Sum.inr.injEq] at hlabel <;> exact hlabel ▸ hwf.2
  | store x =>
    have hv : ∃ v, x.j = .value v := by
      cases hj : x.j with
      | value v => exact ⟨v, rfl⟩
      | tag w => simp [Slot.view, StoreSlot.view, StoreSlot.ready, hj, Entry.isVal] at hr
    obtain ⟨v, hv⟩ := hv
    refine ⟨v, hv, ?_⟩
    cases i <;> simp only [Slot.label, instrLabel, reduceCtorEq, Sum.inr.injEq] at hlabel <;> exact hlabel ▸ hwf.2

/-- Under the invariants a cycle answers a next state. -/
theorem runCycle_of_inv {s : State} (hinv : s.Inv) : ∃ t o, runCycle s = .next (t, o) := by
  by_cases hf : s.fault.isSome = true
  · exact ⟨s, idleOut s, by rw [runCycle, if_pos hf]⟩
  · obtain ⟨s1, hissue⟩ := issuePhase_of_inv hinv
    have hi := issuePhase_keeps hissue
    have hf1 : (countdownPhase s1).1.fault = none := by
      rw [countdownPhase_fault, hi.fault]
      simpa using hf
    obtain ⟨q, hq, -⟩ := writebackList_of_writesBack (nodup_eligible s1) (loadsFirst_eligible s1) hf1 fun u hu => by
      rw [eligible_issuePhase hinv hissue, mem_completing] at hu
      obtain ⟨x, hx, hb, hr, -⟩ := completesNext_eq_true_iff.1 hu
      refine ⟨x.tick, by rw [slotAt_counted_of_completesNext hinv hissue hu, hx, Option.map_some], ?_⟩
      rw [Slot.tick, Slot.writesBack_countdown, countdownPhase_cfg, hi.cfg]
      exact writesBack_of_inv hinv hx hb hr
    have hafter : afterIssue s1 = .next (budgetCheck q.1, q.2) := by
      rw [afterIssue, writebackPhase, scan_countdownPhase, hq, andThen_next]
    exact ⟨_, _, by rw [runCycle, if_neg hf, hissue, andThen_next, hafter, andThen_next]⟩

/-- Settles O13: records are legal, and a completing slot holds its owner's record. -/
theorem stepAnswersNextState : Obligations.StepAnswersNextState := by
  intro s hinv
  obtain ⟨t, o, hrun⟩ := runCycle_of_inv hinv
  exact ⟨t, step_eq_next_iff.2 ⟨o, hrun⟩⟩

/-! ### What a step does to slots, to the bus and to stamps -/

section
variable {s t : State} {cdb : List Txn} (h : Stepped s t cdb)
include h

theorem Stepped.recordAt_eq (k : Nat) : recordAt t k = recordAt s k := by
  simp [recordAt, h.cfg, h.prog]

/-- A slot after the step: the one allocated in it, or one that was there. -/
theorem Stepped.slot_cases {u : Tag} {y : Slot} (hy : slotAt t u = some y) :
    (∃ i r, allocNext s = some (i, r) ∧ u = instrTag i r ∧ y = (freshSlot s i).settle cdb) ∨
    ∃ x, slotAt s u = some x ∧ NotAllocNext s u ∧ y = slotNext s cdb u x := by
  by_cases hu : NotAllocNext s u
  · rw [h.slots u hu, Option.map_eq_some_iff] at hy
    obtain ⟨x, hx, rfl⟩ := hy
    exact .inr ⟨x, hx, hu, rfl⟩
  · simp only [NotAllocNext, not_forall, not_not] at hu
    obtain ⟨i, r, hir, rfl⟩ := hu
    rw [h.slotFresh i r hir] at hy
    cases hy
    exact .inl ⟨i, r, hir, rfl, rfl⟩

/-- A busy slot after the step: the one allocated in it, or one that was busy and does not complete. -/
theorem Stepped.busy_cases {u : Tag} {y : Slot} (hy : slotAt t u = some y) (hb : y.view.busy = true) :
    (∃ i r, allocNext s = some (i, r) ∧ u = instrTag i r ∧ y = (freshSlot s i).settle cdb) ∨
    ∃ x, slotAt s u = some x ∧ x.view.busy = true ∧ completesNext s u = false ∧ y = x.tick.settle cdb := by
  obtain hfresh | ⟨x, hx, -, rfl⟩ := h.slot_cases hy
  · exact .inl hfresh
  · refine .inr ⟨x, hx, ?_⟩
    unfold slotNext at hb ⊢
    cases hc : completesNext s u with
    | true => simp [hc] at hb
    | false => simpa [hc] using hb

/-- A busy slot that does not complete stays busy. -/
theorem Stepped.slotAt_of_busy {u : Tag} {x : Slot} (hx : slotAt s u = some x) (hb : x.view.busy = true)
    (hc : completesNext s u = false) : slotAt t u = some (x.tick.settle cdb) := by
  rw [h.slots u (notAllocNext_of_busy hx hb), hx, Option.map_some, slotNext, hc]
  rfl

/-- A completing slot is freed. -/
theorem Stepped.slotAt_of_completes {u : Tag} {x : Slot} (hx : slotAt s u = some x) (hc : completesNext s u = true) :
    slotAt t u = some x.tick.free := by
  rw [h.slots u (notAllocNext_of_completesNext hc), hx, Option.map_some, slotNext, if_pos hc]

/-- What is on the bus is the result of a completing slot. -/
theorem Stepped.mem_bus {u : Tag} {v : Val} : (u, v) ∈ cdb ↔
    completesNext s u = true ∧ ∃ x, slotAt s u = some x ∧ x.result s.cfg.num s.mem = some v := by
  rw [h.bus, List.mem_filterMap]
  constructor
  · rintro ⟨w, hw, hbus⟩
    simp only [busOf, Option.bind_eq_some_iff, Option.map_eq_some_iff] at hbus
    obtain ⟨x, hx, v', hv, hp⟩ := hbus
    cases hp
    exact ⟨mem_completing.1 hw, x, hx, hv⟩
  · rintro ⟨hu, x, hx, hv⟩
    exact ⟨u, mem_completing.2 hu, by simp [busOf, hx, hv]⟩

/-- The tags on the bus are those of the completing slots but the store slots, in the scan order. -/
theorem Stepped.bus_tags : cdb.map Prod.fst =
    (scanOrder s).filter fun u => completesNext s u && decide (u.pool ≠ .store) := by
  have hfst : ∀ u ∈ completing s, (busOf s u).map Prod.fst = Option.guard (fun u => decide (u.pool ≠ .store)) u := by
    intro u hu
    obtain ⟨x, hx, hw⟩ := h.writesBack u (mem_completing.1 hu)
    cases x with
    | arith x =>
      obtain ⟨a, b, v, hj, hk, hv⟩ := hw
      simp [busOf, hx, Slot.result, hj, hk, hv, Option.guard, (pool_of_slotAt_arith hx).2]
    | load x => simp [busOf, hx, Slot.result, Option.guard, pool_of_slotAt_load hx]
    | store x => simp [busOf, hx, Slot.result, Option.guard, pool_of_slotAt_store hx]
  rw [h.bus, List.map_filterMap, List.filterMap_congr hfst, List.filterMap_eq_filter, completing, List.filter_filter]
  exact List.filter_congr fun u _ => Bool.and_comm _ _

theorem Stepped.nodup_bus : (cdb.map Prod.fst).Nodup := by
  rw [h.bus_tags]
  exact (nodup_scanOrder s).filter _

theorem Stepped.mem_bus_tags {u : Tag} : u ∈ cdb.map Prod.fst ↔ completesNext s u = true ∧ u.pool ≠ .store := by
  rw [h.bus_tags, List.mem_filter, Bool.and_eq_true, decide_eq_true_iff, and_iff_right_iff_imp]
  rintro ⟨hc, -⟩
  obtain ⟨x, hx, -⟩ := completesNext_eq_true_iff.1 hc
  exact mem_scanOrder_of_slotAt hx

/-- A tag that the bus of the step does not resolve names a slot that stays busy with its owner. -/
theorem Stepped.unresolved {w : Tag} {x : Slot} (hx : slotAt s w = some x) (hb : x.view.busy = true)
    (hp : w.pool ≠ .store) (hno : w ∉ cdb.map Prod.fst) :
    ∃ y, slotAt t w = some y ∧ y.view.busy = true ∧ y.view.owner = x.view.owner := by
  have hc : completesNext s w = false := Bool.eq_false_iff.2 fun hc => hno (h.mem_bus_tags.2 ⟨hc, hp⟩)
  exact ⟨_, h.slotAt_of_busy hx hb hc, by simpa using hb, by simp⟩

theorem Stepped.lt_pc_cases {k : Nat} (hk : k < t.pc) :
    k < s.pc ∨ k = s.pc ∧ ∃ i r, allocNext s = some (i, r) := by
  cases ha : allocNext s with
  | none =>
    rw [h.pcStall ha] at hk
    exact .inl hk
  | some p =>
    rw [h.pcAlloc p.1 p.2 ha] at hk
    obtain hlt | heq := Nat.lt_or_eq_of_le (Nat.le_of_lt_succ hk)
    · exact .inl hlt
    · exact .inr ⟨heq, p.1, p.2, rfl⟩

theorem Stepped.pc_le : s.pc ≤ t.pc := by
  cases ha : allocNext s with
  | none => rw [h.pcStall ha]
  | some p => rw [h.pcAlloc p.1 p.2 ha]; omega

theorem Stepped.stamps_of_lt {k : Nat} (hk : k < s.pc) : t.ts[k]? = s.ts[k]?.map (stampNext s k) :=
  h.stamps k fun _ _ _ => hk.ne

/-- A stamp after the step: that of the record just issued, or one that was there. -/
theorem Stepped.stamp_cases {k : Nat} {y : Stamp} (hy : t.ts[k]? = some y) :
    (k = s.pc ∧ (∃ i r, allocNext s = some (i, r)) ∧ y = { issue := s.cycle + 1, exec := 0, wb := 0 }) ∨
    ∃ z, s.ts[k]? = some z ∧ y = stampNext s k z := by
  by_cases hk : ∀ i r, allocNext s = some (i, r) → k ≠ s.pc
  · rw [h.stamps k hk, Option.map_eq_some_iff] at hy
    obtain ⟨z, hz, rfl⟩ := hy
    exact .inr ⟨z, hz, rfl⟩
  · simp only [not_forall, not_not] at hk
    obtain ⟨i, r, hir, rfl⟩ := hk
    rw [h.freshStamp i r hir] at hy
    cases hy
    exact .inl ⟨rfl, ⟨i, r, hir⟩, rfl⟩

end

theorem stampNext_of_not {s : State} {k : Nat} {y : Stamp} (h : ownerCompletes s k = false) : stampNext s k y = y := by
  simp [stampNext, h]

@[simp] theorem stampNext_issue (s : State) (k : Nat) (y : Stamp) : (stampNext s k y).issue = y.issue := by
  unfold stampNext
  split <;> rfl

/-- The owner of a busy slot that does not complete keeps its stamps: no other slot has it. -/
theorem ownerCompletes_of_not_completes {s : State} (hinv : s.Inv) {u : Tag} {x : Slot} (hx : slotAt s u = some x)
    (hb : x.view.busy = true) (hc : completesNext s u = false) : ownerCompletes s x.view.owner = false := by
  rw [Bool.eq_false_iff, Ne, ownerCompletes_eq_true_iff]
  rintro ⟨w, hw, hk⟩
  obtain ⟨y, hy, hyb, -, -⟩ := completesNext_eq_true_iff.1 hw
  have howner : x.view.owner = y.view.owner := Option.some.inj (hk.symm.trans (ownerOf_of_slotAt hy))
  rw [ownersDiffer_of_inv hinv hx hb hy hyb howner, hw] at hc
  cases hc

/-! ### Each invariant after the step -/

section
variable {s t : State} {cdb : List Txn} (hinv : s.Inv) (h : Stepped s t cdb)
include hinv h

theorem stepped_pcRange : t.pc ≤ t.prog.length := by
  rw [h.prog]
  cases ha : allocNext s with
  | none => exact h.pcStall ha ▸ hinv.pcRange
  | some p => exact h.pcAlloc p.1 p.2 ha ▸ pc_lt_of_allocNext ha

theorem stepped_memory : Memory.wf t.mem = true ∧ Memory.inside t.cfg.memSize t.mem = true := by
  have hst : ∀ c ∈ (completing s).filterMap (storedOf s), c.1 < s.cfg.memSize := by
    intro c hc
    obtain ⟨u, hu, hc⟩ := List.mem_filterMap.1 hc
    obtain ⟨x, hx, hw⟩ := h.writesBack u (mem_completing.1 hu)
    rw [storedOf, hx, Option.bind_some] at hc
    cases x with
    | arith x => cases hc
    | load x => cases hc
    | store x =>
      obtain ⟨v, hj, ha⟩ := hw
      simp only [Slot.stored, hj, Option.some.injEq] at hc
      exact hc ▸ ha
  rw [h.mem, h.cfg]
  generalize (completing s).filterMap (storedOf s) = l at hst
  have hmem : ∀ (l : List (Nat × Val)) (m : Memory), (∀ c ∈ l, c.1 < s.cfg.memSize) → Memory.wf m = true →
      Memory.inside s.cfg.memSize m = true →
      Memory.wf (Memory.writes m l) = true ∧ Memory.inside s.cfg.memSize (Memory.writes m l) = true := by
    intro l
    induction l with
    | nil => exact fun m _ hwf hin => ⟨hwf, hin⟩
    | cons c l ih =>
      exact fun m hl hwf hin => ih _ (fun d hd => hl d (List.mem_cons_of_mem c hd)) (Memory.wf_write c.1 c.2 hwf)
        (Memory.inside_write c.2 hin (hl c List.mem_cons_self))
  exact hmem l s.mem hst hinv.memoryWf hinv.memoryInside

theorem stepped_unissued : ∀ k, k < t.ts.length → t.pc ≤ k → t.ts[k]? = some { issue := 0, exec := 0, wb := 0 } := by
  intro k hk hpc
  have hle : s.pc ≤ k := h.pc_le.trans hpc
  have hks : k < s.ts.length := by rwa [h.shape.ts, h.prog, ← hinv.shape.ts] at hk
  have hne : ∀ i r, allocNext s = some (i, r) → k ≠ s.pc := fun i r hir => by
    rw [h.pcAlloc i r hir] at hpc
    omega
  rw [h.stamps k hne, hinv.unissued k hks hle, Option.map_some, stampNext_of_not (ownerCompletes_of_pc_le hinv hle)]

theorem stepped_issued : ∀ k, k < t.pc → ∃ y ∈ t.ts[k]?, 1 ≤ y.issue ∧ y.issue ≤ t.cycle := by
  intro k hk
  rw [h.cycle]
  obtain hlt | ⟨rfl, i, r, hir⟩ := h.lt_pc_cases hk
  · obtain ⟨y, hy, hpos, hle⟩ := hinv.issued k hlt
    refine ⟨stampNext s k y, by rw [h.stamps_of_lt hlt, Option.mem_def.1 hy]; rfl, ?_⟩
    rw [stampNext_issue]
    omega
  · exact ⟨_, h.freshStamp i r hir, by simp⟩

theorem stepped_issueOrder : ∀ l, l < t.pc → ∀ k, k < l → ∃ x ∈ t.ts[k]?, ∃ y ∈ t.ts[l]?, x.issue < y.issue := by
  intro l hl k hk
  have hread : ∀ m, m < s.pc → ∀ y ∈ s.ts[m]?, stampNext s m y ∈ t.ts[m]? := fun m hm y hy => by
    rw [h.stamps_of_lt hm, Option.mem_def.1 hy]
    rfl
  obtain hlt | ⟨rfl, i, r, hir⟩ := h.lt_pc_cases hl
  · obtain ⟨x, hx, y, hy, hxy⟩ := hinv.issueOrder l hlt k hk
    exact ⟨_, hread k (hk.trans hlt) x hx, _, hread l hlt y hy, by simpa using hxy⟩
  · obtain ⟨x, hx, -, hle⟩ := hinv.issued k hk
    exact ⟨_, hread k hk x hx, _, h.freshStamp i r hir, by simpa using Nat.lt_succ_of_le hle⟩

theorem stepped_busyOwner {u : Tag} {y : Slot} (hy : slotAt t u = some y) (hb : y.view.busy = true) :
    y.view.owner < t.pc ∧ ∃ z, t.ts[y.view.owner]? = some z ∧ z.exec = 0 ∧ z.wb = 0 := by
  obtain ⟨i, r, hir, -, rfl⟩ | ⟨x, hx, hxb, hc, rfl⟩ := h.busy_cases hy hb
  · rw [Slot.owner_settle, owner_freshSlot, h.pcAlloc i r hir, h.freshStamp i r hir]
    exact ⟨Nat.lt_succ_self _, _, rfl, rfl, rfl⟩
  · obtain ⟨hlt, z, hz, hunset⟩ := busyOwner_of_inv hinv hx hxb
    rw [Slot.owner_settle, Slot.owner_tick, h.stamps_of_lt hlt, hz]
    exact ⟨hlt.trans_le h.pc_le, _, rfl, by rwa [stampNext_of_not (ownerCompletes_of_not_completes hinv hx hxb hc)]⟩

theorem stepped_ownersDiffer {u w : Tag} {x y : Slot} (hx : slotAt t u = some x) (hy : slotAt t w = some y)
    (hxb : x.view.busy = true) (hyb : y.view.busy = true) (heq : x.view.owner = y.view.owner) : u = w := by
  obtain ⟨i, r, hir, rfl, rfl⟩ | ⟨x', hx', hxb', -, rfl⟩ := h.busy_cases hx hxb <;>
    obtain ⟨i', r', hir', rfl, rfl⟩ | ⟨y', hy', hyb', -, rfl⟩ := h.busy_cases hy hyb <;>
    simp only [Slot.owner_settle, owner_freshSlot, Slot.owner_tick] at heq
  · cases hir.symm.trans hir'
    rfl
  · have := (busyOwner_of_inv hinv hy' hyb').1
    omega
  · have := (busyOwner_of_inv hinv hx' hxb').1
    omega
  · exact ownersDiffer_of_inv hinv hx' hxb' hy' hyb' heq

theorem stepped_registerTags {q : RegName} {w : Tag} (hq : readReg t q = some (.tag w)) : w.pool ≠ .store ∧
    ∃ y, slotAt t w = some y ∧ y.view.busy = true ∧
      (∃ i, recordAt t y.view.owner = some i ∧ instrDest i = some q) ∧
      ∀ l, l < t.pc → y.view.owner < l → ∃ i, recordAt t l = some i ∧ instrDest i ≠ some q := by
  by_cases hren : NotRenamedNext s q
  · rw [h.registers q hren, Option.map_eq_some_iff] at hq
    obtain ⟨e, he, hsettle⟩ := hq
    obtain ⟨rfl, hno⟩ := Entry.settle_eq_tag hsettle
    obtain ⟨hp, x, hx, hb, hdest, hlater⟩ := registerTags_of_inv hinv he
    obtain ⟨y, hy, hyb, howner⟩ := h.unresolved hx hb hp hno
    refine ⟨hp, y, hy, hyb, by rwa [howner, h.recordAt_eq], fun l hl hlt => ?_⟩
    rw [h.recordAt_eq]
    obtain hl | ⟨rfl, i, r, hir⟩ := h.lt_pc_cases hl
    · exact hlater l hl (howner ▸ hlt)
    · exact ⟨i, (allocNext_eq_some.1 hir).1, notRenamedNext_iff.1 hren i r hir⟩
  · simp only [notRenamedNext_iff, not_forall, not_not] at hren
    obtain ⟨i, r, hir, hdest⟩ := hren
    obtain ⟨hi, -⟩ := allocNext_eq_some.1 hir
    cases (h.renamed i r q hir hdest).symm.trans hq
    have hst : instrDest i = some q → classOf (instrOpcode i) ≠ .store := by
      cases i <;> simp [instrDest, classOf, instrOpcode]
    refine ⟨hst hdest, _, h.slotFresh i r hir, by simp, ⟨i, ?_, hdest⟩, fun l hl hlt => ?_⟩
    · rwa [h.recordAt_eq, Slot.owner_settle, owner_freshSlot]
    · rw [Slot.owner_settle, owner_freshSlot] at hlt
      rw [h.pcAlloc i r hir] at hl
      omega

theorem stepped_operandTags {u w : Tag} {y : Slot} (hy : slotAt t u = some y) (hb : y.view.busy = true)
    (hw : .tag w ∈ y.operands) :
    w.pool ≠ .store ∧ ∃ z, slotAt t w = some z ∧ z.view.busy = true ∧ z.view.owner < y.view.owner := by
  obtain ⟨i, r, hir, -, rfl⟩ | ⟨x, hx, hxb, -, rfl⟩ := h.busy_cases hy hb
  · rw [Slot.operands_settle, busy_freshSlot, if_pos rfl, operands_freshSlot, List.map_map, List.mem_map] at hw
    obtain ⟨q, -, hq⟩ := hw
    obtain ⟨hcap, hno⟩ := Entry.settle_eq_tag hq
    have hread : readReg s q = some (.tag w) := by
      cases he : readReg s q with
      | none => simp [captured, he] at hcap
      | some e => rw [← captured_of_readReg he, hcap]
    obtain ⟨hp, x, hx, hxb, -, -⟩ := registerTags_of_inv hinv hread
    obtain ⟨z, hz, hzb, howner⟩ := h.unresolved hx hxb hp hno
    refine ⟨hp, z, hz, hzb, ?_⟩
    rw [howner, Slot.owner_settle, owner_freshSlot]
    exact (busyOwner_of_inv hinv hx hxb).1
  · rw [Slot.operands_settle, Slot.busy_tick, if_pos hxb, Slot.operands_tick, List.mem_map] at hw
    obtain ⟨e, he, hsettle⟩ := hw
    obtain ⟨rfl, hno⟩ := Entry.settle_eq_tag hsettle
    obtain ⟨hp, x', hx', hxb', hlt⟩ := operandTags_of_inv hinv hx hxb he
    obtain ⟨z, hz, hzb, howner⟩ := h.unresolved hx' hxb' hp hno
    exact ⟨hp, z, hz, hzb, by simpa [howner] using hlt⟩

theorem stepped_freeSlots {u : Tag} {y : Slot} (hy : slotAt t u = some y) (hb : y.view.busy = false) :
    ∀ e ∈ y.operands, e.isVal = true := by
  rw [← List.all_eq_true, ← Slot.view_ready]
  obtain ⟨i, r, -, -, rfl⟩ | ⟨x, hx, -, rfl⟩ := h.slot_cases hy
  · simp at hb
  · cases hc : completesNext s u with
    | true =>
      obtain ⟨x', hx', -, hready, -⟩ := completesNext_eq_true_iff.1 hc
      cases hx.symm.trans hx'
      simpa [slotNext, hc] using hready
    | false =>
      have hxb : x.view.busy = false := by simpa [slotNext, hc] using hb
      rw [slotNext, hc, if_neg Bool.false_ne_true, x.tick.settle_eq_self cdb (.inl (by simpa using hxb))]
      simpa using freeSlots_of_inv hinv hx hxb

theorem stepped_busyTimer {u : Tag} {y : Slot} (hy : slotAt t u = some y) (hb : y.view.busy = true) :
    1 ≤ y.view.timer ∧ ∃ i, recordAt t y.view.owner = some i ∧ y.view.timer ≤ latOf t.cfg (instrOpcode i) ∧
      slotHolds t u i = true := by
  obtain ⟨i, r, hir, rfl, rfl⟩ | ⟨x, hx, hxb, hc, rfl⟩ := h.busy_cases hy hb
  · obtain ⟨hi, -⟩ := allocNext_eq_some.1 hir
    obtain ⟨hlat, -⟩ := hinv.config
    rw [h.recordAt_eq, Slot.timer_settle, timer_freshSlot, Slot.owner_settle, owner_freshSlot, h.cfg]
    exact ⟨(latencyWellFormed_latOf hlat _).1, i, hi, le_rfl, slotHolds_iff.2 ⟨rfl, _, hy, by simp⟩⟩
  · obtain ⟨hpos, i, hi, hle, hclass, hlabel⟩ := busyTimer_of_inv hinv hx hxb
    rw [completesNext_of_slotAt hx] at hc
    rw [h.recordAt_eq, Slot.timer_settle, Slot.timer_tick, Slot.owner_settle, Slot.owner_tick, h.cfg, Claims.timerNext]
    refine ⟨?_, i, hi, ?_, slotHolds_iff.2 ⟨hclass, _, hy, by simpa using hlabel⟩⟩
    · split
      next hcount =>
        have : x.view.timer ≠ 1 := by simpa [hcount.1, hcount.2] using hc
        omega
      next => exact hpos
    · split <;> omega

theorem stepped_busyElapsed {u : Tag} {y : Slot} (hy : slotAt t u = some y) (hb : y.view.busy = true) :
    ∃ i, recordAt t y.view.owner = some i ∧ ∃ z, t.ts[y.view.owner]? = some z ∧
      z.issue + latOf t.cfg (instrOpcode i) ≤ t.cycle + y.view.timer := by
  obtain ⟨i, r, hir, -, rfl⟩ | ⟨x, hx, hxb, -, rfl⟩ := h.busy_cases hy hb
  · obtain ⟨hi, -⟩ := allocNext_eq_some.1 hir
    rw [Slot.owner_settle, owner_freshSlot, h.recordAt_eq, Slot.timer_settle, timer_freshSlot, h.cfg, h.cycle,
      h.freshStamp i r hir]
    exact ⟨i, hi, _, rfl, le_rfl⟩
  · obtain ⟨i, hi, z, hz, hle⟩ := busyElapsed_of_inv hinv hx hxb
    obtain ⟨hlt, -⟩ := busyOwner_of_inv hinv hx hxb
    rw [Slot.owner_settle, Slot.owner_tick, h.recordAt_eq, Slot.timer_settle, Slot.timer_tick, h.cfg, h.cycle,
      h.stamps_of_lt hlt, hz]
    refine ⟨i, hi, _, rfl, ?_⟩
    rw [stampNext_issue, Claims.timerNext]
    split <;> omega

theorem stepped_retired : ∀ k, k < t.ts.length → ∀ y ∈ t.ts[k]?, y.wb ≠ 0 → y.exec = y.wb ∧ y.wb ≤ t.cycle ∧
    ∃ i ∈ recordAt t k, y.issue + latOf t.cfg (instrOpcode i) ≤ y.exec := by
  intro k _ y hy hwb
  rw [h.recordAt_eq, h.cfg, h.cycle]
  obtain ⟨-, -, rfl⟩ | ⟨z, hz, rfl⟩ := h.stamp_cases hy
  · exact absurd rfl hwb
  · cases hc : ownerCompletes s k with
    | true =>
      obtain ⟨u, hu, hk⟩ := ownerCompletes_eq_true_iff.1 hc
      obtain ⟨x, hx, hb, -, ht⟩ := completesNext_eq_true_iff.1 hu
      obtain ⟨i, hi, z', hz', hle⟩ := busyElapsed_of_inv hinv hx hb
      have howner : x.view.owner = k := Option.some.inj ((ownerOf_of_slotAt hx).symm.trans hk)
      rw [howner] at hi hz'
      cases hz.symm.trans hz'
      rw [ht] at hle
      simpa [stampNext, hc] using ⟨i, hi, hle⟩
    | false =>
      rw [stampNext_of_not hc] at hwb ⊢
      obtain ⟨hexec, hle, hlat⟩ := hinv.retired k (List.getElem?_eq_some_iff.1 hz).1 z hz hwb
      exact ⟨hexec, by omega, hlat⟩

theorem stepped_inFlight {k : Nat} {y : Stamp} (hk : k < t.pc) (hy : t.ts[k]? = some y) (hwb : y.wb = 0) :
    ∃ u z, slotAt t u = some z ∧ z.view.busy = true ∧ z.view.owner = k := by
  obtain hlt | ⟨rfl, i, r, hir⟩ := h.lt_pc_cases hk
  · rw [h.stamps_of_lt hlt, Option.map_eq_some_iff] at hy
    obtain ⟨z, hz, rfl⟩ := hy
    have hno : ownerCompletes s k = false := Bool.eq_false_iff.2 fun hc => by simp [stampNext, hc] at hwb
    rw [stampNext_of_not hno] at hwb
    obtain ⟨u, x, hx, hb, howner⟩ := inFlight_of_inv hinv hlt hz hwb
    have hc : completesNext s u = false := Bool.eq_false_iff.2 fun hc =>
      Bool.eq_false_iff.1 hno (ownerCompletes_eq_true_iff.2 ⟨u, hc, howner ▸ ownerOf_of_slotAt hx⟩)
    exact ⟨u, _, h.slotAt_of_busy hx hb hc, by simpa using hb, by simpa using howner⟩
  · exact ⟨_, _, h.slotFresh i r hir, by simp, by simp⟩

/-- The invariants after the step, but for the fault latch, which is the budget's. -/
theorem stepped_inv (hf : ∀ f ∈ t.fault, faultCode f ≠ 16) : t.Inv := by
  have hslot : ∀ {u : Tag} {v : SlotView}, v ∈ slotView t u → ∃ y, slotAt t u = some y ∧ y.view = v :=
    slotView_eq_some_iff.1
  exact {
    shape := h.shape
    config := h.cfg ▸ hinv.config
    records := fun k hk => by
      rw [h.recordAt_eq]
      exact hinv.records k (h.prog ▸ hk)
    programFits := by
      rw [h.prog, h.cfg]
      exact hinv.programFits
    pcRange := stepped_pcRange hinv h
    memoryWf := (stepped_memory hinv h).1
    memoryInside := (stepped_memory hinv h).2
    unissued := stepped_unissued hinv h
    issued := stepped_issued hinv h
    issueOrder := stepped_issueOrder hinv h
    busyOwner := fun u _ v hv hb => by
      obtain ⟨y, hy, rfl⟩ := hslot hv
      exact stepped_busyOwner hinv h hy hb
    ownersDiffer := fun u _ w _ v hv v' hv' hb hb' => by
      obtain ⟨y, hy, rfl⟩ := hslot hv
      obtain ⟨y', hy', rfl⟩ := hslot hv'
      exact stepped_ownersDiffer hinv h hy hy' hb hb'
    registerTags := fun q _ e he w hw => by
      cases e with
      | value a => cases hw
      | tag w' =>
        cases hw
        obtain ⟨hp, y, hy, hb, hdest, hlater⟩ := stepped_registerTags hinv h he
        exact ⟨hp, y.view, slotView_of_slotAt hy, hb, hdest, hlater⟩
    operandTags := fun u _ v hv hb e he w hw => by
      obtain ⟨y, hy, rfl⟩ := hslot hv
      rw [slotOperands_of_slotAt hy] at he
      cases e with
      | value a => cases hw
      | tag w' =>
        cases hw
        obtain ⟨hp, z, hz, hzb, hlt⟩ := stepped_operandTags hinv h hy hb he
        exact ⟨hp, z.view, slotView_of_slotAt hz, hzb, hlt⟩
    freeSlots := fun u _ v hv hb e he => by
      obtain ⟨y, hy, rfl⟩ := hslot hv
      exact stepped_freeSlots hinv h hy hb e (slotOperands_of_slotAt hy ▸ he)
    busyTimer := fun u _ v hv hb => by
      obtain ⟨y, hy, rfl⟩ := hslot hv
      exact stepped_busyTimer hinv h hy hb
    busyElapsed := fun u _ v hv hb => by
      obtain ⟨y, hy, rfl⟩ := hslot hv
      exact stepped_busyElapsed hinv h hy hb
    retired := stepped_retired hinv h
    inFlight := fun k hk y hy hwb => by
      obtain ⟨u, z, hz, hb, howner⟩ := stepped_inFlight hinv h hk hy hwb
      exact ⟨u, mem_scanOrder_of_slotAt hz, z.view, slotView_of_slotAt hz, hb, howner⟩
    noBreach := hf }

end

/-- A step from an unfaulted state that meets the invariants, with its bus trace. -/
theorem stepped_of_step {s t : State} (hinv : s.Inv) (hf : s.fault = none) (h : step s = .next t) :
    ∃ o, runCycle s = .next (t, o) ∧ Stepped s t o.cdb := by
  obtain ⟨o, hrun⟩ := step_eq_next_iff.1 h
  exact ⟨o, hrun, stepped_of_runCycle hinv hf hrun⟩

/-- Settles O12: a frozen machine is as before, and every other step is described by `Stepped`. -/
theorem stepKeepsInvariants : Obligations.StepKeepsInvariants := by
  intro s t hinv hstep
  by_cases hf : s.fault = none
  · obtain ⟨o, -, h⟩ := stepped_of_step hinv hf hstep
    refine stepped_inv hinv h fun f hfault => ?_
    cases f with
    | operandKind u k => exact absurd hfault (noStepRaisesOperandKind s t u k hf hstep)
    | nonTermination c => simp [faultCode]
  · rw [step_of_fault_ne_none hf] at hstep
    cases hstep
    exact hinv

end Sys2Proof.Machine
end

section
/-! SUPPORT. What a step from a state that meets the invariants does to each slot, register and cell (R62, 20_memory;
R143, 41_countdown; R155 to R169, 42_writeback_broadcast). -/

namespace Sys2Proof.Machine

/-! ### The kind of a slot is that of its pool -/

section
variable {s : State} {u : Tag} {z : Slot} (hz : slotAt s u = some z)
include hz

theorem arith_of_slotAt (hl : u.pool ≠ .load) (hs : u.pool ≠ .store) : ∃ y, z = .arith y := by
  cases z with
  | arith y => exact ⟨y, rfl⟩
  | load y => exact absurd (pool_of_slotAt_load hz) hl
  | store y => exact absurd (pool_of_slotAt_store hz) hs

theorem store_of_slotAt (hs : u.pool = .store) : ∃ y, z = .store y := by
  cases z with
  | arith y => exact absurd hs (pool_of_slotAt_arith hz).2
  | load y => exact absurd ((pool_of_slotAt_load hz).symm.trans hs) (by decide)
  | store y => exact ⟨y, rfl⟩

end

/-! ### A slot with one cycle left, after its countdown and its write-back -/

theorem free_tick_arith {x : ArithSlot} (hb : x.busy = true) (hr : x.ready = true) (ht : x.timer = 1) :
    (Slot.arith x).tick.free = .arith { x with busy := false, timer := 0 } := by
  have hready : ({ x with busy := false, timer := 0 } : ArithSlot).ready = true := hr
  refine Slot.ext_of_reads ?_ (by simp) (by simp)
  simp [Slot.view_tick, Claims.timerNext, ArithSlot.view, hb, hr, ht, hready]

theorem free_tick_load {x : LoadSlot} (hb : x.busy = true) (ht : x.timer = 1) :
    (Slot.load x).tick.free = .load { x with busy := false, timer := 0 } := by
  refine Slot.ext_of_reads ?_ (by simp) (by simp)
  simp [Slot.view_tick, Claims.timerNext, LoadSlot.view, hb, ht]

theorem free_tick_store {x : StoreSlot} (hb : x.busy = true) (hr : x.ready = true) (ht : x.timer = 1) :
    (Slot.store x).tick.free = .store { x with busy := false, timer := 0 } := by
  have hready : ({ x with busy := false, timer := 0 } : StoreSlot).ready = true := hr
  refine Slot.ext_of_reads ?_ (by simp) (by simp)
  simp [Slot.view_tick, Claims.timerNext, StoreSlot.view, hb, hr, ht, hready]

/-! ### The write-back of a completing slot -/

section
variable {s t : State} {cdb : List Txn} (h : Stepped s t cdb)
include h

/-- The owner of a completing slot gets both stamps. -/
theorem Stepped.writtenBack (hinv : s.Inv) {u : Tag} {x : Slot} (hx : slotAt s u = some x)
    (hc : completesNext s u = true) : Claims.WrittenBack s t x.view.owner := by
  obtain ⟨y, hy, hb, -, -⟩ := completesNext_eq_true_iff.1 hc
  cases hx.symm.trans hy
  have howner : ownerCompletes s x.view.owner = true := ownerCompletes_eq_true_iff.2 ⟨u, hc, ownerOf_of_slotAt hx⟩
  rw [Claims.WrittenBack, h.stamps_of_lt (busyOwner_of_inv hinv hx hb).1]
  exact Option.map_congr fun y _ => by simp [stampNext, howner]

/-- The operand registers of every slot that was busy, after the step: forwarded, or, where the slot completes, values
that nothing on the bus changes. -/
theorem Stepped.operands_of_busy {w : Tag} {x : Slot} (hx : slotAt s w = some x) (hb : x.view.busy = true) :
    ∃ z, slotAt t w = some z ∧ z.operands = x.operands.map (Entry.settle cdb) := by
  cases hc : completesNext s w with
  | true =>
    obtain ⟨y, hy, -, hready, -⟩ := completesNext_eq_true_iff.1 hc
    cases hx.symm.trans hy
    have hself := congrArg Slot.operands (x.settle_eq_self cdb (.inr hready))
    rw [Slot.operands_settle, if_pos hb] at hself
    exact ⟨_, h.slotAt_of_completes hx hc, by simp [hself]⟩
  | false =>
    refine ⟨_, h.slotAt_of_busy hx hb hc, ?_⟩
    rw [Slot.operands_settle, Slot.busy_tick, if_pos hb, Slot.operands_tick]

/-- A transaction of the step reaches every holder of its tag. -/
theorem Stepped.delivered {u : Tag} {v : Val} (hbus : (u, v) ∈ cdb) : Claims.Delivered s t u v := by
  have hsettle : ∀ {e f : Entry}, f = e.settle cdb → e = .tag u → f = .value v := by
    rintro e f rfl rfl
    exact Entry.settle_tag_of_mem h.nodup_bus hbus
  have harith : ∀ {p : Pool} {r : Nat} {x : ArithSlot}, (arithSlots s p)[r]? = some x → x.busy = true →
      ∃ y, (arithSlots t p)[r]? = some y ∧ (x.j = .tag u → y.j = .value v) ∧ (x.k = .tag u → y.k = .value v) := by
    intro p r x hx hb
    have hx : slotAt s { pool := p, rank := r } = some (.arith x) := slotAt_arith.2 hx
    obtain ⟨hl, hs⟩ := pool_of_slotAt_arith hx
    obtain ⟨z, hz, hops⟩ := h.operands_of_busy hx hb
    obtain ⟨y, rfl⟩ := arith_of_slotAt hz hl hs
    obtain ⟨hj, hk⟩ : y.j = x.j.settle cdb ∧ y.k = x.k.settle cdb := by simpa using hops
    exact ⟨y, slotAt_arith.1 hz, hsettle hj, hsettle hk⟩
  refine ⟨fun q hq hren => ?_, fun r x => harith (p := .add), fun r x => harith (p := .mul), fun r x hx hb => ?_⟩
  · rw [h.registers q hren, hq, Option.map_some, Entry.settle_tag_of_mem h.nodup_bus hbus]
  · obtain ⟨z, hz, hops⟩ := h.operands_of_busy (slotAt_store.2 hx) hb
    obtain ⟨y, rfl⟩ := store_of_slotAt hz rfl
    have hj : y.j = x.j.settle cdb := by simpa using hops
    exact ⟨y, slotAt_store.1 hz, hsettle hj⟩

end

/-- Settles O42: the slot completes, its result is on the bus, and the bus reaches every holder. -/
theorem arithmeticWritesBack : Obligations.ArithmeticWritesBack := by
  intro s t o u x a b hinv hf hrun hx hb hj hk ht
  have h := stepped_of_runCycle hinv hf hrun
  have hx : slotAt s u = some (.arith x) := slotAt_arith.2 hx
  have hready : x.ready = true := by simp [ArithSlot.ready, hj, hk, Entry.isVal]
  have hc : completesNext s u = true := completesNext_eq_true_iff.2 ⟨_, hx, hb, hready, ht⟩
  obtain ⟨y, hy, hw⟩ := h.writesBack u hc
  cases hx.symm.trans hy
  obtain ⟨a', b', v, hj', hk', hv⟩ := hw
  cases hj.symm.trans hj'
  cases hk.symm.trans hk'
  have hbus : (u, v) ∈ o.cdb := h.mem_bus.2 ⟨hc, _, hx, by simp [Slot.result, hj, hk, hv]⟩
  refine ⟨v, hv, hbus, ?_, h.writtenBack hinv hx hc, h.delivered hbus⟩
  rw [← slotAt_arith, h.slotAt_of_completes hx hc, free_tick_arith hb hready ht]

/-- Settles O43: the result of a load slot is read from the memory before the step. -/
theorem loadWritesBack : Obligations.LoadWritesBack := by
  intro s t o r x hinv hf hrun hx hb ht
  have h := stepped_of_runCycle hinv hf hrun
  have hx : slotAt s { pool := .load, rank := r } = some (.load x) := slotAt_load.2 hx
  have hc : completesNext s { pool := .load, rank := r } = true :=
    completesNext_eq_true_iff.2 ⟨_, hx, hb, rfl, ht⟩
  have hbus : (({ pool := .load, rank := r }, Memory.read s.mem x.addr) : Txn) ∈ o.cdb :=
    h.mem_bus.2 ⟨hc, _, hx, rfl⟩
  refine ⟨hbus, ?_, h.writtenBack hinv hx hc, h.delivered hbus⟩
  rw [← slotAt_load, h.slotAt_of_completes hx hc, free_tick_load hb ht]

/-! ### The memory after the step -/

theorem Memory.wf_writes {m : Memory} (l : List (Nat × Val)) (h : Memory.wf m = true) :
    Memory.wf (Memory.writes m l) = true := by
  induction l generalizing m with
  | nil => exact h
  | cons c l ih => exact ih (Memory.wf_write c.1 c.2 h)

theorem Memory.read_writes_of_ne {m : Memory} {l : List (Nat × Val)} {a : Nat} (h : ∀ c ∈ l, c.1 ≠ a) :
    Memory.read (Memory.writes m l) a = Memory.read m a := by
  induction l generalizing m with
  | nil => rfl
  | cons c l ih =>
    exact (ih fun d hd => h d (List.mem_cons_of_mem c hd)).trans
      (Memory.read_write_other c.2 (h c List.mem_cons_self).symm)

/-- The last write to a cell counts. -/
theorem Memory.read_writes_last {m : Memory} {l₁ l₂ : List (Nat × Val)} {a : Nat} {v : Val} (hm : Memory.wf m = true)
    (h : ∀ c ∈ l₂, c.1 ≠ a) : Memory.read (Memory.writes m (l₁ ++ (a, v) :: l₂)) a = v := by
  have hsplit : Memory.writes m (l₁ ++ (a, v) :: l₂) = Memory.writes (Memory.write (Memory.writes m l₁) a v) l₂ :=
    List.foldl_append
  rw [hsplit, Memory.read_writes_of_ne h, Memory.read_write_same a v (Memory.wf_writes l₁ hm)]

theorem storedOf_eq_some {s : State} {u : Tag} {c : Nat × Val} :
    storedOf s u = some c ↔ ∃ x : StoreSlot, slotAt s u = some (.store x) ∧ x.j = .value c.2 ∧ x.addr = c.1 := by
  obtain ⟨a, v⟩ := c
  rw [storedOf, Option.bind_eq_some_iff]
  constructor
  · rintro ⟨y, hy, hst⟩
    cases y with
    | arith x => cases hst
    | load x => cases hst
    | store x =>
      cases hj : x.j with
      | tag w => simp [Slot.stored, hj] at hst
      | value w =>
        simp only [Slot.stored, hj, Option.some.injEq, Prod.mk.injEq] at hst
        exact ⟨x, hy, hj.trans (congrArg Entry.value hst.2), hst.1⟩
  · rintro ⟨x, hx, hj, ha⟩
    exact ⟨_, hx, by simp [Slot.stored, hj, ha]⟩

/-- Settles O44: the store slots are scanned by increasing rank, so a higher one overwrites the cell. -/
theorem storeWritesBack : Obligations.StoreWritesBack := by
  intro s t o r x v hinv hf hrun hx hb hj ht
  have h := stepped_of_runCycle hinv hf hrun
  have hx : slotAt s { pool := .store, rank := r } = some (.store x) := slotAt_store.2 hx
  have hready : x.ready = true := by simp [StoreSlot.ready, hj, Entry.isVal]
  have hc : completesNext s { pool := .store, rank := r } = true :=
    completesNext_eq_true_iff.2 ⟨_, hx, hb, hready, ht⟩
  refine ⟨?_, h.writtenBack hinv hx hc, fun w hw => ?_, fun hlast => ?_⟩
  · rw [← slotAt_store, h.slotAt_of_completes hx hc, free_tick_store hb hready ht]
  · exact (h.mem_bus_tags.1 (List.mem_map_of_mem hw)).2 rfl
  · obtain ⟨before, later, hsplit⟩ := List.append_of_mem (mem_completing.2 hc)
    have hpair := (storesLast_scanOrder s).filter (completesNext s)
    rw [← completing, hsplit, List.pairwise_append, List.pairwise_cons] at hpair
    obtain ⟨-, ⟨hhigher, -⟩, -⟩ := hpair
    rw [h.mem, hsplit, List.filterMap_append,
      List.filterMap_cons_some (storedOf_eq_some.2 ⟨x, hx, hj, rfl⟩ : storedOf s _ = some (x.addr, v))]
    refine Memory.read_writes_last hinv.memoryWf fun c hmem => ?_
    obtain ⟨w, hw, hst⟩ := List.mem_filterMap.1 hmem
    obtain ⟨z, hz, -, haddr⟩ := storedOf_eq_some.1 hst
    obtain ⟨hpool, hrank⟩ := hhigher w hw rfl
    have hwc : completesNext s w = true := mem_completing.1 (by rw [hsplit]; simp [hw])
    obtain ⟨p, r'⟩ := w
    cases hpool
    exact haddr ▸ hlast r' z hrank (slotAt_store.1 hz) hwc

/-- Settles O45: the writes of a step are those of the completing store slots. -/
theorem stepChangesOnlyStoredCells : Obligations.StepChangesOnlyStoredCells := by
  intro s t a hinv hstep hno
  by_cases hf : s.fault = none
  · obtain ⟨o, -, h⟩ := stepped_of_step hinv hf hstep
    rw [h.mem]
    refine Memory.read_writes_of_ne fun c hc => ?_
    obtain ⟨⟨p, r⟩, hu, hst⟩ := List.mem_filterMap.1 hc
    obtain ⟨x, hx, -, haddr⟩ := storedOf_eq_some.1 hst
    cases pool_of_slotAt_store hx
    exact haddr ▸ hno r x (slotAt_store.1 hx) (mem_completing.1 hu)
  · rw [step_of_fault_ne_none hf] at hstep
    cases hstep
    rfl

/-! ### What a step leaves alone -/

/-- An entry whose slot does not complete keeps what it holds. -/
theorem Stepped.settle_of_not_resolved {s t : State} {cdb : List Txn} (h : Stepped s t cdb) {e : Entry}
    (he : Claims.NotResolvedNext s e) : e.settle cdb = e := by
  cases e with
  | value v => exact Entry.settle_value cdb v
  | tag u =>
    refine Entry.settle_tag_of_notMem fun hmem => ?_
    have hc := (h.mem_bus_tags.1 hmem).1
    rw [he u rfl] at hc
    cases hc

/-- Settles O46: a register that is not renamed takes only what the bus resolves. -/
theorem stepChangesOnlyNamedRegisters : Obligations.StepChangesOnlyNamedRegisters := by
  intro s t q e hinv hstep hq hren he
  by_cases hf : s.fault = none
  · obtain ⟨o, -, h⟩ := stepped_of_step hinv hf hstep
    rw [h.registers q hren, hq, Option.map_some, h.settle_of_not_resolved he]
  · rw [step_of_fault_ne_none hf] at hstep
    cases hstep
    exact hq

/-- The operand registers of a slot that the step neither allocates nor completes. -/
theorem operands_settle_tick (cdb : List Txn) (x : Slot) :
    (x.tick.settle cdb).operands = x.operands.map fun e => if x.view.busy then e.settle cdb else e := by
  rw [Slot.operands_settle, Slot.busy_tick, Slot.operands_tick]
  cases x.view.busy <;> simp

section
variable {s t : State} {cdb : List Txn} (h : Stepped s t cdb)
include h

/-- What the bus does not resolve stays as it is, whether or not the slot is busy. -/
theorem Stepped.operand_kept {e f : Entry} {b : Bool} (hf : f = if b then e.settle cdb else e)
    (he : Claims.NotResolvedNext s e) : f = e := by
  rw [hf, h.settle_of_not_resolved he, ite_self]

variable {u : Tag} (hc : completesNext s u = false) (ha : ¬ Claims.AllocatedNext s u)
include hc ha

theorem Stepped.slotAt_of_kept {x : Slot} (hx : slotAt s u = some x) : slotAt t u = some (x.tick.settle cdb) := by
  rw [h.slots u (notAllocNext_iff.2 ha), hx, Option.map_some, slotNext, hc]
  rfl

theorem Stepped.arith_kept {x : ArithSlot} (hx : slotAt s u = some (.arith x)) :
    ∃ y, slotAt t u = some (.arith y) ∧ y.busy = x.busy ∧ y.op = x.op ∧ y.owner = x.owner ∧
      y.timer = Claims.timerNext x.view ∧
      (Claims.NotResolvedNext s x.j → y.j = x.j) ∧ (Claims.NotResolvedNext s x.k → y.k = x.k) := by
  obtain ⟨hl, hs⟩ := pool_of_slotAt_arith hx
  have hz := h.slotAt_of_kept hc ha hx
  obtain ⟨y, hy⟩ := arith_of_slotAt hz hl hs
  have hops := operands_settle_tick cdb (.arith x)
  have hview := congrArg Slot.view hy
  have hlabel := congrArg Slot.label hy
  rw [hy] at hz hops
  obtain ⟨hj, hk⟩ : y.j = _ ∧ y.k = _ := by simpa using hops
  refine ⟨y, hz, ?_, ?_, ?_, ?_, h.operand_kept hj, h.operand_kept hk⟩
  · exact (congrArg SlotView.busy hview).symm.trans (by simp [ArithSlot.view])
  · exact Sum.inl.inj (hlabel.symm.trans (by simp))
  · exact (congrArg SlotView.owner hview).symm.trans (by simp [ArithSlot.view])
  · exact (congrArg SlotView.timer hview).symm.trans (by simp)

theorem Stepped.load_kept {x : LoadSlot} (hx : slotAt s u = some (.load x)) :
    slotAt t u = some (.load { x with timer := Claims.timerNext x.view }) := by
  rw [h.slotAt_of_kept hc ha hx, Slot.settle_eq_self cdb (.inr (by simp [LoadSlot.view]))]
  exact congrArg some (Slot.ext_of_reads (by rw [Slot.view_tick]; rfl) (by simp) (by simp))

theorem Stepped.store_kept (hu : u.pool = .store) {x : StoreSlot} (hx : slotAt s u = some (.store x)) :
    ∃ y, slotAt t u = some (.store y) ∧ y.busy = x.busy ∧ y.addr = x.addr ∧ y.owner = x.owner ∧
      y.timer = Claims.timerNext x.view ∧ (Claims.NotResolvedNext s x.j → y.j = x.j) := by
  have hz := h.slotAt_of_kept hc ha hx
  obtain ⟨y, hy⟩ := store_of_slotAt hz hu
  have hops := operands_settle_tick cdb (.store x)
  have hview := congrArg Slot.view hy
  have hlabel := congrArg Slot.label hy
  rw [hy] at hz hops
  have hj : y.j = if (Slot.store x).view.busy then x.j.settle cdb else x.j := by simpa using hops
  refine ⟨y, hz, ?_, ?_, ?_, ?_, h.operand_kept hj⟩
  · exact (congrArg SlotView.busy hview).symm.trans (by simp [StoreSlot.view])
  · exact Sum.inr.inj (hlabel.symm.trans (by simp))
  · exact (congrArg SlotView.owner hview).symm.trans (by simp [StoreSlot.view])
  · exact (congrArg SlotView.timer hview).symm.trans (by simp)

end

/-- Settles O47: such a slot is counted and forwarded. -/
theorem stepKeepsOtherSlots : Obligations.StepKeepsOtherSlots := by
  intro s t hinv hf hstep
  obtain ⟨o, -, h⟩ := stepped_of_step hinv hf hstep
  refine ⟨fun p r x hx hc ha => ?_, fun r x hx hc ha => ?_, fun r x hx hc ha => ?_⟩
  · obtain ⟨y, hy, hfields⟩ := h.arith_kept hc ha (slotAt_arith.2 hx)
    exact ⟨y, slotAt_arith.1 hy, hfields⟩
  · exact slotAt_load.1 (h.load_kept hc ha (slotAt_load.2 hx))
  · obtain ⟨y, hy, hfields⟩ := h.store_kept hc ha rfl (slotAt_store.2 hx)
    exact ⟨y, slotAt_store.1 hy, hfields⟩

/-! ### The bus of the step -/

/-- Settles O48: the fresh slot's operand registers take what is on the bus of the same step. -/
theorem sameCycleCaptureIsResolved : Obligations.SameCycleCaptureIsResolved := by
  intro s t o i n r q u v hinv hf hrun hi hr hq hread hbus
  have h := stepped_of_runCycle hinv hf hrun
  have hslot := h.slotFresh i r (allocNext_eq_some.2 ⟨hi, hr⟩)
  refine ⟨_, slotView_of_slotAt hslot, by simp, by simp, ?_⟩
  rw [slotOperands_of_slotAt hslot, Slot.operands_settle, busy_freshSlot, if_pos rfl, operands_freshSlot,
    List.getElem?_map, List.getElem?_map, hq, Option.map_some, Option.map_some, captured_of_readReg hread,
    Entry.settle_tag_of_mem h.nodup_bus hbus]

/-- Settles O49: the completing slots are scanned in their order, and all but the store slots have a result. -/
theorem busTraceFollowsScanOrder : Obligations.BusTraceFollowsScanOrder :=
  fun _ _ _ hinv hf hrun => (stepped_of_runCycle hinv hf hrun).bus_tags

/-- Settles O51: the slot is free after the step, and the invariants let a tag name busy slots alone. -/
theorem noTagAfterWriteback : Obligations.NoTagAfterWriteback := by
  intro s t u hinv hf hstep hc
  obtain ⟨o, -, h⟩ := stepped_of_step hinv hf hstep
  have htinv : t.Inv := stepKeepsInvariants s t hinv hstep
  obtain ⟨x, hx, -⟩ := completesNext_eq_true_iff.1 hc
  have hslot := h.slotAt_of_completes hx hc
  have hfree : ∀ {y}, slotAt t u = some y → y.view.busy ≠ true := fun hy => by
    cases hslot.symm.trans hy
    simp
  refine ⟨?_, fun q hq => ?_, ?_⟩
  · rintro ⟨v, hv, hb⟩
    obtain ⟨y, hy, rfl⟩ := slotView_eq_some_iff.1 hv
    exact hfree hy hb
  · obtain ⟨-, y, hy, hb, -⟩ := registerTags_of_inv htinv hq
    exact hfree hy hb
  · rintro w ⟨v, hv, hb⟩ hmem
    obtain ⟨z, hz, rfl⟩ := slotView_eq_some_iff.1 hv
    rw [slotOperands_of_slotAt hz] at hmem
    obtain ⟨-, y, hy, hyb, -⟩ := operandTags_of_inv htinv hz hb hmem
    exact hfree hy hyb

end Sys2Proof.Machine
end

section
/-! SUPPORT. Runs: what `done` means, the driver, and the invariants along a run (R190 to R194, 43_cycle_driver). -/

namespace Sys2Proof.Machine

/-! ### Done (R190, R191, 43_cycle_driver) -/

theorem allSlotsFree_iff {s : State} : AllSlotsFree s ↔ ∀ u x, slotAt s u = some x → x.view.busy = false := by
  constructor
  · intro h u x hx
    exact Bool.eq_false_iff.2 fun hb => h u (mem_scanOrder_of_slotAt hx) ⟨x.view, slotView_of_slotAt hx, hb⟩
  · rintro h u - ⟨v, hv, hb⟩
    obtain ⟨x, hx, rfl⟩ := slotView_eq_some_iff.1 hv
    rw [h u x hx] at hb
    cases hb

/-- A record without a write-back stamp has not issued, or it is in flight. -/
theorem exists_busy_of_not_done {s : State} (hinv : s.Inv) (hpc : s.pc = s.prog.length) (h : done s = false) :
    ∃ u x, slotAt s u = some x ∧ x.view.busy = true := by
  have hnot : ¬ ∀ y ∈ s.ts, y.wb ≠ 0 := by rw [← done_eq_true_iff, h]; exact Bool.false_ne_true
  simp only [not_forall, not_not] at hnot
  obtain ⟨y, hmem, hwb⟩ := hnot
  obtain ⟨k, hy⟩ := List.getElem?_of_mem hmem
  have hk : k < s.pc := by
    rw [hpc, ← hinv.shape.ts]
    exact (List.getElem?_eq_some_iff.1 hy).1
  obtain ⟨u, x, hx, hb, -⟩ := inFlight_of_inv hinv hk hy hwb
  exact ⟨u, x, hx, hb⟩

theorem done_iff_drained {s : State} (hinv : s.Inv) :
    done s = true ↔ s.pc = s.prog.length ∧ AllSlotsFree s := by
  constructor
  · intro hdone
    have hwb := done_eq_true_iff.1 hdone
    refine ⟨?_, allSlotsFree_iff.2 fun u x hx => Bool.eq_false_iff.2 fun hb => ?_⟩
    · refine le_antisymm hinv.pcRange (Nat.le_of_not_lt fun hlt => ?_)
      have hun := hinv.unissued s.pc (hinv.shape.ts ▸ hlt) le_rfl
      exact hwb _ (List.mem_of_getElem? hun) rfl
    · obtain ⟨-, y, hy, -, hno⟩ := busyOwner_of_inv hinv hx hb
      exact hwb y (List.mem_of_getElem? hy) hno
  · rintro ⟨hpc, hfree⟩
    refine Bool.of_not_eq_false fun hno => ?_
    obtain ⟨u, x, hx, hb⟩ := exists_busy_of_not_done hinv hpc hno
    rw [allSlotsFree_iff.1 hfree u x hx] at hb
    cases hb

/-- Settles O53: an issued record without a write-back stamp occupies a slot. -/
theorem doneMeansDrained : Obligations.DoneMeansDrained :=
  fun _ => done_iff_drained

theorem done_eq_false_of_pc_lt {s : State} (hinv : s.Inv) (h : s.pc < s.prog.length) : done s = false :=
  Bool.eq_false_iff.2 fun hdone => h.ne ((done_iff_drained hinv).1 hdone).1

theorem map_eq_self {α : Type} {f : α → α} {l : List α} (h : ∀ (r : Nat) (x : α), l[r]? = some x → f x = x) :
    l.map f = l := by
  refine List.ext_getElem? fun r => ?_
  rw [List.getElem?_map]
  cases hr : l[r]? with
  | none => rfl
  | some x => rw [Option.map_some, h r x hr]

/-- With every slot free the countdown changes nothing and hands nothing on. -/
theorem countdownPhase_of_allSlotsFree {s : State} (h : AllSlotsFree s) : countdownPhase s = (s, []) := by
  have hfree := allSlotsFree_iff.1 h
  have helig : eligible s = [] := List.eq_nil_iff_forall_not_mem.2 fun u hu => by
    obtain ⟨v, hv, hc⟩ := mem_eligible.1 hu
    obtain ⟨x, hx, rfl⟩ := slotView_eq_some_iff.1 hv
    obtain ⟨hb, -⟩ := completes_eq_true_iff.1 hc
    rw [hfree u x hx] at hb
    cases hb
  have hcount : ∀ {u : Tag} {x : Slot}, slotAt s u = some x → ¬ counts s.ts s.cycle x.view = true := fun hx => by
    simp [counts, hfree _ _ hx]
  have hadd : s.add.map (ArithSlot.countdown s.ts s.cycle) = s.add := map_eq_self fun r x hr =>
    if_neg (hcount (u := { pool := .add, rank := r }) (x := .arith x) (by simp [slotAt, hr]))
  have hmul : s.mul.map (ArithSlot.countdown s.ts s.cycle) = s.mul := map_eq_self fun r x hr =>
    if_neg (hcount (u := { pool := .mul, rank := r }) (x := .arith x) (by simp [slotAt, hr]))
  have hload : s.load.map (LoadSlot.countdown s.ts s.cycle) = s.load := map_eq_self fun r x hr =>
    if_neg (hcount (u := { pool := .load, rank := r }) (x := .load x) (by simp [slotAt, hr]))
  have hstore : s.store.map (StoreSlot.countdown s.ts s.cycle) = s.store := map_eq_self fun r x hr =>
    if_neg (hcount (u := { pool := .store, rank := r }) (x := .store x) (by simp [slotAt, hr]))
  have hdec : decrementTimers s = s := by
    simp only [decrementTimers, hadd, hmul, hload, hstore]
  rw [countdownPhase, helig, hdec]
  rfl

/-- A step of a done machine counts the cycle and does nothing else (R191, 43_cycle_driver). -/
theorem step_of_done {s : State} (hinv : s.Inv) (hdone : done s = true) (hf : s.fault = none) :
    step s = .next (advanceCycle s) := by
  obtain ⟨hpc, hfree⟩ := (done_iff_drained hinv).1 hdone
  have hissue : issuePhase (advanceCycle s) = .next (advanceCycle s) :=
    issuePhase_of_length_le (s := advanceCycle s) hpc.ge
  have hcount : countdownPhase (advanceCycle s) = (advanceCycle s, []) :=
    countdownPhase_of_allSlotsFree (s := advanceCycle s) hfree
  have hbudget : budgetCheck (advanceCycle s) = advanceCycle s := by
    obtain h | ⟨m, -, -, -, hno, -⟩ := budgetCheck_cases (advanceCycle s)
    · exact h
    · exact absurd (hno.symm.trans hdone) Bool.false_ne_true
  have hafter : afterIssue (advanceCycle s) = .next (advanceCycle s, []) := by
    simp [afterIssue, hcount, writebackPhase, writebackList, hbudget]
  rw [step_of_fault_eq_none hf, hissue, andThen_next, hafter, andThen_next]

/-- Settles O55: with every slot free no tag is left, and every record has retired. -/
theorem stateAtDone : Obligations.StateAtDone := by
  intro s hinv hdone
  obtain ⟨hpc, hfree⟩ := (done_iff_drained hinv).1 hdone
  refine ⟨hfree, fun q e he => ?_, hpc, fun y hy => ?_, step_of_done hinv hdone⟩
  · cases e with
    | value v => rfl
    | tag w =>
      obtain ⟨-, x, hx, hb, -⟩ := registerTags_of_inv hinv he
      rw [allSlotsFree_iff.1 hfree w x hx] at hb
      cases hb
  · obtain ⟨k, hk⟩ := List.getElem?_of_mem hy
    have hlt := (List.getElem?_eq_some_iff.1 hk).1
    have hwb := done_eq_true_iff.1 hdone y hy
    obtain ⟨hexec, -⟩ := hinv.retired k hlt y hk hwb
    obtain ⟨z, hz, hpos, -⟩ := hinv.issued k (by rwa [hpc, ← hinv.shape.ts])
    cases hk.symm.trans hz
    exact ⟨by omega, hexec ▸ hwb, hwb⟩

/-! ### Runs and the driver -/

@[simp] theorem runSteps_zero (s : State) : runSteps 0 s = .next s := rfl

theorem runSteps_succ (n : Nat) (s : State) : runSteps (n + 1) s = andThen (step s) (runSteps n) := by
  unfold runSteps
  cases h : step s <;> simp [Host.Core.run, core, h]

theorem runSteps_succ_of_step {n : Nat} {s s' : State} (h : step s = .next s') :
    runSteps (n + 1) s = runSteps n s' := by
  rw [runSteps_succ, h, andThen_next]

theorem runSteps_succ_eq_next {n : Nat} {s t : State} :
    runSteps (n + 1) s = .next t ↔ ∃ s', step s = .next s' ∧ runSteps n s' = .next t := by
  rw [runSteps_succ, andThen_eq_next]

/-- A frozen machine runs nowhere. -/
theorem runSteps_of_fault_ne_none {s : State} (n : Nat) (h : s.fault ≠ none) : runSteps n s = .next s := by
  induction n with
  | zero => rfl
  | succ n ih => rw [runSteps_succ_of_step (step_of_fault_ne_none h), ih]

theorem driverStops_eq_true {s : State} : driverStops s = true ↔ done s = true ∨ s.fault ≠ none := by
  rw [driverStops, Bool.or_eq_true, Option.isSome_iff_ne_none]

/-- What the driver answers is the state after some number of steps, none from a state at which it stops. -/
theorem drive_eq_next {n : Nat} {s t : State} (h : drive n s = .next t) :
    ∃ m, m ≤ n ∧ runSteps m s = .next t ∧
      (∀ k, k < m → ∃ u, runSteps k s = .next u ∧ done u = false ∧ u.fault = none) ∧
      (m < n → done t = true ∨ t.fault ≠ none) := by
  induction n generalizing s with
  | zero => exact ⟨0, le_rfl, h, fun k hk => absurd hk k.not_lt_zero, fun hlt => absurd hlt (Nat.lt_irrefl 0)⟩
  | succ n ih =>
    cases hs : driverStops s with
    | true =>
      rw [drive_of_stops _ hs] at h
      cases h
      exact ⟨0, Nat.zero_le _, rfl, fun k hk => absurd hk k.not_lt_zero, fun _ => driverStops_eq_true.1 hs⟩
    | false =>
      rw [drive_succ n hs, andThen_eq_next] at h
      obtain ⟨s', hstep, hdrive⟩ := h
      obtain ⟨m, hm, hrun, hgoing, hend⟩ := ih hdrive
      refine ⟨m + 1, Nat.succ_le_succ hm, by rw [runSteps_succ_of_step hstep, hrun], fun k hk => ?_,
        fun hlt => hend (Nat.lt_of_succ_lt_succ hlt)⟩
      cases k with
      | zero => exact ⟨s, rfl, driverStops_eq_false.1 hs⟩
      | succ k =>
        rw [runSteps_succ_of_step hstep]
        exact hgoing k (Nat.lt_of_succ_lt_succ hk)

/-- Settles O54: by induction on the driver's bound; the empty program has no stamp to set. -/
theorem driverRunsUntilTermination : Obligations.DriverRunsUntilTermination := by
  refine ⟨fun n s h => drive_of_stops n (driverStops_eq_true.2 h), fun cfg s n hload => ?_, fun n s t => drive_eq_next⟩
  obtain ⟨-, rfl⟩ := loadMachine_eq_ok.1 hload
  exact drive_of_stops n (driverStops_eq_true.2 (.inl rfl))

/-! ### The invariants along a run -/

/-- Every run from a state that meets the invariants keeps them, and the parameters and the program. -/
theorem runSteps_inv {n : Nat} {s t : State} (hinv : s.Inv) (h : runSteps n s = .next t) :
    t.Inv ∧ t.cfg = s.cfg ∧ t.prog = s.prog := by
  induction n generalizing s with
  | zero =>
    cases h
    exact ⟨hinv, rfl, rfl⟩
  | succ n ih =>
    obtain ⟨s', hstep, hrun⟩ := runSteps_succ_eq_next.1 h
    obtain ⟨hcfg, hprog⟩ := stepKeepsParameters s s' hstep
    obtain ⟨htinv, hcfg', hprog'⟩ := ih (stepKeepsInvariants s s' hinv hstep) hrun
    exact ⟨htinv, hcfg'.trans hcfg, hprog'.trans hprog⟩

/-- Settles O56: the order is an invariant of every retired record. -/
theorem timestampsAreOrdered : Obligations.TimestampsAreOrdered := by
  intro cfg prog s t n k y i hload hrun hy hi hwb
  have hinv := loadedMachineMeetsInvariants cfg prog s hload
  obtain ⟨-, rfl⟩ := loadMachine_eq_ok.1 hload
  obtain ⟨htinv, hcfg, -⟩ := runSteps_inv hinv hrun
  have hlt := (List.getElem?_eq_some_iff.1 hy).1
  obtain ⟨hexec, -, i', hi', hlat⟩ := htinv.retired k hlt y hy hwb
  cases hi.symm.trans hi'
  have hissued : k < t.pc := Nat.lt_of_not_le fun hpc => by
    cases hy.symm.trans (htinv.unissued k hlt hpc)
    exact hwb rfl
  obtain ⟨z, hz, hpos, -⟩ := htinv.issued k hissued
  cases hy.symm.trans hz
  rw [hcfg] at hlat
  exact ⟨hpos, hlat, hexec⟩

/-- Settles O59: by induction on the timer; the slot counts in every step and completes in the last. -/
theorem readySlotTiming : Obligations.ReadySlotTiming := by
  intro s t u v hinv hv hb hready hrun hf
  obtain ⟨x, hx, rfl⟩ := slotView_eq_some_iff.1 hv
  clear hv
  have hpos := (busyTimer_of_inv hinv hx hb).1
  obtain ⟨n, hn⟩ := Nat.exists_eq_succ_of_ne_zero (Nat.one_le_iff_ne_zero.1 hpos)
  rw [hn] at hrun ⊢
  clear hpos
  induction n generalizing s x with
  | zero =>
    obtain ⟨s', hstep, hend⟩ := runSteps_succ_eq_next.1 hrun
    cases hend
    have hsf : s.fault = none := by
      by_contra hne
      rw [step_of_fault_ne_none hne] at hstep
      cases hstep
      exact hne hf
    obtain ⟨o, -, h⟩ := stepped_of_step hinv hsf hstep
    have hc : completesNext s u = true := completesNext_eq_true_iff.2 ⟨x, hx, hb, hready, hn⟩
    refine ⟨fun ⟨v, hv, hvb⟩ => ?_, ?_⟩
    · rw [Option.mem_def, slotView_of_slotAt (h.slotAt_of_completes hx hc)] at hv
      cases hv
      simp at hvb
    · obtain ⟨-, y, hy, -⟩ := busyOwner_of_inv hinv hx hb
      have hwb := h.writtenBack hinv hx hc
      rw [Claims.WrittenBack, hy, Option.map_some] at hwb
      exact ⟨_, hwb, rfl, rfl⟩
  | succ n ih =>
    obtain ⟨s', hstep, hrest⟩ := runSteps_succ_eq_next.1 hrun
    have hsf : s.fault = none := by
      by_contra hne
      rw [runSteps_of_fault_ne_none _ hne] at hrun
      cases hrun
      exact hne hf
    obtain ⟨o, -, h⟩ := stepped_of_step hinv hsf hstep
    have hc : completesNext s u = false := by simp [completesNext_of_slotAt hx, hn]
    have hslot := h.slotAt_of_busy hx hb hc
    rw [x.tick.settle_eq_self o.cdb (.inr (by simpa using hready))] at hslot
    have htimer : x.tick.view.timer = n + 1 := by simp [Claims.timerNext, hb, hready, hn]
    obtain ⟨hfree, y, hy, hexec, hwb⟩ := ih s' (stepKeepsInvariants s s' hinv hstep) x.tick hslot (by simpa using hb)
      (by simpa using hready) hrest htimer
    rw [h.cycle] at hexec hwb
    rw [Slot.owner_tick] at hy
    exact ⟨hfree, y, hy, by omega, by omega⟩

/-! ### A pool of size 0 (R194, 43_cycle_driver) -/

theorem poolSize_eq_of_shape {s t : State} (hs : s.Shape) (ht : t.Shape) (hcfg : t.cfg = s.cfg) (p : Pool) :
    poolSize t p = poolSize s p := by
  cases p <;>
    simp [poolSize, busyBits, hs.add, hs.mul, hs.load, hs.store, ht.add, ht.mul, ht.load, ht.store, hcfg]

theorem pc_lt_of_recordAt {s : State} {i : Instr} (h : recordAt s s.pc = some i) : s.pc < s.prog.length := by
  obtain ⟨w, hw, -⟩ := recordAt_eq_some.1 h
  exact (List.getElem?_eq_some_iff.1 hw).1

/-- Settles O57: by induction on the number of steps; each stalls and keeps the hypotheses. -/
theorem emptyPoolHangs : Obligations.EmptyPoolHangs := by
  intro s i hinv hf hbudget hi hpool n
  induction n generalizing s with
  | zero =>
    have hdone := done_eq_false_of_pc_lt hinv (pc_lt_of_recordAt hi)
    obtain ⟨t, o, hrun⟩ := runCycle_of_inv hinv
    obtain ⟨hstall, -, -⟩ := runCycle_outputs hf hrun
    have hfull := leastFree_eq_none.2 (poolFull_of_poolSize_eq_zero hpool)
    exact ⟨s, rfl, rfl, rfl, hdone, hf, t, o, hrun, hstall.trans (stallOut_eq_true_iff.2 ⟨i, hi, hfull⟩)⟩
  | succ n ih =>
    obtain ⟨s', hstep⟩ := stepAnswersNextState s hinv
    obtain ⟨o, -, h⟩ := stepped_of_step hinv hf hstep
    have hfull := leastFree_eq_none.2 (poolFull_of_poolSize_eq_zero hpool)
    have hpc : s'.pc = s.pc := h.pcStall (by rw [allocNext_of_recordAt hi, hfull, Option.map_none])
    have hf' : s'.fault = none := by rw [step_fault hf hstep, hbudget, Option.elim_none]
    obtain ⟨t, hrun, htpc, hcycle, hrest⟩ := ih s' (stepKeepsInvariants s s' hinv hstep) hf' (by rw [h.cfg, hbudget])
      (by rw [h.recordAt_eq, hpc, hi]) ((poolSize_eq_of_shape hinv.shape h.shape h.cfg _).trans hpool)
    refine ⟨t, by rw [runSteps_succ_of_step hstep, hrun], htpc.trans hpc, ?_, hrest⟩
    rw [hcycle, h.cycle, Nat.add_right_comm, Nat.add_assoc]

end Sys2Proof.Machine
end

section
/-! SUPPORT. Termination (R193, 43_cycle_driver): the cycles that a machine still needs at most, which every step before
done makes fewer. -/

namespace Sys2Proof.Machine

/-! ### The work left -/

/-- The latency of record `k`, 0 where there is none. -/
def latAt (s : State) (k : Nat) : Nat :=
  match recordAt s k with
  | some i => latOf s.cfg (instrOpcode i)
  | none => 0

/-- What is left on the timer of a busy slot. -/
def timerLeft (s : State) (u : Tag) : Nat :=
  match slotView s u with
  | some x => if x.busy then x.timer else 0
  | none => 0

/-- The work left: for every record not issued one cycle and its latency, for every busy slot its timer. -/
def workLeft (s : State) : Nat :=
  ∑ k ∈ Finset.Ico s.pc s.prog.length, (1 + latAt s k) + ∑ u ∈ (scanOrder s).toFinset, timerLeft s u

theorem latAt_of_recordAt {s : State} {k : Nat} {i : Instr} (h : recordAt s k = some i) :
    latAt s k = latOf s.cfg (instrOpcode i) := by
  simp only [latAt, h]

theorem timerLeft_of_slotAt {s : State} {u : Tag} {x : Slot} (h : slotAt s u = some x) :
    timerLeft s u = if x.view.busy then x.view.timer else 0 := by
  simp only [timerLeft, slotView_of_slotAt h]

theorem timerLeft_of_slotAt_eq_none {s : State} {u : Tag} (h : slotAt s u = none) : timerLeft s u = 0 := by
  have hview : slotView s u = none := by rw [slotView_eq, h, Option.map_none]
  simp only [timerLeft, hview]

/-! ### A step makes it less -/

section
variable {s t : State} {cdb : List Txn} (h : Stepped s t cdb)
include h

theorem Stepped.scanOrder_eq (hinv : s.Inv) : scanOrder t = scanOrder s := by
  have hs := hinv.shape
  have ht := h.shape
  simp [scanOrder, hs.add, hs.mul, hs.load, hs.store, ht.add, ht.mul, ht.load, ht.store, h.cfg]

theorem Stepped.latAt_eq (k : Nat) : latAt t k = latAt s k := by
  simp only [latAt, h.recordAt_eq, h.cfg]

/-- No timer but that of the slot allocated in the step goes up. -/
theorem Stepped.timerLeft_le {u : Tag} (hu : NotAllocNext s u) : timerLeft t u ≤ timerLeft s u := by
  cases hx : slotAt s u with
  | none =>
    have hnone : slotAt t u = none := by rw [h.slots u hu, hx, Option.map_none]
    simp [timerLeft_of_slotAt_eq_none hnone]
  | some x =>
    have hslot : slotAt t u = some (slotNext s cdb u x) := by rw [h.slots u hu, hx, Option.map_some]
    rw [timerLeft_of_slotAt hslot, timerLeft_of_slotAt hx, slotNext]
    cases hc : completesNext s u with
    | true => simp
    | false =>
      have htick : Claims.timerNext x.view ≤ x.view.timer := by
        unfold Claims.timerNext
        split <;> omega
      cases hb : x.view.busy <;> simp [hb, htick]

/-- The timer of a busy and ready slot goes down. -/
theorem Stepped.timerLeft_lt (hinv : s.Inv) {u : Tag} {x : Slot} (hx : slotAt s u = some x)
    (hb : x.view.busy = true) (hr : x.view.ready = true) : timerLeft t u < timerLeft s u := by
  have hpos := (busyTimer_of_inv hinv hx hb).1
  have hslot : slotAt t u = some (slotNext s cdb u x) := by rw [h.slots u (notAllocNext_of_busy hx hb), hx, Option.map_some]
  rw [timerLeft_of_slotAt hslot, timerLeft_of_slotAt hx, slotNext]
  cases hc : completesNext s u with
  | true =>
    simp [hb]
    omega
  | false =>
    simp [Claims.timerNext, hb, hr]
    omega

/-- An allocation takes a record's work from the first sum and adds at most its latency to the second. -/
theorem Stepped.workLeft_of_alloc (hinv : s.Inv) {i : Instr} {r : Nat} (hir : allocNext s = some (i, r)) :
    workLeft t < workLeft s := by
  obtain ⟨hi, hr⟩ := allocNext_eq_some.1 hir
  have hrecords : ∑ k ∈ Finset.Ico s.pc s.prog.length, (1 + latAt s k) =
      1 + latAt s s.pc + ∑ k ∈ Finset.Ico t.pc t.prog.length, (1 + latAt t k) := by
    rw [Finset.sum_eq_sum_Ico_succ_bot (pc_lt_of_allocNext hir), h.pcAlloc i r hir, h.prog]
    simp only [h.latAt_eq]
  have hslot : ∀ u, timerLeft t u ≤ timerLeft s u + if u = instrTag i r then latAt s s.pc else 0 := fun u => by
    by_cases hu : u = instrTag i r
    · subst hu
      rw [timerLeft_of_slotAt (h.slotFresh i r hir), if_pos rfl, latAt_of_recordAt hi]
      simp
    · rw [if_neg hu]
      refine h.timerLeft_le fun i' r' hir' => ?_
      cases hir.symm.trans hir'
      exact hu
  have hslots : ∑ u ∈ (scanOrder t).toFinset, timerLeft t u ≤
      ∑ u ∈ (scanOrder s).toFinset, timerLeft s u + latAt s s.pc := by
    rw [h.scanOrder_eq hinv]
    refine (Finset.sum_le_sum fun u _ => hslot u).trans ?_
    rw [Finset.sum_add_distrib, Finset.sum_ite_eq']
    split <;> omega
  unfold workLeft
  omega

/-- A step without an allocation counts at the busy and ready slot there is. -/
theorem Stepped.workLeft_of_stall (hinv : s.Inv) (hnone : allocNext s = none)
    (hready : ∃ u x, slotAt s u = some x ∧ x.view.busy = true ∧ x.view.ready = true) : workLeft t < workLeft s := by
  obtain ⟨u, x, hx, hb, hr⟩ := hready
  have hno : ∀ w, NotAllocNext s w := fun w i r hir => by cases hnone.symm.trans hir
  unfold workLeft
  rw [h.pcStall hnone, h.prog, h.scanOrder_eq hinv]
  simp only [h.latAt_eq]
  exact Nat.add_lt_add_left (Finset.sum_lt_sum (fun w _ => h.timerLeft_le (hno w))
    ⟨u, List.mem_toFinset.2 (mem_scanOrder_of_slotAt hx), h.timerLeft_lt hinv hx hb hr⟩) _

end

/-- Of the busy slots the one of the least owner is ready: it can wait for no other. -/
theorem exists_ready_of_busy {s : State} (hinv : s.Inv) {u : Tag} {x : Slot} (hx : slotAt s u = some x)
    (hb : x.view.busy = true) : ∃ w y, slotAt s w = some y ∧ y.view.busy = true ∧ y.view.ready = true := by
  induction hk : x.view.owner using Nat.strong_induction_on generalizing u x with
  | _ k ih =>
    cases hr : x.view.ready with
    | true => exact ⟨u, x, hx, hb, hr⟩
    | false =>
      have hex : ∃ w, Entry.tag w ∈ x.operands := by
        rw [Slot.view_ready, List.all_eq_false] at hr
        obtain ⟨e, he, hval⟩ := hr
        cases e with
        | value v => simp [Entry.isVal] at hval
        | tag w => exact ⟨w, he⟩
      obtain ⟨w, hw⟩ := hex
      obtain ⟨-, y, hy, hyb, hlt⟩ := operandTags_of_inv hinv hx hb hw
      exact ih _ (hk ▸ hlt) hy hyb rfl

theorem exists_busy_of_poolFull {s : State} {p : Pool} (hfull : PoolFull s p) (hsize : 0 < poolSize s p) :
    ∃ u x, slotAt s u = some x ∧ x.view.busy = true := by
  obtain ⟨b, hb⟩ := List.exists_mem_of_length_pos hsize
  obtain ⟨r, hr⟩ := List.getElem?_of_mem hb
  rw [getElem?_busyBits, hfull b hb] at hr
  exact ⟨_, Option.map_eq_some_iff.1 hr⟩

/-- Every pool that a record of the program needs has a slot. -/
def PoolsSuffice (s : State) : Prop := ∀ k i, recordAt s k = some i → 0 < poolSize s (classOf (instrOpcode i))

/-- A machine that is not done and allocates nothing has a busy slot. -/
theorem exists_busy_of_stall {s : State} (hinv : s.Inv) (hpools : PoolsSuffice s) (hdone : done s = false)
    (hnone : allocNext s = none) : ∃ u x, slotAt s u = some x ∧ x.view.busy = true := by
  obtain hlt | heq := Nat.lt_or_eq_of_le hinv.pcRange
  · obtain ⟨i, hi⟩ := Option.isSome_iff_exists.1 (hinv.records s.pc hlt)
    rw [allocNext_of_recordAt hi, Option.map_eq_none_iff] at hnone
    exact exists_busy_of_poolFull (leastFree_eq_none.1 hnone) (hpools s.pc i hi)
  · exact exists_busy_of_not_done hinv heq hdone

/-- Every step of a machine that is not done makes the work left less. -/
theorem Stepped.workLeft_lt {s t : State} {cdb : List Txn} (h : Stepped s t cdb) (hinv : s.Inv)
    (hpools : PoolsSuffice s) (hdone : done s = false) : workLeft t < workLeft s := by
  cases ha : allocNext s with
  | some p => exact h.workLeft_of_alloc hinv (i := p.1) (r := p.2) ha
  | none =>
    obtain ⟨u, x, hx, hb⟩ := exists_busy_of_stall hinv hpools hdone ha
    exact h.workLeft_of_stall hinv ha (exists_ready_of_busy hinv hx hb)

/-- A machine with no work left is done. -/
theorem workLeft_pos {s : State} (hinv : s.Inv) (hdone : done s = false) : 0 < workLeft s := by
  obtain hlt | heq := Nat.lt_or_eq_of_le hinv.pcRange
  · refine Nat.add_pos_left ?_ _
    rw [Finset.sum_eq_sum_Ico_succ_bot hlt]
    omega
  · obtain ⟨u, x, hx, hb⟩ := exists_busy_of_not_done hinv heq hdone
    refine Nat.add_pos_right _ (Finset.sum_pos' (fun _ _ => Nat.zero_le _)
      ⟨u, List.mem_toFinset.2 (mem_scanOrder_of_slotAt hx), ?_⟩)
    rw [timerLeft_of_slotAt hx, if_pos hb]
    exact (busyTimer_of_inv hinv hx hb).1

/-! ### The run to done -/

/-- A machine whose pools suffice, and whose budget covers the work left, is done within it, and the driver ends
there. -/
theorem reaches_done {n : Nat} {s : State} (hinv : s.Inv) (hf : s.fault = none) (hpools : PoolsSuffice s)
    (hbudget : ∀ m ∈ s.cfg.maxCycles, s.cycle + workLeft s ≤ m) (hn : workLeft s ≤ n) :
    ∃ m t, m ≤ n ∧ runSteps m s = .next t ∧ done t = true ∧ t.fault = none ∧ drive n s = .next t := by
  induction n generalizing s with
  | zero =>
    have hdone : done s = true := Bool.of_not_eq_false fun hno => by
      have := workLeft_pos hinv hno
      omega
    exact ⟨0, s, le_rfl, rfl, hdone, hf, rfl⟩
  | succ n ih =>
    cases hdone : done s with
    | true => exact ⟨0, s, Nat.zero_le _, rfl, hdone, hf, drive_of_stops _ (driverStops_eq_true.2 (.inl hdone))⟩
    | false =>
      obtain ⟨s', hstep⟩ := stepAnswersNextState s hinv
      obtain ⟨o, -, h⟩ := stepped_of_step hinv hf hstep
      have hinv' := stepKeepsInvariants s s' hinv hstep
      have hless := h.workLeft_lt hinv hpools hdone
      have hf' : s'.fault = none := by
        rw [step_fault hf hstep]
        cases hm : s.cfg.maxCycles with
        | none => rfl
        | some m =>
          have hle := hbudget m hm
          refine if_neg fun ⟨hused, hno⟩ => ?_
          have := workLeft_pos hinv' hno
          omega
      have hpools' : PoolsSuffice s' := fun k i hi => by
        rw [poolSize_eq_of_shape hinv.shape h.shape h.cfg]
        exact hpools k i (h.recordAt_eq k ▸ hi)
      have hbudget' : ∀ m ∈ s'.cfg.maxCycles, s'.cycle + workLeft s' ≤ m := fun m hm => by
        have hle := hbudget m (h.cfg ▸ hm)
        rw [h.cycle]
        omega
      obtain ⟨m, t, hm, hrun, hend⟩ := ih hinv' hf' hpools' hbudget' (by omega)
      refine ⟨m + 1, t, Nat.succ_le_succ hm, by rw [runSteps_succ_of_step hstep, hrun], ?_⟩
      rw [drive_succ n (driverStops_eq_false.2 ⟨hdone, hf⟩), hstep, andThen_next]
      exact hend

/-- After reset no slot is busy, and every record is still to be issued. -/
theorem workLeft_initState (cfg : Config) (prog : List Word) :
    workLeft (initState cfg prog) = prog.length + latencySum (initState cfg prog) := by
  have htimers : ∑ u ∈ (scanOrder (initState cfg prog)).toFinset, timerLeft (initState cfg prog) u = 0 :=
    Finset.sum_eq_zero fun u _ => by
      cases hx : slotAt (initState cfg prog) u with
      | none => exact timerLeft_of_slotAt_eq_none hx
      | some x =>
        rw [timerLeft_of_slotAt hx, slotView_initState (slotView_of_slotAt hx)]
        rfl
  have hlat : ∑ k ∈ Finset.range prog.length, latAt (initState cfg prog) k = latencySum (initState cfg prog) := rfl
  rw [workLeft, htimers, Nat.add_zero]
  show ∑ k ∈ Finset.Ico 0 prog.length, (1 + latAt (initState cfg prog) k) = _
  rw [← Finset.range_eq_Ico, Finset.sum_add_distrib, hlat]
  simp

/-- Settles O58: the work left at reset is the bound. -/
theorem everyProgramReachesDone : Obligations.EveryProgramReachesDone := by
  intro cfg prog s hload hpools hbudget
  have hinv := loadedMachineMeetsInvariants cfg prog s hload
  obtain ⟨-, rfl⟩ := loadMachine_eq_ok.1 hload
  have hwork := workLeft_initState cfg prog
  obtain ⟨n, t, hn, hrun, hdone, hf, hdrive⟩ := reaches_done (n := prog.length + latencySum (initState cfg prog)) hinv rfl
    hpools (fun m hm => by
      rw [hwork]
      exact (Nat.zero_add _).trans_le (hbudget m hm)) hwork.le
  exact ⟨n, t, hn, hrun, hdone, hf, hdrive, _, hdrive, driverStops_eq_true.2 (.inl hdone)⟩

end Sys2Proof.Machine
end
